-- ==== Sys2Proof/Word.lean ====
section
/-! DEFINITION. The word and byte types (00_scope R7, R12): every register and memory cell holds a 32-bit word,
and `+`, `-`, `*` on words are modulo 2^32, which is `BitVec` arithmetic. -/

namespace Sys2Proof

/-- A word: an unsigned 32-bit value (00_scope R7, R18). -/
abbrev Word := BitVec 32

/-- A byte of a word (20_memory R71). -/
abbrev Byte := BitVec 8

end Sys2Proof
end

