-- ==== Sys2Proof/Syntax.lean ====
section
/-! DEFINITION. The instructions: the 79 MIPS32 forms of spec/opcode_table.json (`Instr`), and the decoded
instruction record the engine executes them as (`Opcode`, `Record`; 30_encoding R125, R128). -/

namespace Sys2Proof

/-- A register field of a MIPS word: it can name the general registers 0 to 31 only (10_state R34). -/
abbrev Reg := Fin 32

/-- One constructor per row of spec/opcode_table.json, its arguments in the row's `syntax` order.
CLZ and CLO keep the table's `rt` field, which must equal `rd` (40_alu R227, R228; checked in WellFormed).
Fields the spec calls free (`code`, `stype`, `hint`, the offsets of PREF and SYNCI; 30_encoding R129, R135)
are kept, so that no bit of a word is lost. -/
inductive Instr where
  -- 40_alu: register forms
  | add (rd rs rt : Reg)
  | addu (rd rs rt : Reg)
  | sub (rd rs rt : Reg)
  | subu (rd rs rt : Reg)
  | and (rd rs rt : Reg)
  | or (rd rs rt : Reg)
  | xor (rd rs rt : Reg)
  | nor (rd rs rt : Reg)
  | slt (rd rs rt : Reg)
  | sltu (rd rs rt : Reg)
  -- 40_alu: immediate forms
  | addi (rt rs : Reg) (imm : BitVec 16)
  | addiu (rt rs : Reg) (imm : BitVec 16)
  | slti (rt rs : Reg) (imm : BitVec 16)
  | sltiu (rt rs : Reg) (imm : BitVec 16)
  | andi (rt rs : Reg) (imm : BitVec 16)
  | ori (rt rs : Reg) (imm : BitVec 16)
  | xori (rt rs : Reg) (imm : BitVec 16)
  | lui (rt : Reg) (imm : BitVec 16)
  -- 40_alu: shifts and rotates
  | sll (rd rt : Reg) (sa : BitVec 5)
  | srl (rd rt : Reg) (sa : BitVec 5)
  | rotr (rd rt : Reg) (sa : BitVec 5)
  | sra (rd rt : Reg) (sa : BitVec 5)
  | sllv (rd rt rs : Reg)
  | srlv (rd rt rs : Reg)
  | rotrv (rd rt rs : Reg)
  | srav (rd rt rs : Reg)
  -- 40_alu: counts, moves from HI and LO, decoded no-ops
  | clz (rd rs rt : Reg)
  | clo (rd rs rt : Reg)
  | mfhi (rd : Reg)
  | mflo (rd : Reg)
  | mthi (rs : Reg)
  | mtlo (rs : Reg)
  | sync (stype : BitVec 5)
  | pref (hint : BitVec 5) (base : Reg) (off : BitVec 16)
  | synci (base : Reg) (off : BitVec 16)
  -- 41_muldiv
  | mul (rd rs rt : Reg)
  | mult (rs rt : Reg)
  | multu (rs rt : Reg)
  | div (rs rt : Reg)
  | divu (rs rt : Reg)
  | madd (rs rt : Reg)
  | maddu (rs rt : Reg)
  | msub (rs rt : Reg)
  | msubu (rs rt : Reg)
  -- 42_loadstore
  | lb (rt base : Reg) (off : BitVec 16)
  | lh (rt base : Reg) (off : BitVec 16)
  | lwl (rt base : Reg) (off : BitVec 16)
  | lw (rt base : Reg) (off : BitVec 16)
  | lbu (rt base : Reg) (off : BitVec 16)
  | lhu (rt base : Reg) (off : BitVec 16)
  | lwr (rt base : Reg) (off : BitVec 16)
  | sb (rt base : Reg) (off : BitVec 16)
  | sh (rt base : Reg) (off : BitVec 16)
  | swl (rt base : Reg) (off : BitVec 16)
  | sw (rt base : Reg) (off : BitVec 16)
  | swr (rt base : Reg) (off : BitVec 16)
  | ll (rt base : Reg) (off : BitVec 16)
  | sc (rt base : Reg) (off : BitVec 16)
  -- 43_branch
  | beq (rs rt : Reg) (off : BitVec 16)
  | bne (rs rt : Reg) (off : BitVec 16)
  | blez (rs : Reg) (off : BitVec 16)
  | bgtz (rs : Reg) (off : BitVec 16)
  | bltz (rs : Reg) (off : BitVec 16)
  | bgez (rs : Reg) (off : BitVec 16)
  -- 44_jump
  | j (index : BitVec 26)
  | jal (index : BitVec 26)
  | jr (rs : Reg)
  | jalr (rd rs : Reg)
  | bal (off : BitVec 16)
  -- 45_misc
  | movz (rd rs rt : Reg)
  | movn (rd rs rt : Reg)
  | seb (rd rt : Reg)
  | seh (rd rt : Reg)
  | wsbh (rd rt : Reg)
  | ext (rt rs : Reg) (msbd lsb : BitVec 5)
  | ins (rt rs : Reg) (msb lsb : BitVec 5)
  | teq (rs rt : Reg) (code : BitVec 10)
  -- 46_system
  | syscall (code : BitVec 20)
  | brk (code : BitVec 20)
  deriving DecidableEq, Repr

/-- The decoded opcodes: the left column of 20_memory R85 and the mapping of 30_encoding R128 (with the
synthetic opcodes of 00_scope R18 and the internal MOD and MODU of 30_encoding R134). -/
inductive Opcode where
  | add | sub | and | or | xor | nor | slt | sltu | sll | srl | sra | ror | clz | clo
  | mul | mod | modu
  | mult | multu | div | divu | madd | maddu | msub | msubu | mthi | mtlo
  | lb | lbu | lh | lhu | lw | lwl | lwr | ll
  | sb | sh | sw | swl | swr | sc
  | beq | bne | blez | bgtz | bltz | bgez
  | jump | jumpi | jumpDirect
  | meq | mne | sext | wsbh | ext | ins | teq
  | syscall | brk | unimpl
  deriving DecidableEq, Repr

/-- The decoded instruction record `(opcode, op_a, op_b, op_c, imm_b, imm_c, raw?)` (00_scope R18, 30_encoding
R125): `b` and `c` are register indices where their flag is false and immediate words where it is true. -/
structure Record where
  opcode : Opcode
  a : Nat
  b : Word
  c : Word
  immB : Bool
  immC : Bool
  raw : Option Word
  deriving DecidableEq, Repr

/-- What decoding a word gives (30_encoding R130): a recognised form, or UNIMPL carrying the raw word. -/
inductive Decoded where
  | instr (i : Instr)
  | unimpl (raw : Word)
  deriving DecidableEq, Repr

/-- One place of the program (10_state R46, 70_reset_and_hazards R460): a machine word, which fetching decodes,
or a decoded record the loader built directly, the only way to run MOD and MODU (30_encoding R134). -/
inductive Slot where
  | word (w : Word)
  | record (r : Record)
  deriving DecidableEq, Repr

end Sys2Proof
end

