-- ==== Sys2Proof/WellFormed.lean ====
section
/-! DEFINITION. Well-formedness: which terms of `Instr` stand for a word of the table. Which decoded records the engine
executes (45_misc R368) stands with their execution, in Machine/Records. -/

namespace Sys2Proof

/-- A MIPS form is well formed when its fields can stand in a canonical word. The field types leave one check:
CLZ and CLO need `rt = rd` (30_encoding R129; 40_alu R227, R228). -/
def Instr.wf : Instr → Bool
  | .add _ _ _ | .addu _ _ _ | .sub _ _ _ | .subu _ _ _ | .and _ _ _ | .or _ _ _ | .xor _ _ _ | .nor _ _ _
  | .slt _ _ _ | .sltu _ _ _ => true
  | .addi _ _ _ | .addiu _ _ _ | .slti _ _ _ | .sltiu _ _ _ | .andi _ _ _ | .ori _ _ _ | .xori _ _ _
  | .lui _ _ => true
  | .sll _ _ _ | .srl _ _ _ | .rotr _ _ _ | .sra _ _ _ | .sllv _ _ _ | .srlv _ _ _ | .rotrv _ _ _
  | .srav _ _ _ => true
  | .clz rd _ rt => decide (rt = rd)
  | .clo rd _ rt => decide (rt = rd)
  | .mfhi _ | .mflo _ | .mthi _ | .mtlo _ | .sync _ | .pref _ _ _ | .synci _ _ => true
  | .mul _ _ _ | .mult _ _ | .multu _ _ | .div _ _ | .divu _ _ | .madd _ _ | .maddu _ _ | .msub _ _
  | .msubu _ _ => true
  | .lb _ _ _ | .lh _ _ _ | .lwl _ _ _ | .lw _ _ _ | .lbu _ _ _ | .lhu _ _ _ | .lwr _ _ _ | .sb _ _ _
  | .sh _ _ _ | .swl _ _ _ | .sw _ _ _ | .swr _ _ _ | .ll _ _ _ | .sc _ _ _ => true
  | .beq _ _ _ | .bne _ _ _ | .blez _ _ | .bgtz _ _ | .bltz _ _ | .bgez _ _ => true
  | .j _ | .jal _ | .jr _ | .jalr _ _ | .bal _ => true
  | .movz _ _ _ | .movn _ _ _ | .seb _ _ | .seh _ _ | .wsbh _ _ | .ext _ _ _ _ | .ins _ _ _ _ | .teq _ _ _ => true
  | .syscall _ | .brk _ => true

end Sys2Proof
end

