-- ==== Sys2Proof/Decode.lean ====
section
/-! DEFINITION. The decoder (30_encoding): fields of a word, sign and zero extension of immediates, `decode` from a
word to a form or UNIMPL, the encoder written from the same formats, the decoded record of each form (R128), and
the rows of spec/opcode_table.json as data. -/

namespace Sys2Proof

/-! ### Fields of a word (R121, R122, R123) -/

/-- Bits 31:26. -/
def Word.opcode (w : Word) : BitVec 6 := w.extractLsb' 26 6
/-- Bits 25:21. -/
def Word.rs (w : Word) : Reg := (w.extractLsb' 21 5).toFin
/-- Bits 20:16. -/
def Word.rt (w : Word) : Reg := (w.extractLsb' 16 5).toFin
/-- Bits 15:11. -/
def Word.rd (w : Word) : Reg := (w.extractLsb' 11 5).toFin
/-- Bits 10:6. -/
def Word.sa (w : Word) : BitVec 5 := w.extractLsb' 6 5
/-- Bits 5:0. -/
def Word.funct (w : Word) : BitVec 6 := w.extractLsb' 0 6
/-- Bits 15:0. -/
def Word.imm (w : Word) : BitVec 16 := w.extractLsb' 0 16
/-- Bits 25:0. -/
def Word.index (w : Word) : BitVec 26 := w.extractLsb' 0 26
/-- The 20-bit code of SYSCALL and BREAK, bits 25:6. -/
def Word.code20 (w : Word) : BitVec 20 := w.extractLsb' 6 20
/-- The 10-bit code of TEQ, bits 15:6. -/
def Word.code10 (w : Word) : BitVec 10 := w.extractLsb' 6 10
/-- The five bits of a register field, as bits. -/
def Reg.bits (r : Reg) : BitVec 5 := BitVec.ofFin r

/-! ### Immediates (R124) -/

/-- `sext_16`: arithmetic immediates, load and store offsets. -/
def sext16 (v : BitVec 16) : Word := v.signExtend 32
/-- `zext_16`: logical immediates, LUI. -/
def zext16 (v : BitVec 16) : Word := v.setWidth 32
/-- `sext_16(offset) << 2`: branch offsets, in bytes from `npc`. -/
def branchOffset (v : BitVec 16) : Word := sext16 v <<< 2
/-- `zext_26(instr_index) << 2`. -/
def jumpIndex (v : BitVec 26) : Word := v.setWidth 32 <<< 2
/-- `zext_5(sa)`. -/
def zext5 (v : BitVec 5) : Word := v.setWidth 32
/-- `(msb << 5) | lsb`: the packed field bounds of EXT and INS. -/
def fieldBounds (msb lsb : BitVec 5) : Word := (zext5 msb <<< 5) ||| zext5 lsb

/-! ### The decoder (R126, R129, R130, R136-R140) -/

/-- A canonical word gives its form; a word with a nonzero must-be-zero field is UNIMPL (R129). -/
def canonical (ok : Bool) (i : Instr) (w : Word) : Decoded :=
  if ok then .instr i else .unimpl w

/-- SPECIAL, opcode 0x00, by funct, and for 0x02 and 0x06 also by rs or sa (R126, R137). -/
def decodeSpecial (w : Word) : Decoded :=
  match w.funct.toNat with
  | 0x00 => canonical (w.rs == 0) (.sll w.rd w.rt w.sa) w
  | 0x02 =>
    if w.rs == 1 then .instr (.rotr w.rd w.rt w.sa) else canonical (w.rs == 0) (.srl w.rd w.rt w.sa) w
  | 0x03 => canonical (w.rs == 0) (.sra w.rd w.rt w.sa) w
  | 0x04 => canonical (w.sa == 0) (.sllv w.rd w.rt w.rs) w
  | 0x06 =>
    if w.sa == 1 then .instr (.rotrv w.rd w.rt w.rs) else canonical (w.sa == 0) (.srlv w.rd w.rt w.rs) w
  | 0x07 => canonical (w.sa == 0) (.srav w.rd w.rt w.rs) w
  | 0x08 => canonical (w.rt == 0 && w.rd == 0 && w.sa == 0) (.jr w.rs) w
  | 0x09 => canonical (w.rt == 0 && w.sa == 0) (.jalr w.rd w.rs) w
  | 0x0A => canonical (w.sa == 0) (.movz w.rd w.rs w.rt) w
  | 0x0B => canonical (w.sa == 0) (.movn w.rd w.rs w.rt) w
  | 0x0C => .instr (.syscall w.code20)
  | 0x0D => .instr (.brk w.code20)
  | 0x0F => canonical (w.rs == 0 && w.rt == 0 && w.rd == 0) (.sync w.sa) w
  | 0x10 => canonical (w.rs == 0 && w.rt == 0 && w.sa == 0) (.mfhi w.rd) w
  | 0x11 => canonical (w.rt == 0 && w.rd == 0 && w.sa == 0) (.mthi w.rs) w
  | 0x12 => canonical (w.rs == 0 && w.rt == 0 && w.sa == 0) (.mflo w.rd) w
  | 0x13 => canonical (w.rt == 0 && w.rd == 0 && w.sa == 0) (.mtlo w.rs) w
  | 0x18 => canonical (w.rd == 0 && w.sa == 0) (.mult w.rs w.rt) w
  | 0x19 => canonical (w.rd == 0 && w.sa == 0) (.multu w.rs w.rt) w
  | 0x1A => canonical (w.rd == 0 && w.sa == 0) (.div w.rs w.rt) w
  | 0x1B => canonical (w.rd == 0 && w.sa == 0) (.divu w.rs w.rt) w
  | 0x20 => canonical (w.sa == 0) (.add w.rd w.rs w.rt) w
  | 0x21 => canonical (w.sa == 0) (.addu w.rd w.rs w.rt) w
  | 0x22 => canonical (w.sa == 0) (.sub w.rd w.rs w.rt) w
  | 0x23 => canonical (w.sa == 0) (.subu w.rd w.rs w.rt) w
  | 0x24 => canonical (w.sa == 0) (.and w.rd w.rs w.rt) w
  | 0x25 => canonical (w.sa == 0) (.or w.rd w.rs w.rt) w
  | 0x26 => canonical (w.sa == 0) (.xor w.rd w.rs w.rt) w
  | 0x27 => canonical (w.sa == 0) (.nor w.rd w.rs w.rt) w
  | 0x2A => canonical (w.sa == 0) (.slt w.rd w.rs w.rt) w
  | 0x2B => canonical (w.sa == 0) (.sltu w.rd w.rs w.rt) w
  | 0x34 => .instr (.teq w.rs w.rt w.code10)
  | _ => .unimpl w

/-- REGIMM, opcode 0x01, by rt (R138); BAL is rt 0x11 with rs 0. -/
def decodeRegimm (w : Word) : Decoded :=
  match w.rt.val with
  | 0x00 => .instr (.bltz w.rs w.imm)
  | 0x01 => .instr (.bgez w.rs w.imm)
  | 0x11 => canonical (w.rs == 0) (.bal w.imm) w
  | 0x1F => .instr (.synci w.rs w.imm)
  | _ => .unimpl w

/-- SPECIAL2, opcode 0x1C, by funct (R139); CLZ and CLO need `rt = rd` (R129). -/
def decodeSpecial2 (w : Word) : Decoded :=
  match w.funct.toNat with
  | 0x00 => canonical (w.rd == 0 && w.sa == 0) (.madd w.rs w.rt) w
  | 0x01 => canonical (w.rd == 0 && w.sa == 0) (.maddu w.rs w.rt) w
  | 0x02 => canonical (w.sa == 0) (.mul w.rd w.rs w.rt) w
  | 0x04 => canonical (w.rd == 0 && w.sa == 0) (.msub w.rs w.rt) w
  | 0x05 => canonical (w.rd == 0 && w.sa == 0) (.msubu w.rs w.rt) w
  | 0x20 => canonical (w.sa == 0 && w.rt == w.rd) (.clz w.rd w.rs w.rt) w
  | 0x21 => canonical (w.sa == 0 && w.rt == w.rd) (.clo w.rd w.rs w.rt) w
  | _ => .unimpl w

/-- SPECIAL3, opcode 0x1F, by funct, and BSHFL (funct 0x20) by sa (R140). -/
def decodeSpecial3 (w : Word) : Decoded :=
  match w.funct.toNat with
  | 0x00 => .instr (.ext w.rt w.rs w.rd.bits w.sa)
  | 0x04 => .instr (.ins w.rt w.rs w.rd.bits w.sa)
  | 0x20 =>
    match w.sa.toNat with
    | 0x02 => canonical (w.rs == 0) (.wsbh w.rd w.rt) w
    | 0x10 => canonical (w.rs == 0) (.seb w.rd w.rt) w
    | 0x18 => canonical (w.rs == 0) (.seh w.rd w.rt) w
    | _ => .unimpl w
  | _ => .unimpl w

/-- The decoder, total on 32-bit words (R130), by the primary opcode (R136). -/
def decode (w : Word) : Decoded :=
  match w.opcode.toNat with
  | 0x00 => decodeSpecial w
  | 0x01 => decodeRegimm w
  | 0x02 => .instr (.j w.index)
  | 0x03 => .instr (.jal w.index)
  | 0x04 => .instr (.beq w.rs w.rt w.imm)
  | 0x05 => .instr (.bne w.rs w.rt w.imm)
  | 0x06 => canonical (w.rt == 0) (.blez w.rs w.imm) w
  | 0x07 => canonical (w.rt == 0) (.bgtz w.rs w.imm) w
  | 0x08 => .instr (.addi w.rt w.rs w.imm)
  | 0x09 => .instr (.addiu w.rt w.rs w.imm)
  | 0x0A => .instr (.slti w.rt w.rs w.imm)
  | 0x0B => .instr (.sltiu w.rt w.rs w.imm)
  | 0x0C => .instr (.andi w.rt w.rs w.imm)
  | 0x0D => .instr (.ori w.rt w.rs w.imm)
  | 0x0E => .instr (.xori w.rt w.rs w.imm)
  | 0x0F => canonical (w.rs == 0) (.lui w.rt w.imm) w
  | 0x1C => decodeSpecial2 w
  | 0x1F => decodeSpecial3 w
  | 0x20 => .instr (.lb w.rt w.rs w.imm)
  | 0x21 => .instr (.lh w.rt w.rs w.imm)
  | 0x22 => .instr (.lwl w.rt w.rs w.imm)
  | 0x23 => .instr (.lw w.rt w.rs w.imm)
  | 0x24 => .instr (.lbu w.rt w.rs w.imm)
  | 0x25 => .instr (.lhu w.rt w.rs w.imm)
  | 0x26 => .instr (.lwr w.rt w.rs w.imm)
  | 0x28 => .instr (.sb w.rt w.rs w.imm)
  | 0x29 => .instr (.sh w.rt w.rs w.imm)
  | 0x2A => .instr (.swl w.rt w.rs w.imm)
  | 0x2B => .instr (.sw w.rt w.rs w.imm)
  | 0x2E => .instr (.swr w.rt w.rs w.imm)
  | 0x30 => .instr (.ll w.rt w.rs w.imm)
  | 0x33 => .instr (.pref w.rt.bits w.rs w.imm)
  | 0x38 => .instr (.sc w.rt w.rs w.imm)
  | _ => .unimpl w

/-- What the host asks of the decoder: a table word `w` of `nbits` bits, the bits above them 0, as one 32-bit
instruction word (R120: every instruction is one word). -/
def decodeTableWord (nbits w : Nat) : Option Instr :=
  match decode (BitVec.ofNat 32 (w % 2 ^ nbits)) with
  | .instr i => some i
  | .unimpl _ => none

/-! ### The encoder (R121, R122, R123, and the match values of spec/opcode_table.json) -/

/-- R format. -/
def encodeR (op : BitVec 6) (rs rt rd : Reg) (sa : BitVec 5) (funct : BitVec 6) : Word :=
  op ++ rs.bits ++ rt.bits ++ rd.bits ++ sa ++ funct
/-- I format. -/
def encodeI (op : BitVec 6) (rs rt : Reg) (imm : BitVec 16) : Word :=
  op ++ rs.bits ++ rt.bits ++ imm
/-- J format. -/
def encodeJ (op : BitVec 6) (index : BitVec 26) : Word :=
  op ++ index
/-- SYSCALL and BREAK: opcode 0, the 20-bit code, funct. -/
def encodeCode20 (code : BitVec 20) (funct : BitVec 6) : Word :=
  0#6 ++ code ++ funct
/-- TEQ: opcode 0, rs, rt, the 10-bit code, funct. -/
def encodeCode10 (rs rt : Reg) (code : BitVec 10) (funct : BitVec 6) : Word :=
  0#6 ++ rs.bits ++ rt.bits ++ code ++ funct

/-- The word of a form. -/
def encode : Instr → Word
  | .add rd rs rt => encodeR 0x00 rs rt rd 0 0x20
  | .addu rd rs rt => encodeR 0x00 rs rt rd 0 0x21
  | .sub rd rs rt => encodeR 0x00 rs rt rd 0 0x22
  | .subu rd rs rt => encodeR 0x00 rs rt rd 0 0x23
  | .and rd rs rt => encodeR 0x00 rs rt rd 0 0x24
  | .or rd rs rt => encodeR 0x00 rs rt rd 0 0x25
  | .xor rd rs rt => encodeR 0x00 rs rt rd 0 0x26
  | .nor rd rs rt => encodeR 0x00 rs rt rd 0 0x27
  | .slt rd rs rt => encodeR 0x00 rs rt rd 0 0x2A
  | .sltu rd rs rt => encodeR 0x00 rs rt rd 0 0x2B
  | .addi rt rs imm => encodeI 0x08 rs rt imm
  | .addiu rt rs imm => encodeI 0x09 rs rt imm
  | .slti rt rs imm => encodeI 0x0A rs rt imm
  | .sltiu rt rs imm => encodeI 0x0B rs rt imm
  | .andi rt rs imm => encodeI 0x0C rs rt imm
  | .ori rt rs imm => encodeI 0x0D rs rt imm
  | .xori rt rs imm => encodeI 0x0E rs rt imm
  | .lui rt imm => encodeI 0x0F 0 rt imm
  | .sll rd rt sa => encodeR 0x00 0 rt rd sa 0x00
  | .srl rd rt sa => encodeR 0x00 0 rt rd sa 0x02
  | .rotr rd rt sa => encodeR 0x00 1 rt rd sa 0x02
  | .sra rd rt sa => encodeR 0x00 0 rt rd sa 0x03
  | .sllv rd rt rs => encodeR 0x00 rs rt rd 0 0x04
  | .srlv rd rt rs => encodeR 0x00 rs rt rd 0 0x06
  | .rotrv rd rt rs => encodeR 0x00 rs rt rd 1 0x06
  | .srav rd rt rs => encodeR 0x00 rs rt rd 0 0x07
  | .clz rd rs rt => encodeR 0x1C rs rt rd 0 0x20
  | .clo rd rs rt => encodeR 0x1C rs rt rd 0 0x21
  | .mfhi rd => encodeR 0x00 0 0 rd 0 0x10
  | .mflo rd => encodeR 0x00 0 0 rd 0 0x12
  | .mthi rs => encodeR 0x00 rs 0 0 0 0x11
  | .mtlo rs => encodeR 0x00 rs 0 0 0 0x13
  | .sync stype => encodeR 0x00 0 0 0 stype 0x0F
  | .pref hint base off => encodeI 0x33 base hint.toFin off
  | .synci base off => encodeI 0x01 base 0x1F off
  | .mul rd rs rt => encodeR 0x1C rs rt rd 0 0x02
  | .mult rs rt => encodeR 0x00 rs rt 0 0 0x18
  | .multu rs rt => encodeR 0x00 rs rt 0 0 0x19
  | .div rs rt => encodeR 0x00 rs rt 0 0 0x1A
  | .divu rs rt => encodeR 0x00 rs rt 0 0 0x1B
  | .madd rs rt => encodeR 0x1C rs rt 0 0 0x00
  | .maddu rs rt => encodeR 0x1C rs rt 0 0 0x01
  | .msub rs rt => encodeR 0x1C rs rt 0 0 0x04
  | .msubu rs rt => encodeR 0x1C rs rt 0 0 0x05
  | .lb rt base off => encodeI 0x20 base rt off
  | .lh rt base off => encodeI 0x21 base rt off
  | .lwl rt base off => encodeI 0x22 base rt off
  | .lw rt base off => encodeI 0x23 base rt off
  | .lbu rt base off => encodeI 0x24 base rt off
  | .lhu rt base off => encodeI 0x25 base rt off
  | .lwr rt base off => encodeI 0x26 base rt off
  | .sb rt base off => encodeI 0x28 base rt off
  | .sh rt base off => encodeI 0x29 base rt off
  | .swl rt base off => encodeI 0x2A base rt off
  | .sw rt base off => encodeI 0x2B base rt off
  | .swr rt base off => encodeI 0x2E base rt off
  | .ll rt base off => encodeI 0x30 base rt off
  | .sc rt base off => encodeI 0x38 base rt off
  | .beq rs rt off => encodeI 0x04 rs rt off
  | .bne rs rt off => encodeI 0x05 rs rt off
  | .blez rs off => encodeI 0x06 rs 0 off
  | .bgtz rs off => encodeI 0x07 rs 0 off
  | .bltz rs off => encodeI 0x01 rs 0x00 off
  | .bgez rs off => encodeI 0x01 rs 0x01 off
  | .j index => encodeJ 0x02 index
  | .jal index => encodeJ 0x03 index
  | .jr rs => encodeR 0x00 rs 0 0 0 0x08
  | .jalr rd rs => encodeR 0x00 rs 0 rd 0 0x09
  | .bal off => encodeI 0x01 0 0x11 off
  | .movz rd rs rt => encodeR 0x00 rs rt rd 0 0x0A
  | .movn rd rs rt => encodeR 0x00 rs rt rd 0 0x0B
  | .seb rd rt => encodeR 0x1F 0 rt rd 0x10 0x20
  | .seh rd rt => encodeR 0x1F 0 rt rd 0x18 0x20
  | .wsbh rd rt => encodeR 0x1F 0 rt rd 0x02 0x20
  | .ext rt rs msbd lsb => encodeR 0x1F rs rt msbd.toFin lsb 0x00
  | .ins rt rs msb lsb => encodeR 0x1F rs rt msb.toFin lsb 0x04
  | .teq rs rt code => encodeCode10 rs rt code 0x34
  | .syscall code => encodeCode20 code 0x0C
  | .brk code => encodeCode20 code 0x0D

/-! ### The decoded record of each form (R128) -/

/-- A register operand as the word a record holds. -/
def Reg.word (r : Reg) : Word := BitVec.ofNat 32 r.val

/-- A record whose operands b and c are both registers. -/
def Record.rr (op : Opcode) (a : Nat) (b c : Reg) (raw : Word) : Record :=
  { opcode := op, a := a, b := b.word, c := c.word, immB := false, immC := false, raw := some raw }
/-- A record with a register b and an immediate c. -/
def Record.ri (op : Opcode) (a : Nat) (b : Reg) (c raw : Word) : Record :=
  { opcode := op, a := a, b := b.word, c := c, immB := false, immC := true, raw := some raw }
/-- A record with two immediates. -/
def Record.ii (op : Opcode) (a : Nat) (b c raw : Word) : Record :=
  { opcode := op, a := a, b := b, c := c, immB := true, immC := true, raw := some raw }
/-- UNIMPL carrying its raw word (R130). -/
def Record.unimpl (raw : Word) : Record :=
  { opcode := .unimpl, a := 0, b := 0, c := 0, immB := false, immC := false, raw := some raw }

/-- The index of LO and of HI in the register file (10_state R30). -/
abbrev loIndex : Nat := 32
abbrev hiIndex : Nat := 33

/-- The table of R128, `raw` being the word itself (R133). MTHI and MTLO are UNIMPL unless admitted
(41_muldiv R262, R263). -/
def Instr.record (admitted : Bool) (i : Instr) : Record :=
  let raw := encode i
  match i with
  | .add rd rs rt => .rr .add rd rs rt raw
  | .addu rd rs rt => .rr .add rd rs rt raw
  | .sub rd rs rt => .rr .sub rd rs rt raw
  | .subu rd rs rt => .rr .sub rd rs rt raw
  | .and rd rs rt => .rr .and rd rs rt raw
  | .or rd rs rt => .rr .or rd rs rt raw
  | .xor rd rs rt => .rr .xor rd rs rt raw
  | .nor rd rs rt => .rr .nor rd rs rt raw
  | .slt rd rs rt => .rr .slt rd rs rt raw
  | .sltu rd rs rt => .rr .sltu rd rs rt raw
  | .addi rt rs imm => .ri .add rt rs (sext16 imm) raw
  | .addiu rt rs imm => .ri .add rt rs (sext16 imm) raw
  | .slti rt rs imm => .ri .slt rt rs (sext16 imm) raw
  | .sltiu rt rs imm => .ri .sltu rt rs (sext16 imm) raw
  | .andi rt rs imm => .ri .and rt rs (zext16 imm) raw
  | .ori rt rs imm => .ri .or rt rs (zext16 imm) raw
  | .xori rt rs imm => .ri .xor rt rs (zext16 imm) raw
  | .lui rt imm => .ii .sll rt (zext16 imm) 16 raw
  | .sll rd rt sa => .ri .sll rd rt (zext5 sa) raw
  | .srl rd rt sa => .ri .srl rd rt (zext5 sa) raw
  | .rotr rd rt sa => .ri .ror rd rt (zext5 sa) raw
  | .sra rd rt sa => .ri .sra rd rt (zext5 sa) raw
  | .sllv rd rt rs => .rr .sll rd rt rs raw
  | .srlv rd rt rs => .rr .srl rd rt rs raw
  | .rotrv rd rt rs => .rr .ror rd rt rs raw
  | .srav rd rt rs => .rr .sra rd rt rs raw
  | .clz rd rs _ => .ri .clz rd rs 0 raw
  | .clo rd rs _ => .ri .clo rd rs 0 raw
  | .mfhi rd => { opcode := .add, a := rd, b := 33, c := 0, immB := false, immC := true, raw := some raw }
  | .mflo rd => { opcode := .add, a := rd, b := 32, c := 0, immB := false, immC := true, raw := some raw }
  | .mthi rs => if admitted then .ri .mthi hiIndex rs 0 raw else .unimpl raw
  | .mtlo rs => if admitted then .ri .mtlo loIndex rs 0 raw else .unimpl raw
  | .sync _ => .rr .add 0 0 0 raw
  | .pref _ _ _ => .rr .add 0 0 0 raw
  | .synci _ _ => .rr .add 0 0 0 raw
  | .mul rd rs rt => .rr .mul rd rs rt raw
  | .mult rs rt => .rr .mult loIndex rs rt raw
  | .multu rs rt => .rr .multu loIndex rs rt raw
  | .div rs rt => .rr .div loIndex rs rt raw
  | .divu rs rt => .rr .divu loIndex rs rt raw
  | .madd rs rt => .rr .madd loIndex rs rt raw
  | .maddu rs rt => .rr .maddu loIndex rs rt raw
  | .msub rs rt => .rr .msub loIndex rs rt raw
  | .msubu rs rt => .rr .msubu loIndex rs rt raw
  | .lb rt base off => .ri .lb rt base (sext16 off) raw
  | .lh rt base off => .ri .lh rt base (sext16 off) raw
  | .lwl rt base off => .ri .lwl rt base (sext16 off) raw
  | .lw rt base off => .ri .lw rt base (sext16 off) raw
  | .lbu rt base off => .ri .lbu rt base (sext16 off) raw
  | .lhu rt base off => .ri .lhu rt base (sext16 off) raw
  | .lwr rt base off => .ri .lwr rt base (sext16 off) raw
  | .sb rt base off => .ri .sb rt base (sext16 off) raw
  | .sh rt base off => .ri .sh rt base (sext16 off) raw
  | .swl rt base off => .ri .swl rt base (sext16 off) raw
  | .sw rt base off => .ri .sw rt base (sext16 off) raw
  | .swr rt base off => .ri .swr rt base (sext16 off) raw
  | .ll rt base off => .ri .ll rt base (sext16 off) raw
  | .sc rt base off => .ri .sc rt base (sext16 off) raw
  | .beq rs rt off => .ri .beq rs rt (branchOffset off) raw
  | .bne rs rt off => .ri .bne rs rt (branchOffset off) raw
  | .blez rs off => .ri .blez rs 0 (branchOffset off) raw
  | .bgtz rs off => .ri .bgtz rs 0 (branchOffset off) raw
  | .bltz rs off => .ri .bltz rs 0 (branchOffset off) raw
  | .bgez rs off => .ri .bgez rs 0 (branchOffset off) raw
  | .j index => .ii .jumpi 0 (jumpIndex index) 0 raw
  | .jal index => .ii .jumpi 31 (jumpIndex index) 0 raw
  | .jr rs => .ri .jump 0 rs 0 raw
  | .jalr rd rs => .ri .jump rd rs 0 raw
  | .bal off => .ii .jumpDirect 31 (branchOffset off) 0 raw
  | .movz rd rs rt => .rr .meq rd rs rt raw
  | .movn rd rs rt => .rr .mne rd rs rt raw
  | .seb rd rt => .ri .sext rd rt 0 raw
  | .seh rd rt => .ri .sext rd rt 1 raw
  | .wsbh rd rt => .ri .wsbh rd rt 0 raw
  | .ext rt rs msbd lsb => .ri .ext rt rs (fieldBounds msbd lsb) raw
  | .ins rt rs msb lsb => .ri .ins rt rs (fieldBounds msb lsb) raw
  | .teq rs rt _ => .ri .teq rs rt 0 raw
  | .syscall _ => .rr .syscall 2 4 5 raw
  | .brk _ => .rr .brk 0 0 0 raw

/-- The record a word decodes to (R128, R130). -/
def decodeRecord (admitted : Bool) (w : Word) : Record :=
  match decode w with
  | .instr i => i.record admitted
  | .unimpl raw => .unimpl raw

/-! ### The opcode table as data -/

/-- A row of spec/opcode_table.json: a word with `w &&& mask = pattern` selects the mnemonic. -/
structure OpcodeRow where
  mnemonic : String
  mask : Word
  pattern : Word
  deriving DecidableEq, Repr

/-- Rows ADD to SRAV of spec/opcode_table.json. -/
def opcodeRowsAlu : List OpcodeRow :=
  [ ⟨"ADD", 0xFC0007FF, 0x00000020⟩,
    ⟨"ADDU", 0xFC0007FF, 0x00000021⟩,
    ⟨"SUB", 0xFC0007FF, 0x00000022⟩,
    ⟨"SUBU", 0xFC0007FF, 0x00000023⟩,
    ⟨"AND", 0xFC0007FF, 0x00000024⟩,
    ⟨"OR", 0xFC0007FF, 0x00000025⟩,
    ⟨"XOR", 0xFC0007FF, 0x00000026⟩,
    ⟨"NOR", 0xFC0007FF, 0x00000027⟩,
    ⟨"SLT", 0xFC0007FF, 0x0000002A⟩,
    ⟨"SLTU", 0xFC0007FF, 0x0000002B⟩,
    ⟨"ADDI", 0xFC000000, 0x20000000⟩,
    ⟨"ADDIU", 0xFC000000, 0x24000000⟩,
    ⟨"SLTI", 0xFC000000, 0x28000000⟩,
    ⟨"SLTIU", 0xFC000000, 0x2C000000⟩,
    ⟨"ANDI", 0xFC000000, 0x30000000⟩,
    ⟨"ORI", 0xFC000000, 0x34000000⟩,
    ⟨"XORI", 0xFC000000, 0x38000000⟩,
    ⟨"LUI", 0xFFE00000, 0x3C000000⟩,
    ⟨"SLL", 0xFFE0003F, 0x00000000⟩,
    ⟨"SRL", 0xFFE0003F, 0x00000002⟩,
    ⟨"ROTR", 0xFFE0003F, 0x00200002⟩,
    ⟨"SRA", 0xFFE0003F, 0x00000003⟩,
    ⟨"SLLV", 0xFC0007FF, 0x00000004⟩,
    ⟨"SRLV", 0xFC0007FF, 0x00000006⟩,
    ⟨"ROTRV", 0xFC0007FF, 0x00000046⟩,
    ⟨"SRAV", 0xFC0007FF, 0x00000007⟩ ]

/-- Rows CLZ to MSUB of spec/opcode_table.json. -/
def opcodeRowsCount : List OpcodeRow :=
  [ ⟨"CLZ", 0xFC0007FF, 0x70000020⟩,
    ⟨"CLO", 0xFC0007FF, 0x70000021⟩,
    ⟨"MFHI", 0xFFFF07FF, 0x00000010⟩,
    ⟨"MFLO", 0xFFFF07FF, 0x00000012⟩,
    ⟨"MTHI", 0xFC1FFFFF, 0x00000011⟩,
    ⟨"MTLO", 0xFC1FFFFF, 0x00000013⟩,
    ⟨"SYNC", 0xFFFFF83F, 0x0000000F⟩,
    ⟨"PREF", 0xFC000000, 0xCC000000⟩,
    ⟨"SYNCI", 0xFC1F0000, 0x041F0000⟩,
    ⟨"MUL", 0xFC0007FF, 0x70000002⟩,
    ⟨"MULT", 0xFC00FFFF, 0x00000018⟩,
    ⟨"MULTU", 0xFC00FFFF, 0x00000019⟩,
    ⟨"DIV", 0xFC00FFFF, 0x0000001A⟩,
    ⟨"DIVU", 0xFC00FFFF, 0x0000001B⟩,
    ⟨"MADD", 0xFC00FFFF, 0x70000000⟩,
    ⟨"MADDU", 0xFC00FFFF, 0x70000001⟩,
    ⟨"MSUB", 0xFC00FFFF, 0x70000004⟩ ]

/-- Rows MSUBU to LL of spec/opcode_table.json. -/
def opcodeRowsMemory : List OpcodeRow :=
  [ ⟨"MSUBU", 0xFC00FFFF, 0x70000005⟩,
    ⟨"LB", 0xFC000000, 0x80000000⟩,
    ⟨"LH", 0xFC000000, 0x84000000⟩,
    ⟨"LWL", 0xFC000000, 0x88000000⟩,
    ⟨"LW", 0xFC000000, 0x8C000000⟩,
    ⟨"LBU", 0xFC000000, 0x90000000⟩,
    ⟨"LHU", 0xFC000000, 0x94000000⟩,
    ⟨"LWR", 0xFC000000, 0x98000000⟩,
    ⟨"SB", 0xFC000000, 0xA0000000⟩,
    ⟨"SH", 0xFC000000, 0xA4000000⟩,
    ⟨"SWL", 0xFC000000, 0xA8000000⟩,
    ⟨"SW", 0xFC000000, 0xAC000000⟩,
    ⟨"SWR", 0xFC000000, 0xB8000000⟩,
    ⟨"LL", 0xFC000000, 0xC0000000⟩ ]

/-- Rows SC to BREAK of spec/opcode_table.json. -/
def opcodeRowsControl : List OpcodeRow :=
  [ ⟨"SC", 0xFC000000, 0xE0000000⟩,
    ⟨"BEQ", 0xFC000000, 0x10000000⟩,
    ⟨"BNE", 0xFC000000, 0x14000000⟩,
    ⟨"BLEZ", 0xFC1F0000, 0x18000000⟩,
    ⟨"BGTZ", 0xFC1F0000, 0x1C000000⟩,
    ⟨"BLTZ", 0xFC1F0000, 0x04000000⟩,
    ⟨"BGEZ", 0xFC1F0000, 0x04010000⟩,
    ⟨"J", 0xFC000000, 0x08000000⟩,
    ⟨"JAL", 0xFC000000, 0x0C000000⟩,
    ⟨"JR", 0xFC1FFFFF, 0x00000008⟩,
    ⟨"JALR", 0xFC1F07FF, 0x00000009⟩,
    ⟨"BAL", 0xFFFF0000, 0x04110000⟩,
    ⟨"MOVZ", 0xFC0007FF, 0x0000000A⟩,
    ⟨"MOVN", 0xFC0007FF, 0x0000000B⟩,
    ⟨"SEB", 0xFFE007FF, 0x7C000420⟩,
    ⟨"SEH", 0xFFE007FF, 0x7C000620⟩,
    ⟨"WSBH", 0xFFE007FF, 0x7C0000A0⟩,
    ⟨"EXT", 0xFC00003F, 0x7C000000⟩,
    ⟨"INS", 0xFC00003F, 0x7C000004⟩,
    ⟨"TEQ", 0xFC00003F, 0x00000034⟩,
    ⟨"SYSCALL", 0xFC00003F, 0x0000000C⟩,
    ⟨"BREAK", 0xFC00003F, 0x0000000D⟩ ]

/-- All 79 rows of spec/opcode_table.json, in its order. -/
def opcodeRows : List OpcodeRow :=
  opcodeRowsAlu ++ opcodeRowsCount ++ opcodeRowsMemory ++ opcodeRowsControl

/-- The mask and match value of the table's row for each form. -/
def Instr.row : Instr → OpcodeRow
  | .add _ _ _ => ⟨"ADD", 0xFC0007FF, 0x00000020⟩
  | .addu _ _ _ => ⟨"ADDU", 0xFC0007FF, 0x00000021⟩
  | .sub _ _ _ => ⟨"SUB", 0xFC0007FF, 0x00000022⟩
  | .subu _ _ _ => ⟨"SUBU", 0xFC0007FF, 0x00000023⟩
  | .and _ _ _ => ⟨"AND", 0xFC0007FF, 0x00000024⟩
  | .or _ _ _ => ⟨"OR", 0xFC0007FF, 0x00000025⟩
  | .xor _ _ _ => ⟨"XOR", 0xFC0007FF, 0x00000026⟩
  | .nor _ _ _ => ⟨"NOR", 0xFC0007FF, 0x00000027⟩
  | .slt _ _ _ => ⟨"SLT", 0xFC0007FF, 0x0000002A⟩
  | .sltu _ _ _ => ⟨"SLTU", 0xFC0007FF, 0x0000002B⟩
  | .addi _ _ _ => ⟨"ADDI", 0xFC000000, 0x20000000⟩
  | .addiu _ _ _ => ⟨"ADDIU", 0xFC000000, 0x24000000⟩
  | .slti _ _ _ => ⟨"SLTI", 0xFC000000, 0x28000000⟩
  | .sltiu _ _ _ => ⟨"SLTIU", 0xFC000000, 0x2C000000⟩
  | .andi _ _ _ => ⟨"ANDI", 0xFC000000, 0x30000000⟩
  | .ori _ _ _ => ⟨"ORI", 0xFC000000, 0x34000000⟩
  | .xori _ _ _ => ⟨"XORI", 0xFC000000, 0x38000000⟩
  | .lui _ _ => ⟨"LUI", 0xFFE00000, 0x3C000000⟩
  | .sll _ _ _ => ⟨"SLL", 0xFFE0003F, 0x00000000⟩
  | .srl _ _ _ => ⟨"SRL", 0xFFE0003F, 0x00000002⟩
  | .rotr _ _ _ => ⟨"ROTR", 0xFFE0003F, 0x00200002⟩
  | .sra _ _ _ => ⟨"SRA", 0xFFE0003F, 0x00000003⟩
  | .sllv _ _ _ => ⟨"SLLV", 0xFC0007FF, 0x00000004⟩
  | .srlv _ _ _ => ⟨"SRLV", 0xFC0007FF, 0x00000006⟩
  | .rotrv _ _ _ => ⟨"ROTRV", 0xFC0007FF, 0x00000046⟩
  | .srav _ _ _ => ⟨"SRAV", 0xFC0007FF, 0x00000007⟩
  | .clz _ _ _ => ⟨"CLZ", 0xFC0007FF, 0x70000020⟩
  | .clo _ _ _ => ⟨"CLO", 0xFC0007FF, 0x70000021⟩
  | .mfhi _ => ⟨"MFHI", 0xFFFF07FF, 0x00000010⟩
  | .mflo _ => ⟨"MFLO", 0xFFFF07FF, 0x00000012⟩
  | .mthi _ => ⟨"MTHI", 0xFC1FFFFF, 0x00000011⟩
  | .mtlo _ => ⟨"MTLO", 0xFC1FFFFF, 0x00000013⟩
  | .sync _ => ⟨"SYNC", 0xFFFFF83F, 0x0000000F⟩
  | .pref _ _ _ => ⟨"PREF", 0xFC000000, 0xCC000000⟩
  | .synci _ _ => ⟨"SYNCI", 0xFC1F0000, 0x041F0000⟩
  | .mul _ _ _ => ⟨"MUL", 0xFC0007FF, 0x70000002⟩
  | .mult _ _ => ⟨"MULT", 0xFC00FFFF, 0x00000018⟩
  | .multu _ _ => ⟨"MULTU", 0xFC00FFFF, 0x00000019⟩
  | .div _ _ => ⟨"DIV", 0xFC00FFFF, 0x0000001A⟩
  | .divu _ _ => ⟨"DIVU", 0xFC00FFFF, 0x0000001B⟩
  | .madd _ _ => ⟨"MADD", 0xFC00FFFF, 0x70000000⟩
  | .maddu _ _ => ⟨"MADDU", 0xFC00FFFF, 0x70000001⟩
  | .msub _ _ => ⟨"MSUB", 0xFC00FFFF, 0x70000004⟩
  | .msubu _ _ => ⟨"MSUBU", 0xFC00FFFF, 0x70000005⟩
  | .lb _ _ _ => ⟨"LB", 0xFC000000, 0x80000000⟩
  | .lh _ _ _ => ⟨"LH", 0xFC000000, 0x84000000⟩
  | .lwl _ _ _ => ⟨"LWL", 0xFC000000, 0x88000000⟩
  | .lw _ _ _ => ⟨"LW", 0xFC000000, 0x8C000000⟩
  | .lbu _ _ _ => ⟨"LBU", 0xFC000000, 0x90000000⟩
  | .lhu _ _ _ => ⟨"LHU", 0xFC000000, 0x94000000⟩
  | .lwr _ _ _ => ⟨"LWR", 0xFC000000, 0x98000000⟩
  | .sb _ _ _ => ⟨"SB", 0xFC000000, 0xA0000000⟩
  | .sh _ _ _ => ⟨"SH", 0xFC000000, 0xA4000000⟩
  | .swl _ _ _ => ⟨"SWL", 0xFC000000, 0xA8000000⟩
  | .sw _ _ _ => ⟨"SW", 0xFC000000, 0xAC000000⟩
  | .swr _ _ _ => ⟨"SWR", 0xFC000000, 0xB8000000⟩
  | .ll _ _ _ => ⟨"LL", 0xFC000000, 0xC0000000⟩
  | .sc _ _ _ => ⟨"SC", 0xFC000000, 0xE0000000⟩
  | .beq _ _ _ => ⟨"BEQ", 0xFC000000, 0x10000000⟩
  | .bne _ _ _ => ⟨"BNE", 0xFC000000, 0x14000000⟩
  | .blez _ _ => ⟨"BLEZ", 0xFC1F0000, 0x18000000⟩
  | .bgtz _ _ => ⟨"BGTZ", 0xFC1F0000, 0x1C000000⟩
  | .bltz _ _ => ⟨"BLTZ", 0xFC1F0000, 0x04000000⟩
  | .bgez _ _ => ⟨"BGEZ", 0xFC1F0000, 0x04010000⟩
  | .j _ => ⟨"J", 0xFC000000, 0x08000000⟩
  | .jal _ => ⟨"JAL", 0xFC000000, 0x0C000000⟩
  | .jr _ => ⟨"JR", 0xFC1FFFFF, 0x00000008⟩
  | .jalr _ _ => ⟨"JALR", 0xFC1F07FF, 0x00000009⟩
  | .bal _ => ⟨"BAL", 0xFFFF0000, 0x04110000⟩
  | .movz _ _ _ => ⟨"MOVZ", 0xFC0007FF, 0x0000000A⟩
  | .movn _ _ _ => ⟨"MOVN", 0xFC0007FF, 0x0000000B⟩
  | .seb _ _ => ⟨"SEB", 0xFFE007FF, 0x7C000420⟩
  | .seh _ _ => ⟨"SEH", 0xFFE007FF, 0x7C000620⟩
  | .wsbh _ _ => ⟨"WSBH", 0xFFE007FF, 0x7C0000A0⟩
  | .ext _ _ _ _ => ⟨"EXT", 0xFC00003F, 0x7C000000⟩
  | .ins _ _ _ _ => ⟨"INS", 0xFC00003F, 0x7C000004⟩
  | .teq _ _ _ => ⟨"TEQ", 0xFC00003F, 0x00000034⟩
  | .syscall _ => ⟨"SYSCALL", 0xFC00003F, 0x0000000C⟩
  | .brk _ => ⟨"BREAK", 0xFC00003F, 0x0000000D⟩

end Sys2Proof
end

