-- ==== Sys2Proof/Config.lean ====
section
/-! DEFINITION. The parameters and configuration of the engine (00_scope R9, R10), held in a `Params` record that
State carries and no step changes, and the one free value of the model. -/

namespace Sys2Proof

/-- The executor mode (10_state R45, R49): events are emitted in Trace mode only (20_memory R95). -/
inductive Mode where
  | simple | checkpoint | trace
  deriving DecidableEq, Repr

/-- `LOW_ADDRESS_POLICY` (00_scope R10, 20_memory R73); `aliased` is the value the spec calls `alias`. -/
inductive LowAddressPolicy where
  | fault | aliased
  deriving DecidableEq, Repr

/-- `JUMPI_HIGH_SEGMENT` (00_scope R10, 44_jump R341). -/
inductive JumpiHighSegment where
  | refuse | mips32
  deriving DecidableEq, Repr

/-- A MemoryAccessPosition (00_scope R18, 20_memory R85). -/
inductive Position where
  | memory | c | b | a | hi
  deriving DecidableEq, Repr

/-- `POS_OFFSET`: the timestamp offset of each position, an injective map into 0 to 4 (00_scope R10, 20_memory R84). -/
structure PosOffset where
  memory : Fin 5
  c : Fin 5
  b : Fin 5
  a : Fin 5
  hi : Fin 5
  injective : [memory, c, b, a, hi].Nodup
  deriving DecidableEq, Repr

/-- The offset of one position. -/
def PosOffset.at (p : PosOffset) : Position → Fin 5
  | .memory => p.memory
  | .c => p.c
  | .b => p.b
  | .a => p.a
  | .hi => p.hi

/-- The syscalls the spec names (46_system R382, R383); a precompile is any of the cryptographic ones. -/
inductive SyscallName where
  | halt | write | read | commit | commitDeferredProofs | hint | verifyZkmProof
  | enterUnconstrained | exitUnconstrained | precompile
  deriving DecidableEq, Repr

/-- The parameters and configuration knobs the engine reads (00_scope R9, R10; 10_state R56, R57). -/
structure Params where
  lowAddressPolicy : LowAddressPolicy
  jumpiHighSegment : JumpiHighSegment
  /-- `ADMIT_MTHI_MTLO` (41_muldiv R262). -/
  admitMthiMtlo : Bool
  posOffset : PosOffset
  initialShard : Word
  /-- `SYSCALL_CODES` (46_system R382): which name stands for which code; several codes may be precompiles. -/
  syscallCodes : List (SyscallName × Word)
  shardSize : Word
  maxSyscallCycles : Word
  /-- `max_cycles`, where it is configured (10_state R56). -/
  maxCycles : Option (BitVec 64)
  deriving DecidableEq, Repr

/-- The defaults of 00_scope R10; the knobs that have none are the choices of assumption log 2 and 4. -/
def Params.default : Params where
  lowAddressPolicy := .fault
  jumpiHighSegment := .refuse
  admitMthiMtlo := false
  posOffset := { memory := 0, c := 1, b := 2, a := 3, hi := 4, injective := by decide }
  initialShard := 1
  syscallCodes := []
  shardSize := 0xFFFFFFFF
  maxSyscallCycles := 0
  maxCycles := none

/-- The free value of assumption log 6: the `n`-th access a syscall handler makes has its timestamp somewhere in the
five of its cycle's window; the spec gives no further detail (46_system R381 (b)). Nothing constrains it. -/
opaque Config.hostAccessOffset : Nat → Fin 5

end Sys2Proof
end

