-- ==== Sys2Proof/Machine/State.lean ====
section
/-! DEFINITION. The state of the engine as plain data (10_state R30-R49, 20_memory R80-R102), the reasons a run
stops (60_exceptions R400, R415), and the state right after reset (10_state R60). -/

namespace Sys2Proof.Machine

/-! ### Access records (20_memory section 2) -/

/-- The MemoryRecord of a cell (R80). -/
structure MemoryRecord where
  value : Word
  shard : Word
  timestamp : Word
  deriving DecidableEq, Repr

/-- A MemoryReadRecord (R82). -/
structure ReadRecord where
  value : Word
  shard : Word
  timestamp : Word
  prevShard : Word
  prevTimestamp : Word
  deriving DecidableEq, Repr

/-- A MemoryWriteRecord (R83). -/
structure WriteRecord where
  value : Word
  shard : Word
  timestamp : Word
  prevValue : Word
  prevShard : Word
  prevTimestamp : Word
  deriving DecidableEq, Repr

/-- What one position of a cycle holds: a read or a write record (R88). -/
inductive Access where
  | read (r : ReadRecord)
  | write (r : WriteRecord)
  deriving DecidableEq, Repr

/-- The value read or written. -/
def Access.value : Access → Word
  | .read r => r.value
  | .write r => r.value

/-- The value the cell held before the access: of a read it is the value read. -/
def Access.prevValue : Access → Word
  | .read r => r.value
  | .write r => r.prevValue

/-- A MemoryAccessRecord: one optional slot per position (R88). -/
structure Accesses where
  memory : Option Access
  c : Option Access
  b : Option Access
  a : Option Access
  hi : Option Access
  deriving DecidableEq, Repr

/-- No access yet. -/
def Accesses.none : Accesses :=
  { memory := .none, c := .none, b := .none, a := .none, hi := .none }

/-- What is kept of a touched cell beside its value: the shard and timestamp of its MemoryRecord (R80), and the value
its first touch seeded (R77), which the finalize event of R93 reports. -/
structure Touch where
  seed : Word
  shard : Word
  timestamp : Word
  deriving DecidableEq, Repr

/-- The first and last record of a key in the current shard (R90), also the payload of a MemoryLocalEvent (R91). -/
structure LocalAccess where
  initial : MemoryRecord
  final : MemoryRecord
  deriving DecidableEq, Repr

/-! ### Events (20_memory section 3) -/

/-- A CpuEvent (R95). -/
structure CpuEvent where
  clk : Word
  pc : Word
  nextPc : Word
  nextNextPc : Word
  a : Word
  b : Word
  c : Word
  hi : Option Word
  accesses : Accesses
  exitCode : Word
  deriving DecidableEq, Repr

/-- The family event of a cycle (R96 to R101). Field order and the place of the overflow indication are the
model's (assumption log 7). -/
inductive FamilyEvent where
  /-- AluEvent, R96. -/
  | alu (pc nextPc : Word) (op : Opcode) (hi a b c : Word)
  /-- CompAluEvent, R97, with the overflow indication of a signed DIV. -/
  | compAlu (pc nextPc : Word) (op : Opcode) (hi a b c clk shard : Word) (hiRecord : Option Access) (overflow : Bool)
  /-- MemInstrEvent, R98. -/
  | memInstr (pc nextPc : Word) (op : Opcode) (a b c : Word) (accesses : Accesses)
  /-- BranchEvent, R99. -/
  | branch (pc nextPc nextNextPc : Word) (op : Opcode) (a b c : Word)
  /-- JumpEvent, R99. -/
  | jump (pc nextPc nextNextPc : Word) (op : Opcode) (a b c : Word)
  /-- MiscEvent, R100, with the previous A. -/
  | misc (pc nextPc : Word) (op : Opcode) (a b c prevA : Word)
  /-- SyscallEvent, R101. -/
  | syscall (pc nextPc shard clk : Word) (aRecord : Option Access) (syscallId arg1 arg2 : Word)
  /-- The opaque PrecompileEvent of a precompile syscall, R101; the model keeps only which syscall it was. -/
  | precompile (syscallId : Word)
  deriving DecidableEq, Repr

/-- What a shard boundary hands out: the shard's events and its MemoryLocalEvents (10_state R57, 20_memory R91). -/
structure ShardRecord where
  shard : Word
  cpuEvents : List CpuEvent
  familyEvents : List FamilyEvent
  localEvents : List (Nat × LocalAccess)
  deriving DecidableEq, Repr

/-! ### The syscall port (46_system R381) -/

/-- The fault kinds a response may carry (R381 (f)). -/
inductive HostFault where
  | invalidSyscallUsage | unimplemented | endInUnconstrained
  deriving DecidableEq, Repr

/-- One word access a handler makes through its context (20_memory R78, R381 (b)): a read changes no value. -/
inductive HostAccess where
  | read (key : Word)
  | write (key value : Word)
  deriving DecidableEq, Repr

/-- One HOST response, parts (a) to (f) of R381; `accesses` are the handler's accesses in order, part (b)'s writes and the
reads between them. -/
structure Response where
  ret : Option Word
  accesses : List HostAccess
  extra : Word
  halt : Option Word
  jump : Option (Word × Word)
  fault : Option HostFault
  deriving DecidableEq, Repr

/-- Part (b): the writes, in order. -/
def Response.writes (r : Response) : List (Word × Word) :=
  r.accesses.filterMap fun e => match e with
    | .read _ => none
    | .write k v => some (k, v)

/-- The keys the handler reads, in order. -/
def Response.reads (r : Response) : List Word :=
  r.accesses.filterMap fun e => match e with
    | .read k => some k
    | .write _ _ => none

/-- A response that changes nothing. -/
def Response.empty : Response :=
  { ret := none, accesses := [], extra := 0, halt := none, jump := none, fault := none }

/-! ### State -/

/-- The state of the engine. `next_next_pc` is not here: it exists only during a cycle (10_state R38). -/
structure State where
  /-- The parameters and configuration, constant during a run (00_scope R9, R10). -/
  params : Params
  /-- The immutable program (10_state R46). -/
  program : List Slot
  /-- The byte address of the program's first instruction (00_scope R8). -/
  pcBase : Word
  /-- The 34-entry register file: 0 to 31, LO at 32, HI at 33 (10_state R30, R32). -/
  regs : Vector Word 34
  /-- Data memory, byte by byte, in canonical form; an unlisted byte reads 0 (20_memory R70, R71, R77). -/
  mem : List Host.Cell
  /-- The address of the instruction executing (10_state R36). -/
  pc : Word
  /-- `next_pc`, the address of the instruction after it (10_state R37). -/
  npc : Word
  /-- Whether the next instruction sits in a delay slot (10_state R39). -/
  nextIsDelayslot : Bool
  /-- The shard-local timestamp counter (10_state R40). -/
  clk : Word
  /-- The monotone cycle counter (10_state R41). -/
  globalClk : BitVec 64
  /-- The shard the cycle belongs to (10_state R42). -/
  currentShard : Word
  /-- Set by HALT with exit code 0 (10_state R43). -/
  exited : Bool
  /-- The exit code (10_state R43). -/
  exitCode : Word
  /-- The executor mode, changed only between cycles by the host (10_state R45, R49). -/
  mode : Mode
  /-- Shard, timestamp and seed of every touched key, keys strictly rising (20_memory R77, R80). -/
  touched : List (Nat × Touch)
  /-- The `local_memory_access` map of the current shard, keys strictly rising (20_memory R90). -/
  localAccess : List (Nat × LocalAccess)
  /-- The `local_mem` counter (20_memory R89). -/
  localMem : Nat
  /-- How often each decoded opcode was executed, keyed by its place in `Opcode` (10_state R48). -/
  opcodeCounts : List (Nat × Nat)
  /-- The CpuEvents of the current shard, oldest first (20_memory R95, R102). -/
  cpuEvents : List CpuEvent
  /-- The family events of the current shard, oldest first (20_memory R96 to R102). -/
  familyEvents : List FamilyEvent
  /-- The records of the shards closed so far, oldest first (20_memory R91). -/
  outgoing : List ShardRecord
  /-- The answers the syscall port will give, each under its code; `HOST` is defined at a code while an answer for
  it is left (46_system R381; assumption log 4). -/
  hostAnswers : List (Word × Response)
  /-- `SHARD_ORACLE`: the boundary choices of the coming cycles; none left means no optional boundary (10_state R57;
  assumption log 5). -/
  shardOracle : List Bool
  /-- The model's own: how many free timestamp offsets have been drawn (assumption log 6). -/
  draws : Nat
  deriving DecidableEq, Repr

/-! ### How a run stops -/

/-- The fault kinds, all fatal (60_exceptions R400, R401). The reported state is the state before the faulting
cycle, which is the state the step was taken from, except where a payload carries it (R402). -/
inductive Fault where
  /-- Raised by a SYSCALL whose response halts with a nonzero code (46_system R380, R382). The spec's own outcome: safe. -/
  | haltWithNonZeroExitCode (code : Word)
  /-- Raised by a load or store with `WA(EA) ≤ 32` under `LOW_ADDRESS_POLICY = fault` (20_memory R73, 42_loadstore
  R280). Safe: a release engine goes on where this stops. -/
  | invalidMemoryAccess (op : Opcode) (addr : Word)
  /-- Raised by a SYSCALL whose code no answer is left for (46_system R380). Safe: it stops where a handler may go on. -/
  | unsupportedSyscall (id : Word)
  /-- Raised by UNIMPL, and by MTHI and MTLO while they are not admitted (46_system R385, 41_muldiv R262, R263).
  Safe: it stops where an engine that decodes the word goes on. -/
  | unsupportedInstruction (raw : Word)
  /-- Raised by BREAK (46_system R384). The spec's own outcome: safe. -/
  | breakpoint
  /-- Raised after a completed cycle that reached `max_cycles` (10_state R56); `reported` is the state after that
  cycle, whose effects stand (60_exceptions R402). The spec's own outcome: safe. -/
  | exceededCycleLimit (max : BitVec 64) (reported : State)
  /-- Carried by a HOST response (46_system R381 (f), R383); the payload is the syscall's code. Safe. -/
  | invalidSyscallUsage (id : Word)
  /-- Carried by a HOST response (46_system R381 (f), R386). Safe. -/
  | unimplemented
  /-- Carried by a HOST response (46_system R381 (f), R383). Safe. -/
  | endInUnconstrained
  /-- Raised by TEQ with equal operands (45_misc R367); the payload is its pc. The spec's own outcome: safe. -/
  | trap (pc : Word)
  deriving DecidableEq, Repr

/-- The numeric code of each kind (60_exceptions R400). -/
def Fault.code : Fault → Nat
  | .haltWithNonZeroExitCode _ => 1
  | .invalidMemoryAccess _ _ => 2
  | .unsupportedSyscall _ => 3
  | .unsupportedInstruction _ => 4
  | .breakpoint => 5
  | .exceededCycleLimit _ _ => 6
  | .invalidSyscallUsage _ => 7
  | .unimplemented => 8
  | .endInUnconstrained => 9
  | .trap _ => 10

/-- The refusals (60_exceptions R415): the spec gives the instruction or state no meaning. All of them are safe: the
engine gives each some behaviour, and the model proves nothing about it. -/
inductive Refusal where
  /-- An instruction of the table without a meaning yet; no arm of `exec` is one. Safe. -/
  | notModelled (mnemonic : String)
  /-- Raised by fetch at a pc inside the program that is no multiple of 4 from its base (10_state R53). Safe. -/
  | misalignedFetch
  /-- Raised by J and JAL with `npc[31:28] ≠ 0` under `JUMPI_HIGH_SEGMENT = refuse` (44_jump R341, R342). Safe. -/
  | jumpiHighSegment
  /-- Raised by EXT with `lsb + msbd > 31` (45_misc R365). Safe. -/
  | unpredictableExt
  /-- Raised by INS with `msb < lsb` (45_misc R366). Safe. -/
  | unpredictableIns
  /-- Raised by a decoded record no word produces (60_exceptions R415; assumption log 13). Safe. -/
  | malformedDecoded
  /-- Raised by a HOST response that writes a key below 36 or no multiple of 4 (46_system R381 (b)). Safe. -/
  | hostWritesRegisters
  /-- Raised by a HOST response whose handler reads a key that is no cell of the store (20_memory R70, 46_system R381;
  a response outside R381 is refused, 93_implementation_defined row 18; assumption log 4). Safe. -/
  | hostReadsNoCell
  /-- Raised by a HOST response with `extra > max_syscall_cycles` (46_system R381 (c)). Safe. -/
  | hostExtraTooLarge
  /-- Raised by a launch that violates a premise of 00_scope R8 (70_reset_and_hazards R440). Safe. -/
  | launchPremise
  deriving DecidableEq, Repr

/-- The machine right after reset (10_state R60): the values the spec gives, the parameters' defaults, the empty image
(so every register is 0), and, for the launch parameters that have no default, the choices of assumption log 1 and
2: the empty program at 0x00400000, Trace mode. -/
def State.reset : State where
  params := .default
  program := []
  pcBase := 0x00400000
  regs := .replicate 34 0
  mem := []
  pc := 0x00400000
  npc := 0x00400004
  nextIsDelayslot := false
  clk := 0
  globalClk := 0
  currentShard := 1
  exited := false
  exitCode := 0
  mode := .trace
  touched := []
  localAccess := []
  localMem := 0
  opcodeCounts := []
  cpuEvents := []
  familyEvents := []
  outgoing := []
  hostAnswers := []
  shardOracle := []
  draws := 0

end Sys2Proof.Machine
end

