-- ==== Sys2Proof/Machine/Memory.lean ====
section
/-! DEFINITION. Sorted maps with natural-number keys, and byte memory in canonical form over them: reading and writing a
byte, and the little-endian word at a key (20_memory R70, R71). -/

namespace Sys2Proof.Machine

/-! ### Sorted maps -/

/-- The value at a key. -/
def Assoc.get {α : Type} : List (Nat × α) → Nat → Option α
  | [], _ => none
  | (k', v) :: r, k => if k = k' then some v else Assoc.get r k

/-- Set the value at a key, keeping the keys rising. -/
def Assoc.put {α : Type} : List (Nat × α) → Nat → α → List (Nat × α)
  | [], k, v => [(k, v)]
  | (k', v') :: r, k, v =>
    if k < k' then (k, v) :: (k', v') :: r
    else if k = k' then (k, v) :: r
    else (k', v') :: Assoc.put r k v

/-- Remove a key. -/
def Assoc.erase {α : Type} (m : List (Nat × α)) (k : Nat) : List (Nat × α) :=
  m.filter (fun e => e.1 ≠ k)

/-- The keys rise strictly. -/
abbrev Assoc.sorted {α : Type} (m : List (Nat × α)) : Prop :=
  m.Pairwise (fun x y => x.1 < y.1)

/-! ### Byte memory -/

/-- What an unlisted byte reads as: 0, since a cell nothing has written holds its image value or 0, and the launch
lists the image's bytes (20_memory R77; 70_reset_and_hazards R442). -/
def Memory.unlisted : Byte := 0

/-- Data lies at the 32-bit addresses from 36 on: the keys below are register cells (20_memory R70, R73). -/
abbrev Memory.dataAddress (a : Nat) : Prop := 36 ≤ a ∧ a < 2 ^ 32

/-- The canonical form: addresses strictly rising, each a data address, none listed with what an unlisted one reads. -/
abbrev Memory.wf (m : List Host.Cell) : Prop :=
  Assoc.sorted m ∧ ∀ c ∈ m, Memory.dataAddress c.1 ∧ c.2 ≠ Memory.unlisted

/-- Read one byte. -/
def Memory.byte (m : List Host.Cell) (a : Nat) : Byte :=
  (Assoc.get m a).getD Memory.unlisted

/-- Write one byte, keeping the canonical form. -/
def Memory.setByte (m : List Host.Cell) (a : Nat) (v : Byte) : List Host.Cell :=
  if v = Memory.unlisted then Assoc.erase m a else Assoc.put m a v

/-- Byte `i` of a word, byte 0 the least significant (20_memory R71). -/
def byteOf (v : Word) (i : Nat) : Byte := v.extractLsb' (8 * i) 8

/-- The word at key `k`: byte address `k + i` is byte `i` of it (20_memory R71). -/
def Memory.word (m : List Host.Cell) (k : Nat) : Word :=
  Memory.byte m (k + 3) ++ Memory.byte m (k + 2) ++ Memory.byte m (k + 1) ++ Memory.byte m k

/-- Write the word at key `k`. -/
def Memory.setWord (m : List Host.Cell) (k : Nat) (v : Word) : List Host.Cell :=
  Memory.setByte (Memory.setByte (Memory.setByte (Memory.setByte m k (byteOf v 0)) (k + 1) (byteOf v 1))
    (k + 2) (byteOf v 2)) (k + 3) (byteOf v 3)

end Sys2Proof.Machine
end

