-- ==== Sys2Proof/Machine/Operands.lean ====
section
/-! DEFINITION. What the instructions compute from their operands: the ALU functions (40_alu R200), multiply and divide
(41_muldiv), parts of a memory word and the merge masks (42_loadstore), jump targets (44_jump R340), bit fields
(45_misc). Comparisons and conditions are in Flags. -/

namespace Sys2Proof.Machine

/-- An operand of a decoded record: a register or an immediate word (30_encoding R125). -/
inductive Src where
  | reg (k : Nat)
  | imm (v : Word)
  deriving DecidableEq, Repr

/-- Operand b of a record. -/
def srcB (r : Record) : Src := if r.immB then .imm r.b else .reg r.b.toNat
/-- Operand c of a record. -/
def srcC (r : Record) : Src := if r.immC then .imm r.c else .reg r.c.toNat

/-! ### Extension -/

/-- `sext_8` of a byte. -/
def sext8 (v : Byte) : Word := v.signExtend 32
/-- `zext_8` of a byte. -/
def zext8 (v : Byte) : Word := v.setWidth 32

/-! ### Shifts, rotates, counts (R200): only `C[4:0]` counts -/

/-- The shift amount `C & 0x1f`. -/
def shiftAmount (c : Word) : Nat := (c &&& 0x1f#32).toNat
/-- SLL. -/
def shiftLeft (b c : Word) : Word := b <<< shiftAmount c
/-- SRL. -/
def shiftRight (b c : Word) : Word := b >>> shiftAmount c
/-- SRA. -/
def shiftRightArith (b c : Word) : Word := b.sshiftRight (shiftAmount c)
/-- ROR; `B` itself for amount 0. -/
def rotateRight (b c : Word) : Word :=
  let n := shiftAmount c
  if n = 0 then b else (b >>> n) ||| (b <<< (32 - n))
/-- CLZ: leading zero bits, 32 for 0. -/
def countLeadingZeros (b : Word) : Word :=
  if b = 0 then 32 else BitVec.ofNat 32 (31 - Nat.log2 b.toNat)
/-- CLO: leading one bits, which are the leading zero bits of the complement. -/
def countLeadingOnes (b : Word) : Word := countLeadingZeros (~~~b)

/-! ### Multiply and divide: exact on integers, then narrowed (R250 to R261) -/

/-- The low and high words of a 64-bit value, as `(lo, hi)`. -/
def split64 (v : BitVec 64) : Word × Word := (v.extractLsb' 0 32, v.extractLsb' 32 32)
/-- The signed 64-bit product. -/
def signedProduct (b c : Word) : BitVec 64 := BitVec.ofInt 64 (b.toInt * c.toInt)
/-- The unsigned 64-bit product. -/
def unsignedProduct (b c : Word) : BitVec 64 := BitVec.ofNat 64 (b.toNat * c.toNat)
/-- MUL: the low word of the product (R251). -/
def mulLow (b c : Word) : Word := BitVec.ofNat 32 (b.toNat * c.toNat)

/-- The signed quotient and remainder, `(0xFFFFFFFF, B)` for a zero divisor, the overflow case, else rounded toward
zero with the dividend's sign on the remainder (R254). -/
def signedDivide (b c : Word) : Word × Word :=
  if c = 0 then (0xFFFFFFFF, b)
  else if b = 0x80000000 ∧ c = 0xFFFFFFFF then (0x80000000, 0)
  else (BitVec.ofInt 32 (b.toInt.tdiv c.toInt), BitVec.ofInt 32 (b.toInt - b.toInt.tdiv c.toInt * c.toInt))
/-- The unsigned quotient and remainder (R255). -/
def unsignedDivide (b c : Word) : Word × Word :=
  if c = 0 then (0xFFFFFFFF, b)
  else (BitVec.ofNat 32 (b.toNat / c.toNat), BitVec.ofNat 32 (b.toNat % c.toNat))
/-- MOD (R256): the remainder DIV gives. -/
def signedRemainder (b c : Word) : Word := (signedDivide b c).2
/-- MODU (R257). -/
def unsignedRemainder (b c : Word) : Word := (unsignedDivide b c).2

/-! ### Addresses and parts of a memory word (20_memory R71, R72, R76; 42_loadstore) -/

/-- `WA(EA) = EA & 0xFFFFFFFC`, as a key (R72). -/
def wordKey (ea : Word) : Nat := (ea &&& 0xFFFFFFFC#32).toNat
/-- The byte offset `EA[1:0]`. -/
def byteOffset (ea : Word) : Nat := (ea.extractLsb' 0 2).toNat
/-- The halfword selector `EA[1]`. -/
def halfOffset (ea : Word) : Nat := (ea.extractLsb' 1 1).toNat
/-- The byte of `m` at `EA` (R283). -/
def loadedByte (m ea : Word) : Byte := byteOf m (byteOffset ea)
/-- The halfword of `m` at `EA`, `EA[0]` ignored (R285). -/
def loadedHalf (m ea : Word) : BitVec 16 := m.extractLsb' (16 * halfOffset ea) 16
/-- LWL (R288). -/
def mergeLoadLeft (m ea old : Word) : Word :=
  let s := 8 * (3 - byteOffset ea)
  (m <<< s) ||| (old &&& ((1#32 <<< s) - 1))
/-- LWR (R289). -/
def mergeLoadRight (m ea old : Word) : Word :=
  let s := 8 * byteOffset ea
  (m >>> s) ||| (old &&& ~~~(0xFFFFFFFF#32 >>> s))
/-- SB (R291). -/
def mergeByte (m v ea : Word) : Word :=
  let s := 8 * byteOffset ea
  (m &&& ~~~(0xFF#32 <<< s)) ||| ((v &&& 0xFF#32) <<< s)
/-- SH (R292). -/
def mergeHalf (m v ea : Word) : Word :=
  let s := 16 * halfOffset ea
  (m &&& ~~~(0xFFFF#32 <<< s)) ||| ((v &&& 0xFFFF#32) <<< s)
/-- SWL (R294). -/
def mergeStoreLeft (m v ea : Word) : Word :=
  let s := 8 * (3 - byteOffset ea)
  (v >>> s) ||| (m &&& ~~~(0xFFFFFFFF#32 >>> s))
/-- SWR (R295). -/
def mergeStoreRight (m v ea : Word) : Word :=
  let s := 8 * byteOffset ea
  (v <<< s) ||| (m &&& ((1#32 <<< s) - 1))

/-! ### Jump targets (44_jump R340, R341) -/

/-- `(npc & 0xF0000000) | b`. -/
def segmentTarget (npc b : Word) : Word := (npc &&& 0xF0000000#32) ||| b

/-! ### Bit fields and byte swaps (45_misc) -/

/-- `lsb = c & 0x1f` of EXT and INS. -/
def fieldLsb (c : Word) : Nat := (c &&& 0x1f#32).toNat
/-- `msbd = c >> 5` of EXT, `msb = c >> 5` of INS. -/
def fieldMsb (c : Word) : Nat := (c >>> 5).toNat
/-- EXT: bits `[lsb, lsb + msbd]` of `b` (R365). -/
def extractField (b c : Word) : Word :=
  (b >>> fieldLsb c) &&& ((1#32 <<< (fieldMsb c + 1)) - 1)
/-- The mask of INS (R366). -/
def insertMask (c : Word) : Word :=
  ((1#32 <<< (fieldMsb c - fieldLsb c + 1)) - 1) <<< fieldLsb c
/-- INS: bits `[lsb, msb]` of the prior destination replaced (R366). -/
def insertField (b c old : Word) : Word :=
  (old &&& ~~~insertMask c) ||| ((b <<< fieldLsb c) &&& insertMask c)
/-- SEXT: byte for `c = 0`, halfword for `c = 1` (R362, R363). -/
def signExtendPart (b c : Word) : Word :=
  if c = 0 then sext8 (byteOf b 0) else sext16 (b.extractLsb' 0 16)
/-- WSBH: bytes swapped within each halfword (R364). -/
def swapBytesInHalves (b : Word) : Word :=
  byteOf b 2 ++ byteOf b 3 ++ byteOf b 0 ++ byteOf b 1

end Sys2Proof.Machine
end

