-- ==== Sys2Proof/Machine/Flags.lean ====
section
/-! DEFINITION. Comparisons and conditions. The engine has no condition codes or flags (10_state R44): a comparison
writes 1 or 0 to a general register or decides a branch, a conditional move or a trap; the overflow indication of DIV
is a field of an event only (41_muldiv R264). -/

namespace Sys2Proof.Machine

/-- 1 or 0, the result of a set-on-less-than. -/
def boolWord (p : Bool) : Word := if p then 1 else 0
/-- SLT: signed (40_alu R200). -/
def setLessSigned (b c : Word) : Word := boolWord (decide (b.toInt < c.toInt))
/-- SLTU: unsigned (40_alu R200). -/
def setLessUnsigned (b c : Word) : Word := boolWord (decide (b.toNat < c.toNat))

/-- The branch conditions on the values `A` and `B` (43_branch R321 to R326). -/
def condEq (a b : Word) : Bool := decide (a = b)
/-- BNE. -/
def condNe (a b : Word) : Bool := decide (a ≠ b)
/-- BLEZ. -/
def condLez (a _b : Word) : Bool := decide (a.toInt ≤ 0)
/-- BGTZ. -/
def condGtz (a _b : Word) : Bool := decide (0 < a.toInt)
/-- BLTZ. -/
def condLtz (a _b : Word) : Bool := decide (a.toInt < 0)
/-- BGEZ. -/
def condGez (a _b : Word) : Bool := decide (0 ≤ a.toInt)

/-- MEQ: `b` where `c` is zero, else the prior `a` (45_misc R360). -/
def moveIfZero (b c old : Word) : Word := if c = 0 then b else old
/-- MNE: `b` where `c` is not zero, else the prior `a` (45_misc R361). -/
def moveIfNotZero (b c old : Word) : Word := if c ≠ 0 then b else old

/-- The overflow indication of a signed DIV (20_memory R97, 41_muldiv R264). -/
def divOverflow (op : Opcode) (b c : Word) : Bool :=
  decide (op = .div ∧ b = 0x80000000 ∧ c = 0xFFFFFFFF)

end Sys2Proof.Machine
end

