-- ==== Sys2Proof/Machine/Ops.lean ====
section
/-! DEFINITION. The named operations: cells and their records (20_memory R80-R90), the accesses of a cycle and its end
(10_state R50), raising a fault or a refusal (60_exceptions), the shapes of instruction the families share, the syscall
port (46_system R380-R382), Done, fetch, and the cycle-limit and shard checks (10_state R51-R58). -/

namespace Sys2Proof.Machine

/-- What executing an instruction or a cycle answers. -/
abbrev Result := Host.Outcome State Fault Refusal

/-- Go on with `f` where the outcome is a next state; a fault or refusal ends the run (60_exceptions R401, R415). -/
def andThen (r : Result) (f : State → Result) : Result :=
  match r with
  | .next s => f s
  | .fault e => .fault e
  | .refused e => .refused e

/-- Taking a fault. It is fatal: no handler runs, nothing is saved, control goes nowhere, and the cycle's effects
are discarded, so the reported state is the state before the cycle (60_exceptions R401, R402, R404). Nothing returns
from a fault (R405). -/
def raise (e : Fault) : Result := .fault e

/-- Refusing: the spec gives no meaning; the cycle is discarded (60_exceptions R415). -/
def refuse (e : Refusal) : Result := .refused e

/-! ### Cells of the unified store (20_memory R70, 10_state R31, R35) -/

/-- The value of the cell at key `k`: a register below 34 (register 0 reads 0), else the data word. -/
def State.cell (s : State) (k : Nat) : Word :=
  if h : k < 34 then (if k = 0 then 0 else s.regs[k]) else Memory.word s.mem k

/-- The register file with register `k` set; register 0 is forced to 0; a key that is no register changes nothing. -/
def setReg (regs : Vector Word 34) (k : Nat) (v : Word) : Vector Word 34 :=
  if h : k < 34 then regs.set k (if k = 0 then 0 else v) else regs

/-- Data memory with the word at `k` set; a register key changes nothing. -/
def setData (mem : List Host.Cell) (k : Nat) (v : Word) : List Host.Cell :=
  if k < 34 then mem else Memory.setWord mem k v

/-- The state with the cell at key `k` set. -/
def State.setCell (s : State) (k : Nat) (v : Word) : State :=
  { s with regs := setReg s.regs k v, mem := setData s.mem k v }

/-- The value a write of `v` stores at key `k`: 0 at register 0 (10_state R31, 20_memory R86). -/
def storedValue (k : Nat) (v : Word) : Word := if k = 0 then 0 else v

/-- The value of an operand. -/
def State.src (s : State) : Src → Word
  | .reg k => s.cell k
  | .imm v => v

/-! ### Records (20_memory R77, R80 to R90) -/

/-- The MemoryRecord of the cell at `k`; shard and timestamp 0 where it was never touched (R77, R80). -/
def State.record (s : State) (k : Nat) : MemoryRecord :=
  match Assoc.get s.touched k with
  | some t => { value := s.cell k, shard := t.shard, timestamp := t.timestamp }
  | none => { value := s.cell k, shard := 0, timestamp := 0 }

/-- The timestamp of an access at a position: `clk + POS_OFFSET(pos)` (R84). -/
def State.timestamp (s : State) (pos : Position) : Word :=
  s.clk + BitVec.ofNat 32 (s.params.posOffset.at pos).val

/-- Note an access at `k` that replaced the record `old` by `new`: the cell's stamp (R81, R86), the local access map
(R90), and `local_mem`, which counts a key's first touch in the shard and every access of a syscall context (R89). -/
def State.note (s : State) (fromHost : Bool) (k : Nat) (old new : MemoryRecord) : State :=
  { s with
    touched := Assoc.put s.touched k
      { seed := ((Assoc.get s.touched k).map Touch.seed).getD old.value
        shard := new.shard, timestamp := new.timestamp }
    localAccess := Assoc.put s.localAccess k
      { initial := ((Assoc.get s.localAccess k).map LocalAccess.initial).getD old, final := new }
    localMem := if fromHost || (Assoc.get s.localAccess k).isNone then s.localMem + 1 else s.localMem }

/-! ### The accesses of one cycle (R81, R86, R88) -/

/-- Put an access into a position's slot. -/
def Accesses.put (x : Accesses) (pos : Position) (e : Access) : Accesses :=
  match pos with
  | .memory => { x with memory := some e }
  | .c => { x with c := some e }
  | .b => { x with b := some e }
  | .a => { x with a := some e }
  | .hi => { x with hi := some e }

/-- A cycle under way: the state so far and the accesses made. -/
structure Cycle where
  st : State
  acc : Accesses
  deriving DecidableEq, Repr

/-- A cycle begins (10_state R50). -/
def State.begin (s : State) : Cycle := { st := s, acc := .none }

/-- `read(key, pos)` (R81): the value stays, the record becomes this cycle's. -/
def Cycle.read (x : Cycle) (pos : Position) (k : Nat) : Cycle :=
  let old := x.st.record k
  let new : MemoryRecord := { old with shard := x.st.currentShard, timestamp := x.st.timestamp pos }
  { st := x.st.note false k old new
    acc := x.acc.put pos (.read
      { value := new.value, shard := new.shard, timestamp := new.timestamp
        prevShard := old.shard, prevTimestamp := old.timestamp }) }

/-- `write(key, pos, v)` (R86). -/
def Cycle.write (x : Cycle) (pos : Position) (k : Nat) (v : Word) : Cycle :=
  let old := x.st.record k
  let new : MemoryRecord :=
    { value := storedValue k v, shard := x.st.currentShard, timestamp := x.st.timestamp pos }
  { st := (x.st.setCell k v).note false k old new
    acc := x.acc.put pos (.write
      { value := new.value, shard := new.shard, timestamp := new.timestamp
        prevValue := old.value, prevShard := old.shard, prevTimestamp := old.timestamp }) }

/-- Read an operand: an access only if it is a register (40_alu R200). -/
def Cycle.readSrc (x : Cycle) (pos : Position) : Src → Cycle
  | .reg k => x.read pos k
  | .imm _ => x

/-- The timestamp of a handler's access: in the cycle's window, where in it being a free value (assumption log 6). -/
def State.hostTimestamp (s : State) : Word := s.clk + BitVec.ofNat 32 (Config.hostAccessOffset s.draws).val

/-- A read by a syscall handler (20_memory R78, R89; 46_system R381 (b)): no value changes; the access is recorded through
the syscall context with the current shard, in no position of the cycle. -/
def Cycle.hostRead (x : Cycle) (key : Word) : Cycle :=
  let k := key.toNat
  let old := x.st.record k
  let new : MemoryRecord := { old with shard := x.st.currentShard, timestamp := x.st.hostTimestamp }
  { x with st := { x.st.note true k old new with draws := x.st.draws + 1 } }

/-- A write by a syscall handler (46_system R381 (b)), recorded in the same way. -/
def Cycle.hostWrite (x : Cycle) (kv : Word × Word) : Cycle :=
  let k := kv.1.toNat
  let old := x.st.record k
  let new : MemoryRecord :=
    { value := storedValue k kv.2, shard := x.st.currentShard, timestamp := x.st.hostTimestamp }
  { x with st := { (x.st.setCell k kv.2).note true k old new with draws := x.st.draws + 1 } }

/-- One access of a handler. -/
def Cycle.hostAccess (x : Cycle) : HostAccess → Cycle
  | .read k => x.hostRead k
  | .write k v => x.hostWrite (k, v)

/-! ### Events (R95 to R102) -/

/-- The opcodes that set `next_is_delayslot`, taken or not (10_state R39). -/
def isTransfer : Opcode → Bool
  | .beq | .bne | .blez | .bgtz | .bltz | .bgez | .jump | .jumpi | .jumpDirect => true
  | .add | .sub | .and | .or | .xor | .nor | .slt | .sltu | .sll | .srl | .sra | .ror | .clz | .clo
  | .mul | .mod | .modu | .mult | .multu | .div | .divu | .madd | .maddu | .msub | .msubu | .mthi | .mtlo
  | .lb | .lbu | .lh | .lhu | .lw | .lwl | .lwr | .ll | .sb | .sh | .sw | .swl | .swr | .sc
  | .meq | .mne | .sext | .wsbh | .ext | .ins | .teq | .syscall | .brk | .unimpl => false

/-- How a cycle ends: the opcode it executed, the operand values `B` and `C`, its `nnpc`, the extra clock cycles, and the
pc pair of a syscall response that overrides the pc update (10_state R50, R54). -/
structure Retire where
  op : Opcode
  b : Word
  c : Word
  nnpc : Word
  extra : Word := 0
  jump : Option (Word × Word) := none
  deriving DecidableEq, Repr

/-- The value at position A, 0 where there is no A access (R95). -/
def Accesses.aValue (x : Accesses) : Word := (x.a.map Access.value).getD 0
/-- The previous value at position A (R100). -/
def Accesses.aPrev (x : Accesses) : Word := (x.a.map Access.prevValue).getD 0
/-- The value at position HI, 0 where there is none. -/
def Accesses.hiValue (x : Accesses) : Word := (x.hi.map Access.value).getD 0

/-- The CpuEvent of the cycle (R95). -/
def Cycle.cpuEvent (x : Cycle) (r : Retire) : CpuEvent :=
  { clk := x.st.clk, pc := x.st.pc, nextPc := x.st.npc, nextNextPc := r.nnpc
    a := x.acc.aValue, b := r.b, c := r.c, hi := x.acc.hi.map Access.value
    accesses := x.acc, exitCode := x.st.exitCode }

/-- The PrecompileEvent of a SYSCALL whose code names a precompile (R101). -/
def precompileEvents (p : Params) (code : Word) : List FamilyEvent :=
  if p.syscallCodes.contains (.precompile, code) then [.precompile code] else []

/-- The family event of the cycle, with a precompile's event after it (R96 to R101). MTHI and MTLO, which no rule
classifies, give an AluEvent (assumption log 7). -/
def Cycle.familyEvents (x : Cycle) (r : Retire) : List FamilyEvent :=
  let s := x.st
  let a := x.acc.aValue
  match r.op with
  | .add | .sub | .and | .or | .xor | .nor | .slt | .sltu | .sll | .srl | .sra | .ror | .clz | .clo
  | .mul | .mod | .modu | .mthi | .mtlo => [.alu s.pc s.npc r.op 0 a r.b r.c]
  | .mult | .multu | .div | .divu | .madd | .maddu | .msub | .msubu =>
    [.compAlu s.pc s.npc r.op x.acc.hiValue a r.b r.c s.clk s.currentShard x.acc.hi (divOverflow r.op r.b r.c)]
  | .lb | .lbu | .lh | .lhu | .lw | .lwl | .lwr | .ll | .sb | .sh | .sw | .swl | .swr | .sc =>
    [.memInstr s.pc s.npc r.op a r.b r.c x.acc]
  | .beq | .bne | .blez | .bgtz | .bltz | .bgez => [.branch s.pc s.npc r.nnpc r.op a r.b r.c]
  | .jump | .jumpi | .jumpDirect => [.jump s.pc s.npc r.nnpc r.op a r.b r.c]
  | .meq | .mne | .sext | .wsbh | .ext | .ins | .teq => [.misc s.pc s.npc r.op a r.b r.c x.acc.aPrev]
  | .syscall =>
    .syscall s.pc s.npc s.currentShard s.clk x.acc.a x.acc.aPrev r.b r.c :: precompileEvents s.params x.acc.aPrev
  | .brk | .unimpl => []

/-- The per-opcode counter of `op` goes up by one (10_state R48). -/
def countOpcode (counts : List (Nat × Nat)) (op : Opcode) : List (Nat × Nat) :=
  Assoc.put counts op.ctorIdx ((Assoc.get counts op.ctorIdx).getD 0 + 1)

/-- The end of a completed cycle, steps 7 to 9 of 10_state R50 with R39: events in Trace mode, the pc update or the
response's override of it, and the clocks. -/
def Cycle.retire (x : Cycle) (r : Retire) : State :=
  { x.st with
    nextIsDelayslot := isTransfer r.op
    cpuEvents := if x.st.mode = .trace then x.st.cpuEvents ++ [x.cpuEvent r] else x.st.cpuEvents
    familyEvents := if x.st.mode = .trace then x.st.familyEvents ++ x.familyEvents r else x.st.familyEvents
    opcodeCounts := countOpcode x.st.opcodeCounts r.op
    pc := (r.jump.map Prod.fst).getD x.st.npc
    npc := (r.jump.map Prod.snd).getD r.nnpc
    clk := x.st.clk + 5 + r.extra
    globalClk := x.st.globalClk + 1 }

/-! ### The shapes of instruction -/

/-- ALU shape with the prior destination (40_alu R200; 45_misc R360, R361, R366): read c, read b, write `f B C old` to
`a`. -/
def computeOld (op : Opcode) (f : Word → Word → Word → Word) (a : Nat) (b c : Src) (s : State) : Result :=
  let x := (s.begin.readSrc .c c).readSrc .b b
  .next ((x.write .a a (f (s.src b) (s.src c) (s.cell a))).retire
    { op := op, b := s.src b, c := s.src c, nnpc := s.npc + 4 })

/-- ALU shape (40_alu R200): read c, read b, write `f B C` to `a`. -/
def compute (op : Opcode) (f : Word → Word → Word) (a : Nat) (b c : Src) (s : State) : Result :=
  computeOld op (fun x y _ => f x y) a b c s

/-- The multiplicative group (41_muldiv R250): `f B C lo hi` gives the new LO, at position A, and HI. -/
def computeHiLo (op : Opcode) (f : Word → Word → Word → Word → Word × Word) (b c : Nat) (s : State) : Result :=
  let r := f (s.cell b) (s.cell c) (s.cell loIndex) (s.cell hiIndex)
  let x := (s.begin.read .c c).read .b b
  .next (((x.write .a loIndex r.1).write .hi hiIndex r.2).retire
    { op := op, b := s.cell b, c := s.cell c, nnpc := s.npc + 4 })

/-- A data access to a register cell, which `LOW_ADDRESS_POLICY = fault` faults (20_memory R73, 42_loadstore R280). -/
def State.lowAddressFaults (s : State) (ea : Word) : Bool :=
  decide (wordKey ea ≤ 32 ∧ s.params.lowAddressPolicy = .fault)

/-- The effective address of a load or store (42_loadstore R280). -/
def State.effectiveAddress (s : State) (base : Nat) (off : Word) : Word := s.cell base + off

/-- A load (42_loadstore R281): read the base, read the word, write `f m EA old` to `rt`. -/
def load (op : Opcode) (f : Word → Word → Word → Word) (rt base : Nat) (off : Word) (s : State) : Result :=
  let ea := s.effectiveAddress base off
  if s.lowAddressFaults ea then raise (.invalidMemoryAccess op ea)
  else
    let x := (s.begin.read .b base).read .memory (wordKey ea)
    .next ((x.write .a rt (f (s.cell (wordKey ea)) ea (s.cell rt))).retire
      { op := op, b := s.cell base, c := off, nnpc := s.npc + 4 })

/-- A store (42_loadstore R282): read the base, write `f m v EA` to the word, read `rt`, in the order of R297. The word is
built from the cells as the cycle finds them, whatever it writes (10_state R50; assumption log 12). -/
def store (op : Opcode) (f : Word → Word → Word → Word) (rt base : Nat) (off : Word) (s : State) : Result :=
  let ea := s.effectiveAddress base off
  if s.lowAddressFaults ea then raise (.invalidMemoryAccess op ea)
  else
    let x := (s.begin.read .b base).write .memory (wordKey ea) (f (s.cell (wordKey ea)) (s.cell rt) ea)
    .next ((x.read .a rt).retire
      { op := op, b := s.cell base, c := off, nnpc := s.npc + 4 })

/-- SC (42_loadstore R296): read the base, write `rt`'s word, write 1 to `rt`; it never fails (20_memory R112). -/
def storeConditional (rt base : Nat) (off : Word) (s : State) : Result :=
  let ea := s.effectiveAddress base off
  if s.lowAddressFaults ea then raise (.invalidMemoryAccess .sc ea)
  else
    let x := (s.begin.read .b base).write .memory (wordKey ea) (s.cell rt)
    .next ((x.write .a rt 1).retire { op := .sc, b := s.cell base, c := off, nnpc := s.npc + 4 })

/-- A conditional branch (43_branch R320): read a, read b, and where the condition holds take `nnpc = npc + off`. -/
def branch (op : Opcode) (cond : Word → Word → Bool) (a b : Nat) (off : Word) (s : State) : Result :=
  .next (((s.begin.read .a a).read .b b).retire
    { op := op, b := s.cell b, c := off
      nnpc := if cond (s.cell a) (s.cell b) then s.npc + off else s.npc + 4 })

/-- The link write of a jump: `npc + 4` to `a`, no access where `a = 0` (44_jump R340). -/
def Cycle.link (x : Cycle) (a : Nat) : Cycle :=
  if a = 0 then x else x.write .a a (x.st.npc + 4)

/-- A jump (44_jump R340): read b if it is a register, link, and take `nnpc = target`. -/
def jumpTo (op : Opcode) (a : Nat) (b : Src) (c target : Word) (s : State) : Result :=
  .next (((s.begin.readSrc .b b).link a).retire { op := op, b := s.src b, c := c, nnpc := target })

/-- Jumpi (44_jump R341, R342): refused in the high segments under `JUMPI_HIGH_SEGMENT = refuse`. -/
def jumpImmediate (a : Nat) (b c : Word) (s : State) : Result :=
  if s.npc.extractLsb' 28 4 ≠ 0 ∧ s.params.jumpiHighSegment = .refuse then refuse .jumpiHighSegment
  else jumpTo .jumpi a (.imm b) c (segmentTarget s.npc b) s

/-- EXT, refused where the field runs past bit 31 (45_misc R365). -/
def extractBits (a b : Nat) (c : Word) (s : State) : Result :=
  if fieldLsb c + fieldMsb c > 31 then refuse .unpredictableExt
  else compute .ext extractField a (.reg b) (.imm c) s

/-- INS, refused where `msb < lsb` (45_misc R366). -/
def insertBits (a b : Nat) (c : Word) (s : State) : Result :=
  if fieldMsb c < fieldLsb c then refuse .unpredictableIns
  else computeOld .ins insertField a (.reg b) (.imm c) s

/-- TEQ (45_misc R367): reads at A and B, and the fault Trap where the values are equal. -/
def trapIfEqual (a b : Nat) (c : Word) (s : State) : Result :=
  if s.cell a = s.cell b then raise (.trap s.pc)
  else .next (((s.begin.read .a a).read .b b).retire { op := .teq, b := s.cell b, c := c, nnpc := s.npc + 4 })

/-! ### The syscall port (46_system R380, R381, R382) -/

/-- The code of HALT, where `SYSCALL_CODES` gives one (R382). -/
def haltCode : List (SyscallName × Word) → Option Word
  | [] => none
  | (n, c) :: r => if n = .halt then some c else haltCode r

/-- The next answer for a code, and the answers left without it. -/
def takeAnswer : List (Word × Response) → Word → Option (Response × List (Word × Response))
  | [], _ => none
  | (c, r) :: rest, code =>
    if c = code then some (r, rest)
    else (takeAnswer rest code).map (fun p => (p.1, (c, r) :: p.2))

/-- The response for the HALT code: `halt = arg1`, no writes, no `ret` (R382). What R382 leaves to the handler, its cost and
the fault of a HALT that is illegal where it stands (R383), is the port's answer `r` for that code. That a HALT handler reads
no word through its context and overrides no pc update, which R382 leaves open too, is the model's choice (assumption log
4). -/
def haltResponse (arg1 : Word) (r : Response) : Response :=
  { Response.empty with halt := some arg1, extra := r.extra, fault := r.fault }

/-- HOST at `(code, arg1)`: the next answer the port holds for the code, of HALT's as much as R382 leaves open; HALT needs
none (assumption log 4). -/
def State.hostAnswer (s : State) (code arg1 : Word) : Option (Response × List (Word × Response)) :=
  if haltCode s.params.syscallCodes = some code then
    match takeAnswer s.hostAnswers code with
    | some (r, rest) => some (haltResponse arg1 r, rest)
    | none => some (haltResponse arg1 .empty, s.hostAnswers)
  else takeAnswer s.hostAnswers code

/-- A response writes only data words: keys that are multiples of 4 and at least 36 (R381 (b)). -/
def Response.writesData (r : Response) : Bool :=
  r.writes.all (fun kv => decide (kv.1.toNat % 4 = 0 ∧ 36 ≤ kv.1.toNat))

/-- A response reads only cells of the store: registers and data words (20_memory R70). -/
def Response.readsCells (r : Response) : Bool :=
  r.reads.all (fun k => decide (k.toNat < 34 ∨ k.toNat % 4 = 0 ∧ 36 ≤ k.toNat))

/-- The fault a response carries (R381 (f)). -/
def hostFault (code : Word) : HostFault → Fault
  | .invalidSyscallUsage => .invalidSyscallUsage code
  | .unimplemented => .unimplemented
  | .endInUnconstrained => .endInUnconstrained

/-- Apply a response that neither faults nor is refused (R380): reads at C and B, the handler's accesses in order, the
write of V0 at A, HALT's exit, the extra cycles and the pc override. -/
def applyResponse (code : Word) (resp : Response) (rest : List (Word × Response)) (s : State) : State :=
  let x := (s.begin.read .c 5).read .b 4
  let x := (resp.accesses.foldl Cycle.hostAccess x).write .a 2 (resp.ret.getD code)
  let x : Cycle :=
    { x with
      st := { x.st with
        hostAnswers := rest
        exited := x.st.exited || resp.halt.isSome
        exitCode := resp.halt.getD x.st.exitCode } }
  x.retire { op := .syscall, b := s.cell 4, c := s.cell 5, nnpc := s.npc + 4, extra := resp.extra, jump := resp.jump }

/-- SYSCALL (R380), its stops in the order of 60_exceptions R403; which of a fault and several refusals of one response is
reported first is the model's choice (assumption log 19). -/
def systemCall (s : State) : Result :=
  let code := s.cell 2
  match s.hostAnswer code (s.cell 4) with
  | none => raise (.unsupportedSyscall code)
  | some (resp, rest) =>
    match resp.fault with
    | some f => raise (hostFault code f)
    | none =>
      if !resp.writesData then refuse .hostWritesRegisters
      else if !resp.readsCells then refuse .hostReadsNoCell
      else if resp.extra.toNat > s.params.maxSyscallCycles.toNat then refuse .hostExtraTooLarge
      else if resp.halt.getD 0 ≠ 0 then raise (.haltWithNonZeroExitCode (resp.halt.getD 0))
      else .next (applyResponse code resp rest s)

/-! ### The cycle around the instruction (10_state R51 to R58) -/

/-- The end of the program's range, as a number (00_scope R8). -/
def State.programEnd (s : State) : Nat := s.pcBase.toNat + 4 * s.program.length

/-- Done (10_state R58). -/
def State.done (s : State) : Bool :=
  decide (s.pc = 0 ∨ s.exited = true ∨ s.pc.toNat < s.pcBase.toNat ∨ s.programEnd ≤ s.pc.toNat)

/-- What fetching at `pc` gives (10_state R51, R53, R58). -/
inductive Fetched where
  | done
  | misaligned
  | slot (x : Slot)
  deriving DecidableEq, Repr

/-- Fetch (10_state R51): it reads the immutable program only, never the data store (20_memory R113). -/
def State.fetch (s : State) : Fetched :=
  if s.done then .done
  else if (s.pc.toNat - s.pcBase.toNat) % 4 ≠ 0 then .misaligned
  else match s.program[(s.pc.toNat - s.pcBase.toNat) / 4]? with
    | some x => .slot x
    | none => .done

/-- The shard is closed: its events and local accesses go into the outgoing records, the next shard begins (10_state R57,
20_memory R91). The MemoryLocalEvents go out in rising order of their keys, the model's choice (assumption log 17). -/
def State.boundary (s : State) : State :=
  { s with
    currentShard := s.currentShard + 1
    clk := 0
    outgoing := s.outgoing ++
      [{ shard := s.currentShard, cpuEvents := s.cpuEvents, familyEvents := s.familyEvents
         localEvents := s.localAccess }]
    localAccess := []
    cpuEvents := []
    familyEvents := [] }

/-- Whether a boundary falls after this cycle: never before a delay slot, always when the shard is full, else as the
oracle says (10_state R57). -/
def State.boundaryDue (s : State) : Bool :=
  !s.nextIsDelayslot &&
    (decide (s.params.shardSize ≤ s.clk + s.params.maxSyscallCycles) || s.shardOracle.headD false)

/-- The shard check, which uses up the oracle's choice for this cycle (10_state R57). -/
def State.shardCheck (s : State) : State :=
  let t := if s.boundaryDue then s.boundary else s
  { t with shardOracle := s.shardOracle.tail }

/-- Step 10 of 10_state R50: the cycle limit (R56), then the shard check (R57). -/
def closeCycle (s : State) : Result :=
  match s.params.maxCycles with
  | some m => if m ≤ s.globalClk then raise (.exceededCycleLimit m s) else .next s.shardCheck
  | none => .next s.shardCheck

end Sys2Proof.Machine
end

