-- ==== Sys2Proof/Machine/Alu.lean ====
section
/-! DEFINITION. The integer ALU instructions (40_alu R201 to R233), each over the shape `compute` of R200. -/

namespace Sys2Proof.Machine

/-- ADD, R201: the sum wraps, no overflow trap. -/
def execAdd (rd rs rt : Reg) (s : State) : Result :=
  compute .add (fun b c => b + c) rd (.reg rs) (.reg rt) s

/-- ADDU, R202, the decoded opcode ADD. -/
def execAddu (rd rs rt : Reg) (s : State) : Result :=
  compute .add (fun b c => b + c) rd (.reg rs) (.reg rt) s

/-- ADDI, R203: wraps, no overflow trap. -/
def execAddi (rt rs : Reg) (imm : BitVec 16) (s : State) : Result :=
  compute .add (fun b c => b + c) rt (.reg rs) (.imm (sext16 imm)) s

/-- ADDIU, R204: the immediate is sign-extended. -/
def execAddiu (rt rs : Reg) (imm : BitVec 16) (s : State) : Result :=
  compute .add (fun b c => b + c) rt (.reg rs) (.imm (sext16 imm)) s

/-- SUB, R205: wraps, no overflow trap. -/
def execSub (rd rs rt : Reg) (s : State) : Result :=
  compute .sub (fun b c => b - c) rd (.reg rs) (.reg rt) s

/-- SUBU, R206. -/
def execSubu (rd rs rt : Reg) (s : State) : Result :=
  compute .sub (fun b c => b - c) rd (.reg rs) (.reg rt) s

/-- AND, R207. -/
def execAnd (rd rs rt : Reg) (s : State) : Result :=
  compute .and (fun b c => b &&& c) rd (.reg rs) (.reg rt) s

/-- ANDI, R208: the immediate is zero-extended. -/
def execAndi (rt rs : Reg) (imm : BitVec 16) (s : State) : Result :=
  compute .and (fun b c => b &&& c) rt (.reg rs) (.imm (zext16 imm)) s

/-- OR, R209. -/
def execOr (rd rs rt : Reg) (s : State) : Result :=
  compute .or (fun b c => b ||| c) rd (.reg rs) (.reg rt) s

/-- ORI, R210. -/
def execOri (rt rs : Reg) (imm : BitVec 16) (s : State) : Result :=
  compute .or (fun b c => b ||| c) rt (.reg rs) (.imm (zext16 imm)) s

/-- XOR, R211. -/
def execXor (rd rs rt : Reg) (s : State) : Result :=
  compute .xor (fun b c => b ^^^ c) rd (.reg rs) (.reg rt) s

/-- XORI, R212. -/
def execXori (rt rs : Reg) (imm : BitVec 16) (s : State) : Result :=
  compute .xor (fun b c => b ^^^ c) rt (.reg rs) (.imm (zext16 imm)) s

/-- NOR, R213. -/
def execNor (rd rs rt : Reg) (s : State) : Result :=
  compute .nor (fun b c => ~~~(b ||| c)) rd (.reg rs) (.reg rt) s

/-- SLT, R214: signed. -/
def execSlt (rd rs rt : Reg) (s : State) : Result :=
  compute .slt setLessSigned rd (.reg rs) (.reg rt) s

/-- SLTI, R215. -/
def execSlti (rt rs : Reg) (imm : BitVec 16) (s : State) : Result :=
  compute .slt setLessSigned rt (.reg rs) (.imm (sext16 imm)) s

/-- SLTU, R216: unsigned. -/
def execSltu (rd rs rt : Reg) (s : State) : Result :=
  compute .sltu setLessUnsigned rd (.reg rs) (.reg rt) s

/-- SLTIU, R217: the immediate is sign-extended, then compared as unsigned. -/
def execSltiu (rt rs : Reg) (imm : BitVec 16) (s : State) : Result :=
  compute .sltu setLessUnsigned rt (.reg rs) (.imm (sext16 imm)) s

/-- SLL, R218. -/
def execSll (rd rt : Reg) (sa : BitVec 5) (s : State) : Result :=
  compute .sll shiftLeft rd (.reg rt) (.imm (zext5 sa)) s

/-- SRL, R219. -/
def execSrl (rd rt : Reg) (sa : BitVec 5) (s : State) : Result :=
  compute .srl shiftRight rd (.reg rt) (.imm (zext5 sa)) s

/-- SRA, R220. -/
def execSra (rd rt : Reg) (sa : BitVec 5) (s : State) : Result :=
  compute .sra shiftRightArith rd (.reg rt) (.imm (zext5 sa)) s

/-- SLLV, R221: the value is `rt`, the amount `rs`. -/
def execSllv (rd rt rs : Reg) (s : State) : Result :=
  compute .sll shiftLeft rd (.reg rt) (.reg rs) s

/-- SRLV, R222: the value is `rt`, the amount `rs`. -/
def execSrlv (rd rt rs : Reg) (s : State) : Result :=
  compute .srl shiftRight rd (.reg rt) (.reg rs) s

/-- SRAV, R223: the value is `rt`, the amount `rs`. -/
def execSrav (rd rt rs : Reg) (s : State) : Result :=
  compute .sra shiftRightArith rd (.reg rt) (.reg rs) s

/-- ROTR, R224. -/
def execRotr (rd rt : Reg) (sa : BitVec 5) (s : State) : Result :=
  compute .ror rotateRight rd (.reg rt) (.imm (zext5 sa)) s

/-- ROTRV, R225. -/
def execRotrv (rd rt rs : Reg) (s : State) : Result :=
  compute .ror rotateRight rd (.reg rt) (.reg rs) s

/-- LUI, R226: SLL of two immediates, so no register is read. -/
def execLui (rt : Reg) (imm : BitVec 16) (s : State) : Result :=
  compute .sll shiftLeft rt (.imm (zext16 imm)) (.imm 16) s

/-- CLZ, R227; the field `rt` equals `rd` in a canonical word. -/
def execClz (rd rs _rt : Reg) (s : State) : Result :=
  compute .clz (fun b _ => countLeadingZeros b) rd (.reg rs) (.imm 0) s

/-- CLO, R228. -/
def execClo (rd rs _rt : Reg) (s : State) : Result :=
  compute .clo (fun b _ => countLeadingOnes b) rd (.reg rs) (.imm 0) s

/-- MFHI, R229: ADD of HI and 0. -/
def execMfhi (rd : Reg) (s : State) : Result :=
  compute .add (fun b c => b + c) rd (.reg hiIndex) (.imm 0) s

/-- MFLO, R230: ADD of LO and 0. -/
def execMflo (rd : Reg) (s : State) : Result :=
  compute .add (fun b c => b + c) rd (.reg loIndex) (.imm 0) s

/-- SYNC, R231: ADD 0, 0, 0, which stores 0 to register 0. -/
def execSync (_stype : BitVec 5) (s : State) : Result :=
  compute .add (fun b c => b + c) 0 (.reg 0) (.reg 0) s

/-- PREF, R232: ADD 0, 0, 0; no address is formed. -/
def execPref (_hint : BitVec 5) (_base : Reg) (_off : BitVec 16) (s : State) : Result :=
  compute .add (fun b c => b + c) 0 (.reg 0) (.reg 0) s

/-- SYNCI, R233: ADD 0, 0, 0. -/
def execSynci (_base : Reg) (_off : BitVec 16) (s : State) : Result :=
  compute .add (fun b c => b + c) 0 (.reg 0) (.reg 0) s


end Sys2Proof.Machine
end

