-- ==== Sys2Proof/Machine/Branch.lean ====
section
/-! DEFINITION. Conditional branches (43_branch R321 to R326). -/

namespace Sys2Proof.Machine

/-- BEQ, R321. -/
def execBeq (rs rt : Reg) (off : BitVec 16) (s : State) : Result :=
  branch .beq condEq rs rt (branchOffset off) s

/-- BNE, R322. -/
def execBne (rs rt : Reg) (off : BitVec 16) (s : State) : Result :=
  branch .bne condNe rs rt (branchOffset off) s

/-- BLEZ, R323: the second operand is register 0. -/
def execBlez (rs : Reg) (off : BitVec 16) (s : State) : Result :=
  branch .blez condLez rs 0 (branchOffset off) s

/-- BGTZ, R324: the second operand is register 0. -/
def execBgtz (rs : Reg) (off : BitVec 16) (s : State) : Result :=
  branch .bgtz condGtz rs 0 (branchOffset off) s

/-- BLTZ, R325: the second operand is register 0. -/
def execBltz (rs : Reg) (off : BitVec 16) (s : State) : Result :=
  branch .bltz condLtz rs 0 (branchOffset off) s

/-- BGEZ, R326: the second operand is register 0. -/
def execBgez (rs : Reg) (off : BitVec 16) (s : State) : Result :=
  branch .bgez condGez rs 0 (branchOffset off) s


end Sys2Proof.Machine
end

