-- ==== Sys2Proof/Machine/Jump.lean ====
section
/-! DEFINITION. Jumps and calls (44_jump R341 to R345). -/

namespace Sys2Proof.Machine

/-- J, R341. -/
def execJ (index : BitVec 26) (s : State) : Result :=
  jumpImmediate 0 (jumpIndex index) 0 s

/-- JAL, R342. -/
def execJal (index : BitVec 26) (s : State) : Result :=
  jumpImmediate 31 (jumpIndex index) 0 s

/-- JR, R343. -/
def execJr (rs : Reg) (s : State) : Result :=
  jumpTo .jump 0 (.reg rs) 0 (s.cell rs) s

/-- JALR, R344: the target is read before the link write. -/
def execJalr (rd rs : Reg) (s : State) : Result :=
  jumpTo .jump rd (.reg rs) 0 (s.cell rs) s

/-- BAL, R345. -/
def execBal (off : BitVec 16) (s : State) : Result :=
  jumpTo .jumpDirect 31 (.imm (branchOffset off)) 0 (s.npc + branchOffset off) s


end Sys2Proof.Machine
end

