-- ==== Sys2Proof/Machine/LoadStore.lean ====
section
/-! DEFINITION. Loads and stores (42_loadstore R283 to R296). -/

namespace Sys2Proof.Machine

/-- LB, R283. -/
def execLb (rt base : Reg) (off : BitVec 16) (s : State) : Result :=
  load .lb (fun m ea _ => sext8 (loadedByte m ea)) rt base (sext16 off) s

/-- LBU, R284. -/
def execLbu (rt base : Reg) (off : BitVec 16) (s : State) : Result :=
  load .lbu (fun m ea _ => zext8 (loadedByte m ea)) rt base (sext16 off) s

/-- LH, R285: `EA[0]` is ignored. -/
def execLh (rt base : Reg) (off : BitVec 16) (s : State) : Result :=
  load .lh (fun m ea _ => sext16 (loadedHalf m ea)) rt base (sext16 off) s

/-- LHU, R286. -/
def execLhu (rt base : Reg) (off : BitVec 16) (s : State) : Result :=
  load .lhu (fun m ea _ => zext16 (loadedHalf m ea)) rt base (sext16 off) s

/-- LW, R287: `EA[1:0]` is ignored. -/
def execLw (rt base : Reg) (off : BitVec 16) (s : State) : Result :=
  load .lw (fun m _ _ => m) rt base (sext16 off) s

/-- LWL, R288. -/
def execLwl (rt base : Reg) (off : BitVec 16) (s : State) : Result :=
  load .lwl mergeLoadLeft rt base (sext16 off) s

/-- LWR, R289. -/
def execLwr (rt base : Reg) (off : BitVec 16) (s : State) : Result :=
  load .lwr mergeLoadRight rt base (sext16 off) s

/-- LL, R290: a word load with no reservation (20_memory R112). -/
def execLl (rt base : Reg) (off : BitVec 16) (s : State) : Result :=
  load .ll (fun m _ _ => m) rt base (sext16 off) s

/-- SB, R291. -/
def execSb (rt base : Reg) (off : BitVec 16) (s : State) : Result :=
  store .sb mergeByte rt base (sext16 off) s

/-- SH, R292: `EA[0]` is ignored. -/
def execSh (rt base : Reg) (off : BitVec 16) (s : State) : Result :=
  store .sh mergeHalf rt base (sext16 off) s

/-- SW, R293: `EA[1:0]` is ignored. -/
def execSw (rt base : Reg) (off : BitVec 16) (s : State) : Result :=
  store .sw (fun _ v _ => v) rt base (sext16 off) s

/-- SWL, R294. -/
def execSwl (rt base : Reg) (off : BitVec 16) (s : State) : Result :=
  store .swl mergeStoreLeft rt base (sext16 off) s

/-- SWR, R295. -/
def execSwr (rt base : Reg) (off : BitVec 16) (s : State) : Result :=
  store .swr mergeStoreRight rt base (sext16 off) s

/-- SC, R296: always stores and writes 1. -/
def execSc (rt base : Reg) (off : BitVec 16) (s : State) : Result :=
  storeConditional rt base (sext16 off) s


end Sys2Proof.Machine
end

