-- ==== Sys2Proof/Machine/Misc.lean ====
section
/-! DEFINITION. Conditional move, bit-field and trap instructions (45_misc R360 to R367). -/

namespace Sys2Proof.Machine

/-- MOVZ, R360, decoded MEQ: a write at A in both cases. -/
def execMovz (rd rs rt : Reg) (s : State) : Result :=
  computeOld .meq moveIfZero rd (.reg rs) (.reg rt) s

/-- MOVN, R361, decoded MNE. -/
def execMovn (rd rs rt : Reg) (s : State) : Result :=
  computeOld .mne moveIfNotZero rd (.reg rs) (.reg rt) s

/-- SEB, R362, decoded SEXT with c = 0. -/
def execSeb (rd rt : Reg) (s : State) : Result :=
  compute .sext signExtendPart rd (.reg rt) (.imm 0) s

/-- SEH, R363, decoded SEXT with c = 1. -/
def execSeh (rd rt : Reg) (s : State) : Result :=
  compute .sext signExtendPart rd (.reg rt) (.imm 1) s

/-- WSBH, R364. -/
def execWsbh (rd rt : Reg) (s : State) : Result :=
  compute .wsbh (fun b _ => swapBytesInHalves b) rd (.reg rt) (.imm 0) s

/-- EXT, R365. -/
def execExt (rt rs : Reg) (msbd lsb : BitVec 5) (s : State) : Result :=
  extractBits rt rs (fieldBounds msbd lsb) s

/-- INS, R366. -/
def execIns (rt rs : Reg) (msb lsb : BitVec 5) (s : State) : Result :=
  insertBits rt rs (fieldBounds msb lsb) s

/-- TEQ, R367: the code has no effect. -/
def execTeq (rs rt : Reg) (_code : BitVec 10) (s : State) : Result :=
  trapIfEqual rs rt 0 s


end Sys2Proof.Machine
end

