-- ==== Sys2Proof/Machine/MulDiv.lean ====
section
/-! DEFINITION. Multiply, divide and HI/LO instructions (41_muldiv R251 to R263). MOD and MODU (R256, R257) are decoded
opcodes only and stand in Records. -/

namespace Sys2Proof.Machine

/-- MUL, R251: HI and LO keep their values. -/
def execMul (rd rs rt : Reg) (s : State) : Result :=
  compute .mul mulLow rd (.reg rs) (.reg rt) s

/-- MULT, R252. -/
def execMult (rs rt : Reg) (s : State) : Result :=
  computeHiLo .mult (fun b c _ _ => split64 (signedProduct b c)) rs rt s

/-- MULTU, R253. -/
def execMultu (rs rt : Reg) (s : State) : Result :=
  computeHiLo .multu (fun b c _ _ => split64 (unsignedProduct b c)) rs rt s

/-- DIV, R254: quotient to LO, remainder to HI. -/
def execDiv (rs rt : Reg) (s : State) : Result :=
  computeHiLo .div (fun b c _ _ => signedDivide b c) rs rt s

/-- DIVU, R255. -/
def execDivu (rs rt : Reg) (s : State) : Result :=
  computeHiLo .divu (fun b c _ _ => unsignedDivide b c) rs rt s

/-- MADD, R258: modulo 2^64. -/
def execMadd (rs rt : Reg) (s : State) : Result :=
  computeHiLo .madd (fun b c lo hi => split64 ((hi ++ lo) + signedProduct b c)) rs rt s

/-- MADDU, R259. -/
def execMaddu (rs rt : Reg) (s : State) : Result :=
  computeHiLo .maddu (fun b c lo hi => split64 ((hi ++ lo) + unsignedProduct b c)) rs rt s

/-- MSUB, R260. -/
def execMsub (rs rt : Reg) (s : State) : Result :=
  computeHiLo .msub (fun b c lo hi => split64 ((hi ++ lo) - signedProduct b c)) rs rt s

/-- MSUBU, R261. -/
def execMsubu (rs rt : Reg) (s : State) : Result :=
  computeHiLo .msubu (fun b c lo hi => split64 ((hi ++ lo) - unsignedProduct b c)) rs rt s

/-- MTHI, R262: UNIMPL unless `ADMIT_MTHI_MTLO`, else HI at position A. -/
def execMthi (rs : Reg) (s : State) : Result :=
  if s.params.admitMthiMtlo then compute .mthi (fun b _ => b) hiIndex (.reg rs) (.imm 0) s
  else raise (.unsupportedInstruction (encode (.mthi rs)))

/-- MTLO, R263: UNIMPL unless `ADMIT_MTHI_MTLO`, else LO at position A. -/
def execMtlo (rs : Reg) (s : State) : Result :=
  if s.params.admitMthiMtlo then compute .mtlo (fun b _ => b) loIndex (.reg rs) (.imm 0) s
  else raise (.unsupportedInstruction (encode (.mtlo rs)))


end Sys2Proof.Machine
end

