-- ==== Sys2Proof/Machine/System.lean ====
section
/-! DEFINITION. SYSCALL, BREAK and UNIMPL (46_system R380, R384, R385). -/

namespace Sys2Proof.Machine

/-- SYSCALL, R380: the code in the word has no effect. -/
def execSyscall (_code : BitVec 20) (s : State) : Result :=
  systemCall s

/-- BREAK, R384: the fault Breakpoint, with no access and no event. -/
def execBrk (_code : BitVec 20) (_s : State) : Result :=
  raise .breakpoint

/-- UNIMPL, R385: the fault UnsupportedInstruction with the raw word. -/
def execUnimpl (raw : Word) : Result := raise (.unsupportedInstruction raw)


end Sys2Proof.Machine
end

