-- ==== Sys2Proof/Machine/Dispatch.lean ====
section
/-! DEFINITION. One arm per form of the opcode table: the whole cycle of an instruction but its fetch, the cycle-limit
check and the shard check, which Step adds (10_state R50). -/

namespace Sys2Proof.Machine

def exec (i : Instr) (s : State) : Host.Outcome State Fault Refusal :=
  match i with
  | .add rd rs rt => Sys2Proof.Machine.execAdd rd rs rt s
  | .addu rd rs rt => Sys2Proof.Machine.execAddu rd rs rt s
  | .sub rd rs rt => Sys2Proof.Machine.execSub rd rs rt s
  | .subu rd rs rt => Sys2Proof.Machine.execSubu rd rs rt s
  | .and rd rs rt => Sys2Proof.Machine.execAnd rd rs rt s
  | .or rd rs rt => Sys2Proof.Machine.execOr rd rs rt s
  | .xor rd rs rt => Sys2Proof.Machine.execXor rd rs rt s
  | .nor rd rs rt => Sys2Proof.Machine.execNor rd rs rt s
  | .slt rd rs rt => Sys2Proof.Machine.execSlt rd rs rt s
  | .sltu rd rs rt => Sys2Proof.Machine.execSltu rd rs rt s
  | .addi rt rs imm => Sys2Proof.Machine.execAddi rt rs imm s
  | .addiu rt rs imm => Sys2Proof.Machine.execAddiu rt rs imm s
  | .slti rt rs imm => Sys2Proof.Machine.execSlti rt rs imm s
  | .sltiu rt rs imm => Sys2Proof.Machine.execSltiu rt rs imm s
  | .andi rt rs imm => Sys2Proof.Machine.execAndi rt rs imm s
  | .ori rt rs imm => Sys2Proof.Machine.execOri rt rs imm s
  | .xori rt rs imm => Sys2Proof.Machine.execXori rt rs imm s
  | .lui rt imm => Sys2Proof.Machine.execLui rt imm s
  | .sll rd rt sa => Sys2Proof.Machine.execSll rd rt sa s
  | .srl rd rt sa => Sys2Proof.Machine.execSrl rd rt sa s
  | .rotr rd rt sa => Sys2Proof.Machine.execRotr rd rt sa s
  | .sra rd rt sa => Sys2Proof.Machine.execSra rd rt sa s
  | .sllv rd rt rs => Sys2Proof.Machine.execSllv rd rt rs s
  | .srlv rd rt rs => Sys2Proof.Machine.execSrlv rd rt rs s
  | .rotrv rd rt rs => Sys2Proof.Machine.execRotrv rd rt rs s
  | .srav rd rt rs => Sys2Proof.Machine.execSrav rd rt rs s
  | .clz rd rs rt => Sys2Proof.Machine.execClz rd rs rt s
  | .clo rd rs rt => Sys2Proof.Machine.execClo rd rs rt s
  | .mfhi rd => Sys2Proof.Machine.execMfhi rd s
  | .mflo rd => Sys2Proof.Machine.execMflo rd s
  | .mthi rs => Sys2Proof.Machine.execMthi rs s
  | .mtlo rs => Sys2Proof.Machine.execMtlo rs s
  | .sync stype => Sys2Proof.Machine.execSync stype s
  | .pref hint base off => Sys2Proof.Machine.execPref hint base off s
  | .synci base off => Sys2Proof.Machine.execSynci base off s
  | .mul rd rs rt => Sys2Proof.Machine.execMul rd rs rt s
  | .mult rs rt => Sys2Proof.Machine.execMult rs rt s
  | .multu rs rt => Sys2Proof.Machine.execMultu rs rt s
  | .div rs rt => Sys2Proof.Machine.execDiv rs rt s
  | .divu rs rt => Sys2Proof.Machine.execDivu rs rt s
  | .madd rs rt => Sys2Proof.Machine.execMadd rs rt s
  | .maddu rs rt => Sys2Proof.Machine.execMaddu rs rt s
  | .msub rs rt => Sys2Proof.Machine.execMsub rs rt s
  | .msubu rs rt => Sys2Proof.Machine.execMsubu rs rt s
  | .lb rt base off => Sys2Proof.Machine.execLb rt base off s
  | .lh rt base off => Sys2Proof.Machine.execLh rt base off s
  | .lwl rt base off => Sys2Proof.Machine.execLwl rt base off s
  | .lw rt base off => Sys2Proof.Machine.execLw rt base off s
  | .lbu rt base off => Sys2Proof.Machine.execLbu rt base off s
  | .lhu rt base off => Sys2Proof.Machine.execLhu rt base off s
  | .lwr rt base off => Sys2Proof.Machine.execLwr rt base off s
  | .sb rt base off => Sys2Proof.Machine.execSb rt base off s
  | .sh rt base off => Sys2Proof.Machine.execSh rt base off s
  | .swl rt base off => Sys2Proof.Machine.execSwl rt base off s
  | .sw rt base off => Sys2Proof.Machine.execSw rt base off s
  | .swr rt base off => Sys2Proof.Machine.execSwr rt base off s
  | .ll rt base off => Sys2Proof.Machine.execLl rt base off s
  | .sc rt base off => Sys2Proof.Machine.execSc rt base off s
  | .beq rs rt off => Sys2Proof.Machine.execBeq rs rt off s
  | .bne rs rt off => Sys2Proof.Machine.execBne rs rt off s
  | .blez rs off => Sys2Proof.Machine.execBlez rs off s
  | .bgtz rs off => Sys2Proof.Machine.execBgtz rs off s
  | .bltz rs off => Sys2Proof.Machine.execBltz rs off s
  | .bgez rs off => Sys2Proof.Machine.execBgez rs off s
  | .j index => Sys2Proof.Machine.execJ index s
  | .jal index => Sys2Proof.Machine.execJal index s
  | .jr rs => Sys2Proof.Machine.execJr rs s
  | .jalr rd rs => Sys2Proof.Machine.execJalr rd rs s
  | .bal off => Sys2Proof.Machine.execBal off s
  | .movz rd rs rt => Sys2Proof.Machine.execMovz rd rs rt s
  | .movn rd rs rt => Sys2Proof.Machine.execMovn rd rs rt s
  | .seb rd rt => Sys2Proof.Machine.execSeb rd rt s
  | .seh rd rt => Sys2Proof.Machine.execSeh rd rt s
  | .wsbh rd rt => Sys2Proof.Machine.execWsbh rd rt s
  | .ext rt rs msbd lsb => Sys2Proof.Machine.execExt rt rs msbd lsb s
  | .ins rt rs msb lsb => Sys2Proof.Machine.execIns rt rs msb lsb s
  | .teq rs rt code => Sys2Proof.Machine.execTeq rs rt code s
  | .syscall code => Sys2Proof.Machine.execSyscall code s
  | .brk code => Sys2Proof.Machine.execBrk code s

end Sys2Proof.Machine
end

