-- ==== Sys2Proof/Machine/Records.lean ====
section
/-! DEFINITION. Decoded records: which of them the engine gives an effect (45_misc R368) and their execution (30_encoding
R125, R134). -/

namespace Sys2Proof

/-! ### Which records run: those some word decodes to (30_encoding R128, 60_exceptions R415, 92_eei_decisions D22), and MOD and
MODU, which no word produces and 41_muldiv R256, R257 and D14 give an effect (assumption log 13) -/

/-- `op_a` lies in the range the decoder row of the opcode produces (30_encoding R128, 45_misc R368): a general
register 0 to 31 except for the opcodes with a fixed `op_a`. BREAK and UNIMPL use none. -/
def Opcode.aInRange (op : Opcode) (a : Nat) : Bool :=
  match op with
  | .add | .sub | .and | .or | .xor | .nor | .slt | .sltu | .sll | .srl | .sra | .ror | .clz | .clo
  | .mul | .mod | .modu => decide (a < 32)
  | .mult | .multu | .div | .divu | .madd | .maddu | .msub | .msubu | .mtlo => decide (a = 32)
  | .mthi => decide (a = 33)
  | .lb | .lbu | .lh | .lhu | .lw | .lwl | .lwr | .ll | .sb | .sh | .sw | .swl | .swr | .sc => decide (a < 32)
  | .beq | .bne | .blez | .bgtz | .bltz | .bgez => decide (a < 32)
  | .jump => decide (a < 32)
  | .jumpi => decide (a = 0 ∨ a = 31)
  | .jumpDirect => decide (a = 31)
  | .meq | .mne | .sext | .wsbh | .ext | .ins | .teq => decide (a < 32)
  | .syscall => decide (a = 2)
  | .brk | .unimpl => true

/-- The operand names a general register, the only kind a register field of a word can name (10_state R34). -/
def namesGeneral (v : Word) : Bool := decide (v.toNat < 32)

/-- MFHI and MFLO: ADD of register 33 or 32 and the immediate 0, the only records that name HI or LO as a source
(10_state R34, 30_encoding R128). -/
def Record.readsHiLo (r : Record) : Bool :=
  decide (r.opcode = .add ∧ r.immB = false ∧ r.immC = true ∧ (r.b = 32 ∨ r.b = 33) ∧ r.c = 0)

/-- Each operand a general register or an immediate word (41_muldiv R256, R257). -/
def Record.anyOperands (r : Record) : Bool :=
  (r.immB || namesGeneral r.b) && (r.immC || namesGeneral r.c)

/-- Two general registers. -/
def Record.registerOperands (r : Record) : Bool :=
  !r.immB && !r.immC && namesGeneral r.b && namesGeneral r.c

/-- A general register and an immediate that satisfies `p`. -/
def Record.registerImmediate (r : Record) (p : Word → Bool) : Bool :=
  !r.immB && r.immC && namesGeneral r.b && p r.c

/-- Two immediates, the first satisfying `p`, the second `c`. -/
def Record.immediateOperand (r : Record) (p : Word → Bool) (c : Word) : Bool :=
  r.immB && r.immC && p r.b && decide (r.c = c)

/-- `sext_16` of some offset (30_encoding R124). -/
def isSext16 (v : Word) : Bool := decide (v = sext16 (v.extractLsb' 0 16))
/-- `zext_16` of some immediate. -/
def isZext16 (v : Word) : Bool := decide (v = zext16 (v.extractLsb' 0 16))
/-- A shift amount of five bits. -/
def isShiftAmount (v : Word) : Bool := decide (v.toNat < 32)
/-- `sext_16` of some offset, shifted left by two. -/
def isBranchOffset (v : Word) : Bool := decide (v = branchOffset (v.extractLsb' 2 16))
/-- Some 26-bit index, shifted left by two. -/
def isJumpIndex (v : Word) : Bool := decide (v = jumpIndex (v.extractLsb' 2 26))

/-- The operands are those of one of the opcode's rows in 30_encoding R128, or, for MOD and MODU, either form for each
operand. BREAK stops and UNIMPL stops with its raw word by opcode, before an operand is looked at
(60_exceptions R403, item 2); a record of opcode UNIMPL without a raw word is no UNIMPL (46_system R385). -/
def Record.operandsInRange (r : Record) : Bool :=
  match r.opcode with
  | .add => r.registerOperands || r.registerImmediate isSext16 || r.readsHiLo
  | .slt | .sltu => r.registerOperands || r.registerImmediate isSext16
  | .and | .or | .xor => r.registerOperands || r.registerImmediate isZext16
  | .sll => r.registerOperands || r.registerImmediate isShiftAmount || r.immediateOperand isZext16 16
  | .srl | .sra | .ror => r.registerOperands || r.registerImmediate isShiftAmount
  | .mod | .modu => r.anyOperands
  | .sub | .nor | .mul | .mult | .multu | .div | .divu | .madd | .maddu | .msub | .msubu | .meq | .mne => r.registerOperands
  | .clz | .clo | .mthi | .mtlo | .wsbh | .teq | .jump => r.registerImmediate (fun c => decide (c = 0))
  | .sext => r.registerImmediate (fun c => decide (c = 0 ∨ c = 1))
  | .ext | .ins => r.registerImmediate (fun c => decide (c.toNat < 1024))
  | .lb | .lbu | .lh | .lhu | .lw | .lwl | .lwr | .ll | .sb | .sh | .sw | .swl | .swr | .sc =>
    r.registerImmediate isSext16
  | .beq | .bne => r.registerImmediate isBranchOffset
  | .blez | .bgtz | .bltz | .bgez => r.registerImmediate isBranchOffset && decide (r.b = 0)
  | .jumpi => r.immediateOperand isJumpIndex 0
  | .jumpDirect => r.immediateOperand isBranchOffset 0
  | .syscall => r.registerOperands && decide (r.b = 4 ∧ r.c = 5)
  | .brk => true
  | .unimpl => r.raw.isSome

/-- A decoded record the engine gives an effect; any other is refused as MalformedDecoded (60_exceptions
R415). `raw` is not looked at but for UNIMPL. -/
def Record.wf (r : Record) : Bool := r.opcode.aInRange r.a && r.operandsInRange

end Sys2Proof

namespace Sys2Proof.Machine

/-- The execution of a decoded record (00_scope R16; 40_alu R200, 41_muldiv R250 to R263, 42_loadstore, 43_branch R320,
44_jump R340, 45_misc, 46_system): the engine's own level, which a slot that holds a record runs directly. A record
no word produces is refused (60_exceptions R415), MOD and MODU apart (30_encoding R134). -/
def execRecord (r : Record) (s : State) : Result :=
  if !r.wf then refuse .malformedDecoded
  else match r.opcode with
  | .add => compute .add (fun b c => b + c) r.a (srcB r) (srcC r) s
  | .sub => compute .sub (fun b c => b - c) r.a (srcB r) (srcC r) s
  | .and => compute .and (fun b c => b &&& c) r.a (srcB r) (srcC r) s
  | .or => compute .or (fun b c => b ||| c) r.a (srcB r) (srcC r) s
  | .xor => compute .xor (fun b c => b ^^^ c) r.a (srcB r) (srcC r) s
  | .nor => compute .nor (fun b c => ~~~(b ||| c)) r.a (srcB r) (srcC r) s
  | .slt => compute .slt setLessSigned r.a (srcB r) (srcC r) s
  | .sltu => compute .sltu setLessUnsigned r.a (srcB r) (srcC r) s
  | .sll => compute .sll shiftLeft r.a (srcB r) (srcC r) s
  | .srl => compute .srl shiftRight r.a (srcB r) (srcC r) s
  | .sra => compute .sra shiftRightArith r.a (srcB r) (srcC r) s
  | .ror => compute .ror rotateRight r.a (srcB r) (srcC r) s
  | .clz => compute .clz (fun b _ => countLeadingZeros b) r.a (srcB r) (srcC r) s
  | .clo => compute .clo (fun b _ => countLeadingOnes b) r.a (srcB r) (srcC r) s
  | .mul => compute .mul mulLow r.a (srcB r) (srcC r) s
  | .mod => compute .mod signedRemainder r.a (srcB r) (srcC r) s
  | .modu => compute .modu unsignedRemainder r.a (srcB r) (srcC r) s
  | .mult => computeHiLo .mult (fun b c _ _ => split64 (signedProduct b c)) r.b.toNat r.c.toNat s
  | .multu => computeHiLo .multu (fun b c _ _ => split64 (unsignedProduct b c)) r.b.toNat r.c.toNat s
  | .div => computeHiLo .div (fun b c _ _ => signedDivide b c) r.b.toNat r.c.toNat s
  | .divu => computeHiLo .divu (fun b c _ _ => unsignedDivide b c) r.b.toNat r.c.toNat s
  | .madd => computeHiLo .madd (fun b c lo hi => split64 ((hi ++ lo) + signedProduct b c)) r.b.toNat r.c.toNat s
  | .maddu => computeHiLo .maddu (fun b c lo hi => split64 ((hi ++ lo) + unsignedProduct b c)) r.b.toNat r.c.toNat s
  | .msub => computeHiLo .msub (fun b c lo hi => split64 ((hi ++ lo) - signedProduct b c)) r.b.toNat r.c.toNat s
  | .msubu => computeHiLo .msubu (fun b c lo hi => split64 ((hi ++ lo) - unsignedProduct b c)) r.b.toNat r.c.toNat s
  | .mthi => if s.params.admitMthiMtlo then compute .mthi (fun b _ => b) r.a (srcB r) (srcC r) s else refuse .malformedDecoded
  | .mtlo => if s.params.admitMthiMtlo then compute .mtlo (fun b _ => b) r.a (srcB r) (srcC r) s else refuse .malformedDecoded
  | .lb => load .lb (fun m ea _ => sext8 (loadedByte m ea)) r.a r.b.toNat r.c s
  | .lbu => load .lbu (fun m ea _ => zext8 (loadedByte m ea)) r.a r.b.toNat r.c s
  | .lh => load .lh (fun m ea _ => sext16 (loadedHalf m ea)) r.a r.b.toNat r.c s
  | .lhu => load .lhu (fun m ea _ => zext16 (loadedHalf m ea)) r.a r.b.toNat r.c s
  | .lw => load .lw (fun m _ _ => m) r.a r.b.toNat r.c s
  | .lwl => load .lwl mergeLoadLeft r.a r.b.toNat r.c s
  | .lwr => load .lwr mergeLoadRight r.a r.b.toNat r.c s
  | .ll => load .ll (fun m _ _ => m) r.a r.b.toNat r.c s
  | .sb => store .sb mergeByte r.a r.b.toNat r.c s
  | .sh => store .sh mergeHalf r.a r.b.toNat r.c s
  | .sw => store .sw (fun _ v _ => v) r.a r.b.toNat r.c s
  | .swl => store .swl mergeStoreLeft r.a r.b.toNat r.c s
  | .swr => store .swr mergeStoreRight r.a r.b.toNat r.c s
  | .sc => storeConditional r.a r.b.toNat r.c s
  | .beq => branch .beq condEq r.a r.b.toNat r.c s
  | .bne => branch .bne condNe r.a r.b.toNat r.c s
  | .blez => branch .blez condLez r.a r.b.toNat r.c s
  | .bgtz => branch .bgtz condGtz r.a r.b.toNat r.c s
  | .bltz => branch .bltz condLtz r.a r.b.toNat r.c s
  | .bgez => branch .bgez condGez r.a r.b.toNat r.c s
  | .jump => jumpTo .jump r.a (.reg r.b.toNat) r.c (s.cell r.b.toNat) s
  | .jumpi => jumpImmediate r.a r.b r.c s
  | .jumpDirect => jumpTo .jumpDirect r.a (.imm r.b) r.c (s.npc + r.b) s
  | .meq => computeOld .meq moveIfZero r.a (srcB r) (srcC r) s
  | .mne => computeOld .mne moveIfNotZero r.a (srcB r) (srcC r) s
  | .sext => compute .sext signExtendPart r.a (srcB r) (srcC r) s
  | .wsbh => compute .wsbh (fun b _ => swapBytesInHalves b) r.a (srcB r) (srcC r) s
  | .ext => extractBits r.a r.b.toNat r.c s
  | .ins => insertBits r.a r.b.toNat r.c s
  | .teq => trapIfEqual r.a r.b.toNat r.c s
  | .syscall => systemCall s
  | .brk => raise .breakpoint
  | .unimpl => execUnimpl (r.raw.getD 0)


end Sys2Proof.Machine
end

