-- ==== Sys2Proof/Machine/Cycle.lean ====
section
/-! DEFINITION. The whole cycle (10_state R50): fetch, execute what was fetched, close; and placing a word where the
next cycle fetches. Step only calls these. -/

namespace Sys2Proof.Machine

/-- Execute what was fetched: a word as it decodes (UNIMPL faults), a decoded record directly (30_encoding R130, R132,
R134). -/
def execSlot (x : Slot) (s : State) : Result :=
  match x with
  | .word w =>
    match decode w with
    | .instr i => exec i s
    | .unimpl raw => execUnimpl raw
  | .record r => execRecord r s

/-- One cycle. A done state has no further cycle and stays as it is (10_state R58; assumption log 8). -/
def runCycle (s : State) : Result :=
  match s.fetch with
  | .done => .next s
  | .misaligned => refuse .misalignedFetch
  | .slot x => andThen (execSlot x s) closeCycle

/-- Place a word where the next cycle fetches: in the program's place at `pc` where there is one, else as a one-word
program at `pc`; this stands for the loader's act (assumption log 1). A state that has exited would not fetch, so
`exited` is cleared. -/
def placeWord (s : State) (w : Word) : State :=
  match ({ s with exited := false } : State).fetch with
  | .slot _ =>
    { s with program := s.program.set ((s.pc.toNat - s.pcBase.toNat) / 4) (.word w), exited := false }
  | .done => { s with program := [.word w], pcBase := s.pc, exited := false }
  | .misaligned => { s with program := [.word w], pcBase := s.pc, exited := false }

end Sys2Proof.Machine
end

