-- ==== Sys2Proof/Machine/Step.lean ====
section
/-! DEFINITION. The step of the machine, which is one cycle (10_state R50), and the host's placing of a word. -/

namespace Sys2Proof.Machine

/-- One step: one cycle, or a done state that stays (10_state R50, R58). -/
def step (s : State) : Host.Outcome State Fault Refusal := runCycle s

/-- The state with the 32-bit word whose low `nbits` bits are those of `w`, the others 0, where the next step
fetches. -/
def State.withFetchWord (s : State) (nbits w : Nat) : State :=
  placeWord s (BitVec.ofNat 32 (w % 2 ^ nbits))

end Sys2Proof.Machine
end

