-- ==== Sys2Proof/Machine/Launch.lean ====
section
/-! DEFINITION. The launch (70_reset_and_hazards R440): the state a run starts from, built from the launch parameters of
00_scope R8 and the configuration; and what a run reports at its end. -/

namespace Sys2Proof.Machine

/-- The launch parameters (00_scope R8) with the configuration, the mode and what the ports will answer. -/
structure Launch where
  params : Params
  mode : Mode
  program : List Slot
  pcBase : Word
  pcStart : Word
  nextPcInit : Word
  /-- The initial memory image: the first entry of a key counts. -/
  image : List (Nat × Word)
  hostAnswers : List (Word × Response)
  shardOracle : List Bool
  deriving DecidableEq, Repr

/-- The image's word at a key, else 0 (20_memory R77). -/
def Launch.imageWord (l : Launch) (k : Nat) : Word := (Assoc.get l.image k).getD 0

/-- The launch premises (00_scope R8): `pc_base` a nonzero multiple of 4, the program within the address space, no
nonzero image value at key 0. -/
def Launch.premise (l : Launch) : Bool :=
  decide (l.pcBase.toNat % 4 = 0 ∧ l.pcBase ≠ 0 ∧ l.pcBase.toNat + 4 * l.program.length ≤ 2 ^ 32 ∧ l.imageWord 0 = 0)

/-- A key of the image that names a data word (20_memory R70): a multiple of 4, from 36, below 2^32. -/
abbrev dataKey (k : Nat) : Prop := k % 4 = 0 ∧ 36 ≤ k ∧ k < 2 ^ 32

/-- The image's data words, as memory. -/
def imageMemory : List (Nat × Word) → List Host.Cell
  | [] => []
  | (k, v) :: r => if dataKey k then Memory.setWord (imageMemory r) k v else imageMemory r

/-- The launch state (10_state R60). -/
def Launch.state (l : Launch) : State where
  params := l.params
  program := l.program
  pcBase := l.pcBase
  regs := Vector.ofFn (fun i => l.imageWord i.val)
  mem := imageMemory l.image
  pc := l.pcStart
  npc := l.nextPcInit
  nextIsDelayslot := false
  clk := 0
  globalClk := 0
  currentShard := l.params.initialShard
  exited := false
  exitCode := 0
  mode := l.mode
  touched := []
  localAccess := []
  localMem := 0
  opcodeCounts := []
  cpuEvents := []
  familyEvents := []
  outgoing := []
  hostAnswers := l.hostAnswers
  shardOracle := l.shardOracle
  draws := 0

/-- Launch, refused where a premise is violated (70_reset_and_hazards R440). -/
def launch (l : Launch) : Result :=
  if l.premise then .next l.state else refuse .launchPremise

/-- The launch State.reset stands for: the empty program and image at the choices of assumption log 1, 2 and 4. -/
def Launch.default : Launch where
  params := .default
  mode := .trace
  program := []
  pcBase := 0x00400000
  pcStart := 0x00400000
  nextPcInit := 0x00400004
  image := []
  hostAnswers := []
  shardOracle := []

/-- The MemoryInitializeFinalizeEvents of the end of a run (20_memory R93): key, first and last record of every touched
key, key 0 always first. -/
def State.finalizeEvents (s : State) : List (Nat × LocalAccess) :=
  let event (k : Nat) (seed : Word) : Nat × LocalAccess :=
    (k, { initial := { value := seed, shard := 0, timestamp := 0 }, final := s.record k })
  event 0 (((Assoc.get s.touched 0).map Touch.seed).getD (s.cell 0)) ::
    (s.touched.filter (fun e => e.1 ≠ 0)).map (fun e => event e.1 e.2.seed)

end Sys2Proof.Machine
end

