-- ==== Sys2Proof/Safety.lean ====
section
/-! DEFINITION. The terms claims use: what an instruction changes and leaves (frames), how a cycle advances the control
state, the architectural part of a state and of an outcome, the position table of 20_memory R85, and the invariant. -/

namespace Sys2Proof.Machine

/-! ### Frames -/

/-- Every register 0 to 33 is unchanged. -/
def SameRegisters (s t : State) : Prop := ∀ j, j < 34 → t.cell j = s.cell j

/-- Every byte of data memory reads as before. -/
def SameMemory (s t : State) : Prop := ∀ a, Memory.byte t.mem a = Memory.byte s.mem a

/-- Register `k` holds `v` (register 0 holds 0 whatever `v` is, 10_state R31); every other register is unchanged. -/
def OnlyRegister (s t : State) (k : Nat) (v : Word) : Prop :=
  ∀ j, j < 34 → t.cell j = if j = k then storedValue k v else s.cell j

/-- LO and HI hold `lo` and `hi`; every other register is unchanged. -/
def OnlyHiLo (s t : State) (lo hi : Word) : Prop :=
  ∀ j, j < 34 → t.cell j = if j = loIndex then lo else if j = hiIndex then hi else s.cell j

/-- The word at `wa` reads `v`; every byte outside its four reads as before. -/
def OnlyWord (s t : State) (wa : Nat) (v : Word) : Prop :=
  t.cell wa = v ∧ ∀ a, a < wa ∨ wa + 4 ≤ a → Memory.byte t.mem a = Memory.byte s.mem a

/-- The control state after a completed cycle: `pc` moved to `npc`, `npc` to `target`, the clocks advanced by 5 and by
one, the delay-slot bit `delay`; program, parameters, mode, shard, exit state and ports as before (10_state R50). -/
structure Advances (s t : State) (target : Word) (delay : Bool) : Prop where
  pc : t.pc = s.npc
  npc : t.npc = target
  nextIsDelayslot : t.nextIsDelayslot = delay
  clk : t.clk = s.clk + 5
  globalClk : t.globalClk = s.globalClk + 1
  currentShard : t.currentShard = s.currentShard
  exited : t.exited = s.exited
  exitCode : t.exitCode = s.exitCode
  mode : t.mode = s.mode
  params : t.params = s.params
  program : t.program = s.program
  pcBase : t.pcBase = s.pcBase
  hostAnswers : t.hostAnswers = s.hostAnswers
  shardOracle : t.shardOracle = s.shardOracle
  outgoing : t.outgoing = s.outgoing
  draws : t.draws = s.draws

/-- The instruction completes with `v` in register `k` and nothing else changed but the pc and the clocks. -/
def Computes (i : Instr) (s : State) (k : Nat) (v : Word) : Prop :=
  ∃ t, exec i s = .next t ∧ OnlyRegister s t k v ∧ SameMemory s t ∧ Advances s t (s.npc + 4) false

/-- The instruction completes with `lo` in LO and `hi` in HI and nothing else changed but the pc and the clocks. -/
def ComputesHiLo (i : Instr) (s : State) (lo hi : Word) : Prop :=
  ∃ t, exec i s = .next t ∧ OnlyHiLo s t lo hi ∧ SameMemory s t ∧ Advances s t (s.npc + 4) false

/-- The instruction completes with `v` in the memory word at `wa` and no register changed. -/
def Stores (i : Instr) (s : State) (wa : Nat) (v : Word) : Prop :=
  ∃ t, exec i s = .next t ∧ SameRegisters s t ∧ OnlyWord s t wa v ∧ Advances s t (s.npc + 4) false

/-- The instruction completes with no register or memory changed and `npc` moved to `target`, a delay slot next. -/
def Transfers (i : Instr) (s : State) (target : Word) : Prop :=
  ∃ t, exec i s = .next t ∧ SameRegisters s t ∧ SameMemory s t ∧ Advances s t target true

/-- The same with the link `npc + 4` in register `k`. -/
def Links (i : Instr) (s : State) (k : Nat) (target : Word) : Prop :=
  ∃ t, exec i s = .next t ∧ OnlyRegister s t k (s.npc + 4) ∧ SameMemory s t ∧ Advances s t target true

/-- The instruction completes with no register or memory changed. -/
def NoEffect (i : Instr) (s : State) : Prop :=
  ∃ t, exec i s = .next t ∧ SameRegisters s t ∧ SameMemory s t ∧ Advances s t (s.npc + 4) false

/-- The decoded record completes with `v` in register `k` and nothing else changed but the pc and the clocks. -/
def RecordComputes (r : Record) (s : State) (k : Nat) (v : Word) : Prop :=
  ∃ t, execRecord r s = .next t ∧ OnlyRegister s t k v ∧ SameMemory s t ∧ Advances s t (s.npc + 4) false

/-- The top `n` bits of `b` are all `p`, and the next bit, if there is one, is not. -/
def LeadingRun (p : Bool) (b : Word) (n : Nat) : Prop :=
  n ≤ 32 ∧ (∀ i, i < n → b.getMsbD i = p) ∧ (n < 32 → b.getMsbD n = !p)

/-- The effective address of a load or store form (42_loadstore R280). -/
def addressOf (s : State) (base : Reg) (off : BitVec 16) : Word := s.effectiveAddress base (sext16 off)

/-- The address names a data word, no register cell (20_memory R73). -/
abbrev DataAccess (s : State) (base : Reg) (off : BitVec 16) : Prop := 36 ≤ wordKey (addressOf s base off)

/-- The low-address policy admits the access (20_memory R73). -/
abbrev Admitted (s : State) (base : Reg) (off : BitVec 16) : Prop :=
  32 < wordKey (addressOf s base off) ∨ s.params.lowAddressPolicy = .aliased

/-- The word the access is to: the word at `EA & ~3`, a data word or, aliased, a register cell. -/
def accessedWord (s : State) (base : Reg) (off : BitVec 16) : Word := s.cell (wordKey (addressOf s base off))

/-! ### Groups of instructions -/

end Sys2Proof.Machine

namespace Sys2Proof

/-- Branches and jumps (10_state R39). -/
def Instr.isTransfer : Instr → Bool
  | .beq _ _ _ | .bne _ _ _ | .blez _ _ | .bgtz _ _ | .bltz _ _ | .bgez _ _
  | .j _ | .jal _ | .jr _ | .jalr _ _ | .bal _ => true
  | _ => false

/-- Where `npc` goes: the target a branch or jump reaches after its delay slot, `npc + 4` where a branch is not taken and for
every other form (10_state R52; 43_branch R321 to R326; 44_jump R341 to R345). -/
def Instr.target (i : Instr) (s : Machine.State) : Word :=
  let dest (off : BitVec 16) (taken : Bool) : Word := if taken then s.npc + off.signExtend 32 * 4 else s.npc + 4
  match i with
  | .beq rs rt off => dest off (s.cell rs == s.cell rt)
  | .bne rs rt off => dest off (s.cell rs != s.cell rt)
  | .blez rs off => dest off (decide ((s.cell rs).toInt ≤ 0))
  | .bgtz rs off => dest off (decide (0 < (s.cell rs).toInt))
  | .bltz rs off => dest off (decide ((s.cell rs).toInt < 0))
  | .bgez rs off => dest off (decide (0 ≤ (s.cell rs).toInt))
  | .j index => s.npc.extractLsb' 28 4 ++ index ++ 0#2
  | .jal index => s.npc.extractLsb' 28 4 ++ index ++ 0#2
  | .jr rs => s.cell rs
  | .jalr _ rs => s.cell rs
  | .bal off => s.npc + off.signExtend 32 * 4
  | _ => s.npc + 4

/-- The forms that write LO and HI: the multiplicative group, and MTHI and MTLO (10_state R32). -/
def Instr.writesHiLo : Instr → Bool
  | .mult _ _ | .multu _ _ | .div _ _ | .divu _ _ | .madd _ _ | .maddu _ _ | .msub _ _ | .msubu _ _
  | .mthi _ | .mtlo _ => true
  | _ => false

/-- The stores, SC among them (20_memory R78). -/
def Instr.isStore : Instr → Bool
  | .sb _ _ _ | .sh _ _ _ | .sw _ _ _ | .swl _ _ _ | .swr _ _ _ | .sc _ _ _ => true
  | _ => false

/-- SYSCALL. -/
def Instr.isSyscall : Instr → Bool
  | .syscall _ => true
  | _ => false

end Sys2Proof

namespace Sys2Proof.Machine

/-! ### The position table (20_memory R85) -/

/-- What a position's slot holds. -/
inductive SlotKind where
  | none | read | write
  deriving DecidableEq, Repr

/-- The kind of an optional access. -/
def slotKind : Option Access → SlotKind
  | .none => .none
  | some (.read _) => .read
  | some (.write _) => .write

/-- One row of the table: what each of the five positions holds. -/
structure Positions where
  c : SlotKind
  b : SlotKind
  a : SlotKind
  hi : SlotKind
  memory : SlotKind
  deriving DecidableEq, Repr

/-- The slot of a position (20_memory R88). -/
def Accesses.at (x : Accesses) : Position → Option Access
  | .memory => x.memory
  | .c => x.c
  | .b => x.b
  | .a => x.a
  | .hi => x.hi

/-- The row a cycle's accesses fill. -/
def Accesses.positions (x : Accesses) : Positions :=
  { c := slotKind x.c, b := slotKind x.b, a := slotKind x.a, hi := slotKind x.hi, memory := slotKind x.memory }

/-- Register c, register b, destination a. -/
def Positions.alu : Positions := { c := .read, b := .read, a := .write, hi := .none, memory := .none }
/-- Register b, destination a. -/
def Positions.unary : Positions := { c := .none, b := .read, a := .write, hi := .none, memory := .none }
/-- The multiplicative group. -/
def Positions.hiLo : Positions := { c := .read, b := .read, a := .write, hi := .write, memory := .none }
/-- Loads. -/
def Positions.load : Positions := { c := .none, b := .read, a := .write, hi := .none, memory := .read }
/-- Stores. -/
def Positions.store : Positions := { c := .none, b := .read, a := .read, hi := .none, memory := .write }
/-- SC. -/
def Positions.storeConditional : Positions := { c := .none, b := .read, a := .write, hi := .none, memory := .write }
/-- Branches and TEQ. -/
def Positions.compare : Positions := { c := .none, b := .read, a := .read, hi := .none, memory := .none }
/-- Only a destination a (LUI, JAL, BAL). -/
def Positions.dest : Positions := { c := .none, b := .none, a := .write, hi := .none, memory := .none }
/-- Only register b (JR). -/
def Positions.source : Positions := { c := .none, b := .read, a := .none, hi := .none, memory := .none }
/-- No access. -/
def Positions.empty : Positions := { c := .none, b := .none, a := .none, hi := .none, memory := .none }

end Sys2Proof.Machine

namespace Sys2Proof

/-- The row of 20_memory R85 for each form. -/
def Instr.positions : Instr → Machine.Positions
  | .add _ _ _ | .addu _ _ _ | .sub _ _ _ | .subu _ _ _ | .and _ _ _ | .or _ _ _ | .xor _ _ _ | .nor _ _ _
  | .slt _ _ _ | .sltu _ _ _ | .sllv _ _ _ | .srlv _ _ _ | .rotrv _ _ _ | .srav _ _ _ | .mul _ _ _ => .alu
  | .addi _ _ _ | .addiu _ _ _ | .slti _ _ _ | .sltiu _ _ _ | .andi _ _ _ | .ori _ _ _ | .xori _ _ _
  | .sll _ _ _ | .srl _ _ _ | .rotr _ _ _ | .sra _ _ _ => .unary
  | .lui _ _ => .dest
  | .clz _ _ _ | .clo _ _ _ | .mfhi _ | .mflo _ | .mthi _ | .mtlo _ => .unary
  | .sync _ | .pref _ _ _ | .synci _ _ => .alu
  | .mult _ _ | .multu _ _ | .div _ _ | .divu _ _ | .madd _ _ | .maddu _ _ | .msub _ _ | .msubu _ _ => .hiLo
  | .lb _ _ _ | .lh _ _ _ | .lwl _ _ _ | .lw _ _ _ | .lbu _ _ _ | .lhu _ _ _ | .lwr _ _ _ | .ll _ _ _ => .load
  | .sb _ _ _ | .sh _ _ _ | .swl _ _ _ | .sw _ _ _ | .swr _ _ _ => .store
  | .sc _ _ _ => .storeConditional
  | .beq _ _ _ | .bne _ _ _ | .blez _ _ | .bgtz _ _ | .bltz _ _ | .bgez _ _ => .compare
  | .j _ => .empty
  | .jal _ | .bal _ => .dest
  | .jr _ => .source
  | .jalr rd _ => if rd = 0 then .source else .unary
  | .movz _ _ _ | .movn _ _ _ => .alu
  | .seb _ _ | .seh _ _ | .wsbh _ _ | .ext _ _ _ _ | .ins _ _ _ _ => .unary
  | .teq _ _ _ => .compare
  | .syscall _ => .alu
  | .brk _ => .empty

end Sys2Proof

namespace Sys2Proof.Machine

/-! ### The local access map (20_memory R89, R90) -/

/-- From `s` to `t` one access at key `k` is tracked: a key of the map keeps its first record, a new one takes the record
its cell held in `s`; the last record is the one the cell holds in `t`; every other entry stays; `local_mem` counts the
key's first touch in the shard and every access a handler makes. -/
structure TracksAccess (fromHost : Bool) (k : Nat) (s t : State) : Prop where
  entry : Assoc.get t.localAccess k = some
    { initial := match Assoc.get s.localAccess k with
        | some l => l.initial
        | none => s.record k
      final := t.record k }
  others : ∀ j, j ≠ k → Assoc.get t.localAccess j = Assoc.get s.localAccess j
  counter : t.localMem = if fromHost = true ∨ Assoc.get s.localAccess k = none then s.localMem + 1 else s.localMem

/-! ### The architectural part of a state (10_state R48, R49; 70_reset_and_hazards R467) -/

/-- What the program's results depend on: no record, counter, event, shard, timestamp or mode. -/
structure Arch where
  lowAddressPolicy : LowAddressPolicy
  jumpiHighSegment : JumpiHighSegment
  admitMthiMtlo : Bool
  syscallCodes : List (SyscallName × Word)
  maxSyscallCycles : Word
  maxCycles : Option (BitVec 64)
  program : List Slot
  pcBase : Word
  regs : Vector Word 34
  mem : List Host.Cell
  pc : Word
  npc : Word
  globalClk : BitVec 64
  exited : Bool
  exitCode : Word
  hostAnswers : List (Word × Response)
  deriving DecidableEq, Repr

/-- The architectural part. -/
def State.arch (s : State) : Arch where
  lowAddressPolicy := s.params.lowAddressPolicy
  jumpiHighSegment := s.params.jumpiHighSegment
  admitMthiMtlo := s.params.admitMthiMtlo
  syscallCodes := s.params.syscallCodes
  maxSyscallCycles := s.params.maxSyscallCycles
  maxCycles := s.params.maxCycles
  program := s.program
  pcBase := s.pcBase
  regs := s.regs
  mem := s.mem
  pc := s.pc
  npc := s.npc
  globalClk := s.globalClk
  exited := s.exited
  exitCode := s.exitCode
  hostAnswers := s.hostAnswers

/-- Two faults are the same kind with the same payload, a reported state compared by its architectural part. -/
def SameFault : Fault → Fault → Prop
  | .exceededCycleLimit m s, .exceededCycleLimit m' s' => m = m' ∧ s.arch = s'.arch
  | f, f' => f = f'

/-- Two outcomes agree architecturally. -/
def SameOutcome : Result → Result → Prop
  | .next s, .next s' => s.arch = s'.arch
  | .fault f, .fault f' => SameFault f f'
  | .refused e, .refused e' => e = e'
  | _, _ => False

/-! ### The invariant -/

/-- A key of the unified store: a register, or a data word (20_memory R70). -/
abbrev validKey (k : Nat) : Prop := k < 34 ∨ dataKey k

/-- What every step keeps: memory in canonical form, the register-0 cell 0 (10_state R31), the touched keys and the local
map in canonical form over keys of the store, every key of the local map touched, its last record the cell's present
record and of the current shard (20_memory R80, R90), and the exit code 0 (10_state R43, 70_reset R450). -/
structure Inv (s : State) : Prop where
  memory : Memory.wf s.mem
  zero : s.regs[0] = 0
  touchedSorted : Assoc.sorted s.touched
  touchedKeys : ∀ e ∈ s.touched, validKey e.1
  localSorted : Assoc.sorted s.localAccess
  localTouched : ∀ e ∈ s.localAccess, (Assoc.get s.touched e.1).isSome = true
  localFinal : ∀ e ∈ s.localAccess, e.2.final = s.record e.1 ∧ e.2.final.shard = s.currentShard
  exitCode : s.exitCode = 0

/-- How many CpuEvents all records hold, closed shards and the current one together (20_memory R102). -/
def State.cpuEventCount (s : State) : Nat :=
  (s.outgoing.map (fun r => r.cpuEvents.length)).sum + s.cpuEvents.length

/-- How many family events other than a precompile's all records hold (20_memory R102). -/
def primaryEvents (l : List FamilyEvent) : Nat :=
  (l.filter (fun e => match e with | .precompile _ => false | _ => true)).length

/-- The same over all records. -/
def State.primaryEventCount (s : State) : Nat :=
  (s.outgoing.map (fun r => primaryEvents r.familyEvents)).sum + primaryEvents s.familyEvents

end Sys2Proof.Machine
end

