-- ==== Sys2Proof/Certificates/Slice0/Obligations.lean ====
section
/-! DEFINITION. The statements for the provers, in the spec's order: encodings, the instruction families, the syscall
port, the cycle, the recording interface, invariants and whole-machine rules. A docstring names the rule each follows,
and the decision (D<n> of 92_eei_decisions) or derivation the spec itself marks it with. -/

open Sys2Proof Sys2Proof.Machine

/-! ### Encoding (30_encoding) -/

/-- Words written out from the encodings of the rules decode to the forms they stand for, one or more a family. -/
def Obligations.WordsDecodeAsSpecified : Prop :=
  decode 0x00221820 = .instr (.add 3 1 2) ∧ decode 0x27BDFFF0 = .instr (.addiu 29 29 0xFFF0) ∧
  decode 0x00221A02 = .instr (.rotr 3 2 8) ∧ decode 0x70431820 = .instr (.clz 3 2 3) ∧
  decode 0x00001810 = .instr (.mfhi 3) ∧ decode 0x03BE001B = .instr (.divu 29 30) ∧
  decode 0x70220004 = .instr (.msub 1 2) ∧ decode 0x80360001 = .instr (.lb 22 1 1) ∧
  decode 0xE0220000 = .instr (.sc 2 1 0) ∧ decode 0x0421FFFF = .instr (.bgez 1 0xFFFF) ∧
  decode 0x0C100008 = .instr (.jal 0x100008) ∧ decode 0x04110002 = .instr (.bal 2) ∧
  decode 0x7C437A04 = .instr (.ins 3 2 15 8) ∧ decode 0x0000000C = .instr (.syscall 0) ∧
  decode 0x46000000 = .unimpl 0x46000000

/-- R133: `decode(encode(instr)) == instr` for every decodable instruction; an undecodable word round-trips through
UNIMPL preserving the raw word; forms with the same decoded record are told apart by `raw`. That the first clause takes in
MTHI and MTLO in every configuration is the model's choice (assumption log 14): under the default R128 decodes their words to
UNIMPL, which is how they run. -/
def Obligations.DecodeEncodeRoundTrip : Prop :=
  (∀ i : Instr, i.wf = true → decode (encode i) = .instr i) ∧
  (∀ w raw : Word, decode w = .unimpl raw → raw = w) ∧
  (∀ (admitted : Bool) (i j : Instr), i.wf = true → j.wf = true → i.record admitted = j.record admitted → i = j)

/-- The decoder is exact: a word that decodes to a form is that form's own word, and the form is well formed, so no
other word has its meaning and no bit of it is dropped (R129, R130). -/
def Obligations.DecodedWordIsItsEncoding : Prop :=
  ∀ (w : Word) (i : Instr), decode w = .instr i → i.wf = true ∧ encode i = w

/-- R130 with R129: every word decodes; it is UNIMPL carrying the raw word exactly when no row of the opcode table matches
it (CLZ and CLO with `rt = rd` only); no word matches two rows. That the rows of MTHI and MTLO count in every configuration
is the model's choice (assumption log 14): under the default R128 and R262 make their words UNIMPL. -/
def Obligations.DecoderAgreesWithOpcodeTable : Prop :=
  (∀ w : Word, (∀ i, decode w ≠ .instr i) → decode w = .unimpl w) ∧
  (∀ w : Word, (∃ i, decode w = .instr i) ↔
    ∃ row ∈ opcodeRows, w &&& row.mask = row.pattern ∧
      (row.mnemonic = "CLZ" ∨ row.mnemonic = "CLO" → w.rt = w.rd)) ∧
  (∀ w : Word, ∀ r₁ ∈ opcodeRows, ∀ r₂ ∈ opcodeRows,
    w &&& r₁.mask = r₁.pattern → w &&& r₂.mask = r₂.pattern → r₁ = r₂)

/-- The UNIMPL space the spec lists (R131, decisions D2 and D29): coprocessors, branch-likely, JALX, CACHE, other traps,
BLTZAL, BGEZAL with `rs ≠ 0`, MOVCI, SDBBP, RDHWR. -/
def Obligations.ListedEncodingsAreUnimpl : Prop :=
  ∀ w : Word,
    (w.opcode ∈ [0x10#6, 0x11#6, 0x12#6, 0x13#6, 0x31#6, 0x32#6, 0x35#6, 0x36#6, 0x39#6, 0x3A#6, 0x3D#6, 0x3E#6,
      0x14#6, 0x15#6, 0x16#6, 0x17#6, 0x1D#6, 0x2F#6] → decode w = .unimpl w) ∧
    (w.opcode = 0x01#6 → w.rt ∈ ([0x02, 0x03, 0x12, 0x13, 0x08, 0x09, 0x0A, 0x0B, 0x0C, 0x0E, 0x10] : List Reg) →
      decode w = .unimpl w) ∧
    (w.opcode = 0x01#6 → w.rt = 0x11 → w.rs ≠ 0 → decode w = .unimpl w) ∧
    (w.opcode = 0x00#6 → w.funct ∈ [0x30#6, 0x31#6, 0x32#6, 0x33#6, 0x36#6, 0x01#6] → decode w = .unimpl w) ∧
    (w.opcode = 0x1C#6 → w.funct = 0x3F#6 → decode w = .unimpl w) ∧
    (w.opcode = 0x1F#6 → w.funct = 0x3B#6 → decode w = .unimpl w)

/-- The two levels agree: a MIPS form does in every state what the record the decoder maps it to does (R128, decision
D4), and that record is well formed. -/
def Obligations.FormsRunAsTheirRecords : Prop :=
  ∀ (i : Instr) (s : State), (i.record s.params.admitMthiMtlo).wf = true ∧
    exec i s = execRecord (i.record s.params.admitMthiMtlo) s

/-! ### ALU (40_alu) -/

/-- ADD, ADDU, ADDI, ADDIU, SUB, SUBU wrap and never trap (R201 to R206; decisions D4, D5). -/
def Obligations.AddAndSubtractWrap : Prop :=
  ∀ (rd rs rt : Reg) (imm : BitVec 16) (s : State),
    Computes (.add rd rs rt) s rd (s.cell rs + s.cell rt) ∧
    Computes (.addu rd rs rt) s rd (s.cell rs + s.cell rt) ∧
    Computes (.addi rt rs imm) s rt (s.cell rs + imm.signExtend 32) ∧
    Computes (.addiu rt rs imm) s rt (s.cell rs + imm.signExtend 32) ∧
    Computes (.sub rd rs rt) s rd (s.cell rs - s.cell rt) ∧
    Computes (.subu rd rs rt) s rd (s.cell rs - s.cell rt)

/-- AND, OR, XOR, NOR and, with a zero-extended immediate, ANDI, ORI, XORI (R207 to R213; decision D4 for the
immediate forms). -/
def Obligations.LogicalResults : Prop :=
  ∀ (rd rs rt : Reg) (imm : BitVec 16) (s : State),
    Computes (.and rd rs rt) s rd (s.cell rs &&& s.cell rt) ∧
    Computes (.or rd rs rt) s rd (s.cell rs ||| s.cell rt) ∧
    Computes (.xor rd rs rt) s rd (s.cell rs ^^^ s.cell rt) ∧
    Computes (.nor rd rs rt) s rd (~~~(s.cell rs ||| s.cell rt)) ∧
    Computes (.andi rt rs imm) s rt (s.cell rs &&& (0#16 ++ imm : BitVec 32)) ∧
    Computes (.ori rt rs imm) s rt (s.cell rs ||| (0#16 ++ imm : BitVec 32)) ∧
    Computes (.xori rt rs imm) s rt (s.cell rs ^^^ (0#16 ++ imm : BitVec 32))

/-- SLT and SLTI compare as signed, SLTU and SLTIU as unsigned, both immediates sign-extended; the result is 1 or 0
(R214 to R217). -/
def Obligations.CompareResults : Prop :=
  ∀ (rd rs rt : Reg) (imm : BitVec 16) (s : State),
    Computes (.slt rd rs rt) s rd (if (s.cell rs).toInt < (s.cell rt).toInt then 1 else 0) ∧
    Computes (.sltu rd rs rt) s rd (if (s.cell rs).toNat < (s.cell rt).toNat then 1 else 0) ∧
    Computes (.slti rt rs imm) s rt (if (s.cell rs).toInt < imm.toInt then 1 else 0) ∧
    Computes (.sltiu rt rs imm) s rt (if (s.cell rs).toNat < (imm.signExtend 32).toNat then 1 else 0)

/-- Shifts and rotates by the five low bits of the amount, and LUI (R218 to R226). -/
def Obligations.ShiftAndRotateResults : Prop :=
  ∀ (rd rt rs : Reg) (sa : BitVec 5) (imm : BitVec 16) (s : State),
    Computes (.sll rd rt sa) s rd (s.cell rt <<< sa.toNat) ∧
    Computes (.srl rd rt sa) s rd (s.cell rt >>> sa.toNat) ∧
    Computes (.sra rd rt sa) s rd ((s.cell rt).sshiftRight sa.toNat) ∧
    Computes (.rotr rd rt sa) s rd ((s.cell rt).rotateRight sa.toNat) ∧
    Computes (.sllv rd rt rs) s rd (s.cell rt <<< ((s.cell rs).toNat % 32)) ∧
    Computes (.srlv rd rt rs) s rd (s.cell rt >>> ((s.cell rs).toNat % 32)) ∧
    Computes (.srav rd rt rs) s rd ((s.cell rt).sshiftRight ((s.cell rs).toNat % 32)) ∧
    Computes (.rotrv rd rt rs) s rd ((s.cell rt).rotateRight ((s.cell rs).toNat % 32)) ∧
    Computes (.lui rt imm) s rt (imm ++ 0#16 : BitVec 32)

/-- CLZ and CLO count the leading zero and one bits, 0 to 32 (R227, R228; decision D27 for the field form). -/
def Obligations.CountLeadingResults : Prop :=
  ∀ (rd rs rt : Reg) (s : State),
    (∃ n, LeadingRun false (s.cell rs) n ∧ Computes (.clz rd rs rt) s rd (BitVec.ofNat 32 n)) ∧
    (∃ n, LeadingRun true (s.cell rs) n ∧ Computes (.clo rd rs rt) s rd (BitVec.ofNat 32 n))

/-- MFHI and MFLO copy HI and LO (R229, R230; decision D4); SYNC, PREF and SYNCI change no register or memory value,
whatever their fields hold (R231, R232, R233). -/
def Obligations.MovesFromHiLoAndNoOps : Prop :=
  ∀ (rd base : Reg) (five : BitVec 5) (off : BitVec 16) (s : State),
    Computes (.mfhi rd) s rd (s.cell 33) ∧ Computes (.mflo rd) s rd (s.cell 32) ∧
    NoEffect (.sync five) s ∧ NoEffect (.pref five base off) s ∧ NoEffect (.synci base off) s

/-- The decoded ALU opcodes on the records some word produces, with the register or immediate operands of their rows (R200;
decision D5). A record of these opcodes no word produces (SUB with an immediate, CLZ with a register c) is none of them: it is
refused, which is the model's reading of R415 and decision D22 beside R200 (assumption log 13). -/
def Obligations.DecodedAluTable : Prop :=
  ∀ (r : Record) (s : State), r.wf = true →
    (r.opcode = .add → RecordComputes r s r.a (s.src (srcB r) + s.src (srcC r))) ∧
    (r.opcode = .sub → RecordComputes r s r.a (s.src (srcB r) - s.src (srcC r))) ∧
    (r.opcode = .and → RecordComputes r s r.a (s.src (srcB r) &&& s.src (srcC r))) ∧
    (r.opcode = .or → RecordComputes r s r.a (s.src (srcB r) ||| s.src (srcC r))) ∧
    (r.opcode = .xor → RecordComputes r s r.a (s.src (srcB r) ^^^ s.src (srcC r))) ∧
    (r.opcode = .nor → RecordComputes r s r.a (~~~(s.src (srcB r) ||| s.src (srcC r)))) ∧
    (r.opcode = .slt → RecordComputes r s r.a (if (s.src (srcB r)).slt (s.src (srcC r)) then 1 else 0)) ∧
    (r.opcode = .sltu → RecordComputes r s r.a (if (s.src (srcB r)).ult (s.src (srcC r)) then 1 else 0)) ∧
    (r.opcode = .sll → RecordComputes r s r.a (s.src (srcB r) <<< ((s.src (srcC r)).toNat % 32))) ∧
    (r.opcode = .srl → RecordComputes r s r.a (s.src (srcB r) >>> ((s.src (srcC r)).toNat % 32))) ∧
    (r.opcode = .sra → RecordComputes r s r.a ((s.src (srcB r)).sshiftRight ((s.src (srcC r)).toNat % 32))) ∧
    (r.opcode = .ror → RecordComputes r s r.a ((s.src (srcB r)).rotateRight ((s.src (srcC r)).toNat % 32))) ∧
    (r.opcode = .clz → ∃ n, LeadingRun false (s.src (srcB r)) n ∧ RecordComputes r s r.a (BitVec.ofNat 32 n)) ∧
    (r.opcode = .clo → ∃ n, LeadingRun true (s.src (srcB r)) n ∧ RecordComputes r s r.a (BitVec.ofNat 32 n))

/-! ### Multiply and divide (41_muldiv) -/

/-- MUL gives the low word and leaves HI and LO; MULT and MULTU give the exact signed and unsigned 64-bit products
(R251, R252, R253). -/
def Obligations.MultiplyResults : Prop :=
  ∀ (rd rs rt : Reg) (s : State),
    Computes (.mul rd rs rt) s rd (s.cell rs * s.cell rt) ∧
    (∃ lo hi : Word, ComputesHiLo (.mult rs rt) s lo hi ∧
      (hi ++ lo : BitVec 64).toInt = (s.cell rs).toInt * (s.cell rt).toInt) ∧
    (∃ lo hi : Word, ComputesHiLo (.multu rs rt) s lo hi ∧
      (hi ++ lo : BitVec 64).toNat = (s.cell rs).toNat * (s.cell rt).toNat)

/-- DIV: by zero `(0xFFFFFFFF, B)`, in the overflow case `(0x80000000, 0)`, else the quotient rounds toward zero and the
remainder has the dividend's sign (R254; decision D38 and conflict C7). No fault. -/
def Obligations.SignedDivideResults : Prop :=
  ∀ (rs rt : Reg) (s : State), ∃ q r : Word, ComputesHiLo (.div rs rt) s q r ∧
    (s.cell rt = 0 → q = 0xFFFFFFFF ∧ r = s.cell rs) ∧
    (s.cell rs = 0x80000000 → s.cell rt = 0xFFFFFFFF → q = 0x80000000 ∧ r = 0) ∧
    (s.cell rt ≠ 0 → ¬ (s.cell rs = 0x80000000 ∧ s.cell rt = 0xFFFFFFFF) →
      q.toInt * (s.cell rt).toInt + r.toInt = (s.cell rs).toInt ∧
      r.toInt.natAbs < (s.cell rt).toInt.natAbs ∧ (r = 0 ∨ r.toInt.sign = (s.cell rs).toInt.sign)) ∧
    (s.cell rt ≠ 0 → q * s.cell rt + r = s.cell rs)

/-- DIVU: by zero `(0xFFFFFFFF, B)`, else the unsigned quotient and remainder (R255). No fault. -/
def Obligations.UnsignedDivideResults : Prop :=
  ∀ (rs rt : Reg) (s : State), ∃ q r : Word, ComputesHiLo (.divu rs rt) s q r ∧
    (s.cell rt = 0 → q = 0xFFFFFFFF ∧ r = s.cell rs) ∧
    (s.cell rt ≠ 0 → q.toNat * (s.cell rt).toNat + r.toNat = (s.cell rs).toNat ∧ r.toNat < (s.cell rt).toNat)

/-- MADD, MADDU, MSUB, MSUBU add to or subtract from HI and LO, joined, modulo 2^64 (R258 to R261; decision D15). -/
def Obligations.AccumulateResults : Prop :=
  ∀ (rs rt : Reg) (s : State),
    let acc : BitVec 64 := s.cell 33 ++ s.cell 32
    let signed : BitVec 64 := (s.cell rs).signExtend 64 * (s.cell rt).signExtend 64
    let unsigned : BitVec 64 := (s.cell rs).setWidth 64 * (s.cell rt).setWidth 64
    (∃ lo hi : Word, ComputesHiLo (.madd rs rt) s lo hi ∧ (hi ++ lo : BitVec 64) = acc + signed) ∧
    (∃ lo hi : Word, ComputesHiLo (.maddu rs rt) s lo hi ∧ (hi ++ lo : BitVec 64) = acc + unsigned) ∧
    (∃ lo hi : Word, ComputesHiLo (.msub rs rt) s lo hi ∧ (hi ++ lo : BitVec 64) = acc - signed) ∧
    (∃ lo hi : Word, ComputesHiLo (.msubu rs rt) s lo hi ∧ (hi ++ lo : BitVec 64) = acc - unsigned)

/-- MTHI and MTLO write HI and LO where `ADMIT_MTHI_MTLO` holds; else they are UNIMPL and raise UnsupportedInstruction
with their word (R262, R263; decision D11). -/
def Obligations.MovesToHiLo : Prop :=
  ∀ (rs : Reg) (s : State),
    (s.params.admitMthiMtlo = true →
      Computes (.mthi rs) s 33 (s.cell rs) ∧ Computes (.mtlo rs) s 32 (s.cell rs)) ∧
    (s.params.admitMthiMtlo = false →
      exec (.mthi rs) s = .fault (.unsupportedInstruction (encode (.mthi rs))) ∧
      exec (.mtlo rs) s = .fault (.unsupportedInstruction (encode (.mtlo rs))))

/-- The decoded opcodes MOD and MODU give the remainders of DIV and DIVU (R256, R257; decisions D14, D38). -/
def Obligations.RemainderRecords : Prop :=
  ∀ (r : Record) (s : State), r.wf = true →
    (r.opcode = .mod → ∃ v : Word, RecordComputes r s r.a v ∧
      (s.src (srcC r) = 0 → v = s.src (srcB r)) ∧
      (s.src (srcB r) = 0x80000000 → s.src (srcC r) = 0xFFFFFFFF → v = 0) ∧
      (s.src (srcC r) ≠ 0 → (s.src (srcC r)).toInt ∣ (s.src (srcB r)).toInt - v.toInt ∧
        v.toInt.natAbs < (s.src (srcC r)).toInt.natAbs ∧ (v = 0 ∨ v.toInt.sign = (s.src (srcB r)).toInt.sign))) ∧
    (r.opcode = .modu → ∃ v : Word, RecordComputes r s r.a v ∧
      (s.src (srcC r) = 0 → v = s.src (srcB r)) ∧
      (s.src (srcC r) ≠ 0 → v.toNat = (s.src (srcB r)).toNat % (s.src (srcC r)).toNat))

/-! ### Loads and stores (20_memory, 42_loadstore) -/

/-- R71: byte address `wa + k` is bits `[8k+7 : 8k]` of the word at `wa`, the halfword at `wa + 2h` bits
`[16h+15 : 16h]`, for every data word. -/
def Obligations.WordsAreLittleEndian : Prop :=
  ∀ (s : State) (wa : Nat), 34 ≤ wa →
    (∀ k, k < 4 → Memory.byte s.mem (wa + k) = (s.cell wa).extractLsb' (8 * k) 8) ∧
    (∀ h, h < 2 → (Memory.byte s.mem (wa + 2 * h + 1) ++ Memory.byte s.mem (wa + 2 * h) : BitVec 16)
      = (s.cell wa).extractLsb' (16 * h) 16)

/-- LB, LBU, LH, LHU, LW and LL: the word at `EA & ~3` is read and its part at `EA` extended; no access traps for
misalignment; a load to register 0 stores 0 (R280, R281, R283 to R287, R290; decisions D2, D9, D25). -/
def Obligations.LoadResults : Prop :=
  ∀ (rt base : Reg) (off : BitVec 16) (s : State), Admitted s base off →
    let m := accessedWord s base off
    let ea := (addressOf s base off).toNat
    Computes (.lb rt base off) s rt ((m.extractLsb' (8 * (ea % 4)) 8).signExtend 32) ∧
    Computes (.lbu rt base off) s rt ((m.extractLsb' (8 * (ea % 4)) 8).setWidth 32) ∧
    Computes (.lh rt base off) s rt ((m.extractLsb' (16 * (ea / 2 % 2)) 16).signExtend 32) ∧
    Computes (.lhu rt base off) s rt ((m.extractLsb' (16 * (ea / 2 % 2)) 16).setWidth 32) ∧
    Computes (.lw rt base off) s rt m ∧
    Computes (.ll rt base off) s rt m

/-- LWL: bytes `EA[1:0]..0` of the word become bytes `3..3-EA[1:0]` of rt; LWR: bytes `3..EA[1:0]` become bytes
`3-EA[1:0]..0`; the other bytes of rt keep their old value (R288, R289; decision D16). -/
def Obligations.MergeLoadResults : Prop :=
  ∀ (rt base : Reg) (off : BitVec 16) (s : State), Admitted s base off →
    let m := accessedWord s base off
    let o := (addressOf s base off).toNat % 4
    (∃ v : Word, Computes (.lwl rt base off) s rt v ∧
      ∀ i, i < 4 → byteOf v i = if 3 - o ≤ i then byteOf m (i - (3 - o)) else byteOf (s.cell rt) i) ∧
    (∃ v : Word, Computes (.lwr rt base off) s rt v ∧
      ∀ i, i < 4 → byteOf v i = if i ≤ 3 - o then byteOf m (i + o) else byteOf (s.cell rt) i)

/-- LWR at `b + k` then LWL at `b + k + 3` load the unaligned word at `b + k` (R288, its corner case). The two offset
fields are `k` and `k + 3` without wrapping, the destination is not the base, and the word lies in data memory. -/
def Obligations.LwrThenLwlLoadsUnalignedWord : Prop :=
  ∀ (rt base : Reg) (off off3 : BitVec 16) (s : State),
    rt ≠ 0 → rt ≠ base → off3.signExtend 32 = off.signExtend 32 + 3#32 →
    36 ≤ (addressOf s base off).toNat → (addressOf s base off).toNat + 3 < 2 ^ 32 →
    let ea := (addressOf s base off).toNat
    ∃ t u, exec (.lwr rt base off) s = .next t ∧ exec (.lwl rt base off3) t = .next u ∧
      u.cell rt = (Memory.byte s.mem (ea + 3) ++ Memory.byte s.mem (ea + 2) ++ Memory.byte s.mem (ea + 1)
        ++ Memory.byte s.mem ea : BitVec 32)

/-- SB, SH and SW to data memory: the bytes stored, at the address aligned down to the width, and nothing else changes
(R282, R291, R292, R293; decisions D2, D9). -/
def Obligations.StoreResults : Prop :=
  ∀ (rt base : Reg) (off : BitVec 16) (s : State), DataAccess s base off →
    let ea := (addressOf s base off).toNat
    let v := s.cell rt
    (∃ t, exec (.sb rt base off) s = .next t ∧ SameRegisters s t ∧ Advances s t (s.npc + 4) false ∧
      ∀ a, Memory.byte t.mem a = if a = ea then byteOf v 0 else Memory.byte s.mem a) ∧
    (∃ t, exec (.sh rt base off) s = .next t ∧ SameRegisters s t ∧ Advances s t (s.npc + 4) false ∧
      ∀ a, Memory.byte t.mem a = if a / 2 = ea / 2 then byteOf v (a % 2) else Memory.byte s.mem a) ∧
    (∃ t, exec (.sw rt base off) s = .next t ∧ SameRegisters s t ∧ Advances s t (s.npc + 4) false ∧
      ∀ a, Memory.byte t.mem a = if a / 4 = ea / 4 then byteOf v (a % 4) else Memory.byte s.mem a)

/-- SWL: bytes `3..3-EA[1:0]` of rt become bytes `EA[1:0]..0` of the word; SWR: bytes `3-EA[1:0]..0` become bytes
`3..EA[1:0]`; nothing else changes (R294, R295; decision D16). -/
def Obligations.MergeStoreResults : Prop :=
  ∀ (rt base : Reg) (off : BitVec 16) (s : State), DataAccess s base off →
    let ea := (addressOf s base off).toNat
    let v := s.cell rt
    (∃ t, exec (.swl rt base off) s = .next t ∧ SameRegisters s t ∧ Advances s t (s.npc + 4) false ∧
      ∀ a, Memory.byte t.mem a =
        if a / 4 = ea / 4 ∧ a ≤ ea then byteOf v (3 - ea % 4 + a % 4) else Memory.byte s.mem a) ∧
    (∃ t, exec (.swr rt base off) s = .next t ∧ SameRegisters s t ∧ Advances s t (s.npc + 4) false ∧
      ∀ a, Memory.byte t.mem a =
        if a / 4 = ea / 4 ∧ ea ≤ a then byteOf v (a % 4 - ea % 4) else Memory.byte s.mem a)

/-- SC to data memory always stores rt's word and writes 1 to rt, whether or not an LL preceded it (R296, R112;
decisions D9, D17, D25). -/
def Obligations.StoreConditionalAlwaysSucceeds : Prop :=
  ∀ (rt base : Reg) (off : BitVec 16) (s : State), DataAccess s base off →
    ∃ t, exec (.sc rt base off) s = .next t ∧ OnlyRegister s t rt 1 ∧
      OnlyWord s t (wordKey (addressOf s base off)) (s.cell rt) ∧ Advances s t (s.npc + 4) false

/-- Under `LOW_ADDRESS_POLICY = fault` every load and store with `WA(EA) ≤ 32` raises InvalidMemoryAccess with its
opcode and effective address (R73, R280; decision D10). -/
def Obligations.LowAddressesFault : Prop :=
  ∀ (rt base : Reg) (off : BitVec 16) (s : State),
    s.params.lowAddressPolicy = .fault → wordKey (addressOf s base off) ≤ 32 →
    let fails (i : Instr) (op : Opcode) : Prop := exec i s = .fault (.invalidMemoryAccess op (addressOf s base off))
    fails (.lb rt base off) .lb ∧ fails (.lbu rt base off) .lbu ∧ fails (.lh rt base off) .lh ∧
    fails (.lhu rt base off) .lhu ∧ fails (.lw rt base off) .lw ∧ fails (.lwl rt base off) .lwl ∧
    fails (.lwr rt base off) .lwr ∧ fails (.ll rt base off) .ll ∧ fails (.sb rt base off) .sb ∧
    fails (.sh rt base off) .sh ∧ fails (.sw rt base off) .sw ∧ fails (.swl rt base off) .swl ∧
    fails (.swr rt base off) .swr ∧ fails (.sc rt base off) .sc

/-- Under `LOW_ADDRESS_POLICY = alias` a store to a low address writes the register cell at its word key as a data word,
the word merged as the form's rule says, register 0 staying 0; SC writes 1 to rt after it (R73, R291 to R296; decisions D9,
D10, D16). -/
def Obligations.LowStoresAliasRegisters : Prop :=
  ∀ (rt base : Reg) (off : BitVec 16) (s : State),
    s.params.lowAddressPolicy = .aliased → wordKey (addressOf s base off) ≤ 32 →
    let wa := wordKey (addressOf s base off)
    let o := (addressOf s base off).toNat % 4
    let m := accessedWord s base off
    let writes (i : Instr) (v : Word) : Prop :=
      ∃ t, exec i s = .next t ∧ OnlyRegister s t wa v ∧ SameMemory s t ∧ Advances s t (s.npc + 4) false
    writes (.sw rt base off) (s.cell rt) ∧
    (∃ v, writes (.sb rt base off) v ∧
      ∀ i, i < 4 → byteOf v i = if i = o then byteOf (s.cell rt) 0 else byteOf m i) ∧
    (∃ v, writes (.sh rt base off) v ∧
      ∀ i, i < 4 → byteOf v i = if i / 2 = o / 2 then byteOf (s.cell rt) (i % 2) else byteOf m i) ∧
    (∃ v, writes (.swl rt base off) v ∧
      ∀ i, i < 4 → byteOf v i = if i ≤ o then byteOf (s.cell rt) (3 - o + i) else byteOf m i) ∧
    (∃ v, writes (.swr rt base off) v ∧
      ∀ i, i < 4 → byteOf v i = if o ≤ i then byteOf (s.cell rt) (i - o) else byteOf m i) ∧
    (∃ t, exec (.sc rt base off) s = .next t ∧ SameMemory s t ∧ Advances s t (s.npc + 4) false ∧
      ∀ j, j < 34 → t.cell j =
        if j = rt then storedValue rt 1 else if j = wa then storedValue wa (s.cell rt) else s.cell j)

/-! ### Branches and jumps (43_branch, 44_jump) -/

/-- A branch takes `nnpc = npc + 4·offset` when its condition holds, else `npc + 4`, writes nothing, and has a delay slot
either way (R320 to R326; decisions D4, D23). -/
def Obligations.BranchTargets : Prop :=
  ∀ (rs rt : Reg) (off : BitVec 16) (s : State),
    let dest (taken : Bool) : Word := if taken then s.npc + off.signExtend 32 * 4 else s.npc + 4
    Transfers (.beq rs rt off) s (dest (s.cell rs == s.cell rt)) ∧
    Transfers (.bne rs rt off) s (dest (s.cell rs != s.cell rt)) ∧
    Transfers (.blez rs off) s (dest ((s.cell rs).msb || s.cell rs == 0)) ∧
    Transfers (.bgtz rs off) s (dest (!(s.cell rs).msb && s.cell rs != 0)) ∧
    Transfers (.bltz rs off) s (dest (s.cell rs).msb) ∧
    Transfers (.bgez rs off) s (dest !(s.cell rs).msb)

/-- JR and JALR go to the register's value, read before the link is written; BAL goes to `npc + 4·offset`; the link is
`npc + 4`, and JALR with rd = 0 writes none (R340, R343, R344, R345; decisions D6, D24, D34). -/
def Obligations.RegisterAndRelativeJumps : Prop :=
  ∀ (rd rs : Reg) (off : BitVec 16) (s : State),
    Transfers (.jr rs) s (s.cell rs) ∧
    Links (.jalr rd rs) s rd (s.cell rs) ∧
    Links (.bal off) s 31 (s.npc + off.signExtend 32 * 4)

/-- J and JAL go to the 26-bit index, shifted by two, in the 256 MiB region of `npc`; in a high region they are refused
under the default `JUMPI_HIGH_SEGMENT` (R341, R342; decisions D6, D7). -/
def Obligations.ImmediateJumps : Prop :=
  ∀ (index : BitVec 26) (s : State),
    (s.npc.toNat < 2 ^ 28 ∨ s.params.jumpiHighSegment = .mips32 →
      Transfers (.j index) s (s.npc.extractLsb' 28 4 ++ index ++ 0#2 : BitVec 32) ∧
      Links (.jal index) s 31 (s.npc.extractLsb' 28 4 ++ index ++ 0#2 : BitVec 32)) ∧
    (2 ^ 28 ≤ s.npc.toNat → s.params.jumpiHighSegment = .refuse →
      exec (.j index) s = .refused .jumpiHighSegment ∧ exec (.jal index) s = .refused .jumpiHighSegment)

/-- R52 with R39 and R54: whatever completes, SYSCALL apart, moves `pc` to `npc` and the clocks by 5 and 1; `npc` moves
to `npc + 4` unless it is a branch or jump; exactly those set `next_is_delayslot`. -/
def Obligations.PcAndClockAdvance : Prop :=
  ∀ (i : Instr) (s t : State), exec i s = .next t →
    t.nextIsDelayslot = i.isTransfer ∧ t.globalClk = s.globalClk + 1 ∧
    (i.isSyscall = false → t.pc = s.npc ∧ t.clk = s.clk + 5 ∧ (i.isTransfer = false → t.npc = s.npc + 4))

/-- R327, R328: after a branch or jump `i` that a step ran, `pc` is the old `npc` and `npc` is `i`'s target (or `npc + 4` for a
branch not taken); the next step runs the instruction at that old `npc`, the delay slot, with its full effects; after it `pc`
is `i`'s target, and `npc` the word after that target, or, where a branch or jump sits in the slot, that one's own target,
computed in the state after `i`, whose `npc` is `i`'s target (decision D23). A SYSCALL in the slot is taken with an answer that
does not override the pc update (R380). -/
def Obligations.DelaySlotThenTarget : Prop :=
  ∀ (i d : Instr) (s t : State) (w w' : Word), i.isTransfer = true →
    s.fetch = .slot (.word w) → decode w = .instr i → step s = .next t →
    t.pc = s.npc ∧ t.npc = i.target s ∧ t.nextIsDelayslot = true ∧
    (t.done = false → (s.npc.toNat - s.pcBase.toNat) % 4 = 0 →
      s.program[(s.npc.toNat - s.pcBase.toNat) / 4]? = some (.word w') → decode w' = .instr d →
      (step t = match exec d t with
        | .next v => closeCycle v
        | .fault e => .fault e
        | .refused e => .refused e) ∧
      (∀ u, step t = .next u →
        (d.isSyscall = true → ∃ resp rest, t.hostAnswer (t.cell 2) (t.cell 4) = some (resp, rest) ∧ resp.jump = none) →
        u.pc = i.target s ∧ u.npc = d.target t ∧ (d.isTransfer = false → u.npc = i.target s + 4)))

/-! ### Misc (45_misc) -/

/-- MOVZ and MOVN move rs to rd on their condition, else leave rd; SEB and SEH sign-extend the low byte and halfword;
WSBH swaps the bytes of each halfword (R360 to R364; decision D33 for the moves). -/
def Obligations.MovesExtensionsAndSwap : Prop :=
  ∀ (rd rs rt : Reg) (s : State),
    Computes (.movz rd rs rt) s rd (if s.cell rt = 0 then s.cell rs else s.cell rd) ∧
    Computes (.movn rd rs rt) s rd (if s.cell rt = 0 then s.cell rd else s.cell rs) ∧
    Computes (.seb rd rt) s rd (((s.cell rt).setWidth 8).signExtend 32) ∧
    Computes (.seh rd rt) s rd (((s.cell rt).setWidth 16).signExtend 32) ∧
    (∃ v : Word, Computes (.wsbh rd rt) s rd v ∧ byteOf v 0 = byteOf (s.cell rt) 1 ∧
      byteOf v 1 = byteOf (s.cell rt) 0 ∧ byteOf v 2 = byteOf (s.cell rt) 3 ∧ byteOf v 3 = byteOf (s.cell rt) 2)

/-- EXT moves bits `[lsb, lsb + msbd]` of rs to the bottom of rt, zeros above; refused when the field runs past bit 31
(R365; decisions D4, D22). -/
def Obligations.ExtractField : Prop :=
  ∀ (rt rs : Reg) (msbd lsb : BitVec 5) (s : State),
    (lsb.toNat + msbd.toNat ≤ 31 → ∃ v : Word, Computes (.ext rt rs msbd lsb) s rt v ∧
      ∀ i, i < 32 → v.getLsbD i = (decide (i ≤ msbd.toNat) && (s.cell rs).getLsbD (i + lsb.toNat))) ∧
    (31 < lsb.toNat + msbd.toNat → exec (.ext rt rs msbd lsb) s = .refused .unpredictableExt)

/-- INS replaces bits `[lsb, msb]` of rt's prior value by the low bits of rs; refused when `msb < lsb` (R366; decisions
D4, D22). -/
def Obligations.InsertField : Prop :=
  ∀ (rt rs : Reg) (msb lsb : BitVec 5) (s : State),
    (lsb.toNat ≤ msb.toNat → ∃ v : Word, Computes (.ins rt rs msb lsb) s rt v ∧
      ∀ i, i < 32 → v.getLsbD i =
        if lsb.toNat ≤ i ∧ i ≤ msb.toNat then (s.cell rs).getLsbD (i - lsb.toNat) else (s.cell rt).getLsbD i) ∧
    (msb.toNat < lsb.toNat → exec (.ins rt rs msb lsb) s = .refused .unpredictableIns)

/-- TEQ raises Trap with its pc when its registers are equal, else changes nothing (R367; decision D12). -/
def Obligations.TrapIfEqual : Prop :=
  ∀ (rs rt : Reg) (code : BitVec 10) (s : State),
    (s.cell rs = s.cell rt → exec (.teq rs rt code) s = .fault (.trap s.pc)) ∧
    (s.cell rs ≠ s.cell rt → NoEffect (.teq rs rt code) s)

/-! ### System (46_system) -/

/-- SYSCALL completes with a response that carries no fault, reads cells and writes data words only, keeps its cost bound and
halts with no nonzero code: V0 gets the return value or keeps the code, the handler's words are written in order, and
`extra`, `halt` and `jump` take effect (R380, R381; decisions D20, D35; the port's answers are assumption log 4). -/
def Obligations.SyscallCompletes : Prop :=
  ∀ (code : BitVec 20) (s : State) (resp : Response) (rest : List (Word × Response)),
    s.hostAnswer (s.cell 2) (s.cell 4) = some (resp, rest) → resp.fault = none → resp.writesData = true →
    resp.readsCells = true →
    resp.extra.toNat ≤ s.params.maxSyscallCycles.toNat → (resp.halt = none ∨ resp.halt = some 0) →
    ∃ t, exec (.syscall code) s = .next t ∧
      (∀ j, j < 34 → t.cell j = if j = 2 then resp.ret.getD (s.cell 2) else s.cell j) ∧
      t.mem = resp.writes.foldl (fun m e => Memory.setWord m e.1.toNat e.2) s.mem ∧
      (t.pc, t.npc) = resp.jump.getD (s.npc, s.npc + 4) ∧
      t.clk = s.clk + 5 + resp.extra ∧ t.globalClk = s.globalClk + 1 ∧ t.nextIsDelayslot = false ∧
      t.exited = (s.exited || resp.halt.isSome) ∧ t.exitCode = resp.halt.getD s.exitCode ∧
      t.hostAnswers = rest ∧ t.params = s.params ∧ t.program = s.program ∧ t.pcBase = s.pcBase ∧
      t.mode = s.mode ∧ t.currentShard = s.currentShard ∧ t.shardOracle = s.shardOracle ∧ t.outgoing = s.outgoing

/-- SYSCALL's stops (R380, R381, R403; decisions D20, D35, D40): no answer for the code raises UnsupportedSyscall, an answer
list used up counting as none (assumption log 4); then the fault the response carries; then a response that writes a register
cell or no multiple of 4, reads no cell (assumption log 4), or costs too much is refused; then a nonzero halt code raises
HaltWithNonZeroExitCode. That a carried fault goes before a refusal, and the refusals among themselves in this order, is the
model's choice (assumption log 19): R403 says only 'a fault or a refusal of the response'. -/
def Obligations.SyscallStops : Prop :=
  ∀ (code : BitVec 20) (s : State),
    (s.hostAnswer (s.cell 2) (s.cell 4) = none →
      exec (.syscall code) s = .fault (.unsupportedSyscall (s.cell 2))) ∧
    (∀ (resp : Response) (rest : List (Word × Response)),
      s.hostAnswer (s.cell 2) (s.cell 4) = some (resp, rest) →
      let writesOk : Prop := ∀ e ∈ resp.writes, 36 ≤ e.1.toNat ∧ e.1.toNat % 4 = 0
      let readsOk : Prop := ∀ k ∈ resp.reads, k.toNat < 34 ∨ (36 ≤ k.toNat ∧ k.toNat % 4 = 0)
      (∀ f, resp.fault = some f → exec (.syscall code) s = .fault (match f with
        | .invalidSyscallUsage => .invalidSyscallUsage (s.cell 2)
        | .unimplemented => .unimplemented
        | .endInUnconstrained => .endInUnconstrained)) ∧
      (resp.fault = none → ¬ writesOk → exec (.syscall code) s = .refused .hostWritesRegisters) ∧
      (resp.fault = none → writesOk → ¬ readsOk → exec (.syscall code) s = .refused .hostReadsNoCell) ∧
      (resp.fault = none → writesOk → readsOk → s.params.maxSyscallCycles.toNat < resp.extra.toNat →
        exec (.syscall code) s = .refused .hostExtraTooLarge) ∧
      (∀ k, resp.fault = none → writesOk → readsOk → resp.extra.toNat ≤ s.params.maxSyscallCycles.toNat →
        resp.halt = some k → k ≠ 0 → exec (.syscall code) s = .fault (.haltWithNonZeroExitCode k)))

/-- HALT (R382; decisions D20, D41, D42): its response halts with A0, returns nothing and writes nothing, whatever the port
holds; that it overrides no pc update is the model's choice (assumption log 4); without an answer of the port it costs nothing and carries no fault (assumption log 4). Where it carries no fault and
keeps the cost bound, with A0 = 0 the cycle completes, sets `exited`, keeps every register and byte, and the state is done; with
A0 ≠ 0 it raises HaltWithNonZeroExitCode(A0). Where the port's answer carries a fault, as for a HALT while unconstrained
(R383), that fault is raised. -/
def Obligations.HaltEndsTheRun : Prop :=
  ∀ (code : BitVec 20) (s : State), haltCode s.params.syscallCodes = some (s.cell 2) →
    ∃ resp rest, s.hostAnswer (s.cell 2) (s.cell 4) = some (resp, rest) ∧
      resp.halt = some (s.cell 4) ∧ resp.ret = none ∧ resp.writes = [] ∧ resp.jump = none ∧
      (takeAnswer s.hostAnswers (s.cell 2) = none → resp.fault = none ∧ resp.extra = 0) ∧
      (∀ r rest', takeAnswer s.hostAnswers (s.cell 2) = some (r, rest') → resp.fault = r.fault ∧ resp.extra = r.extra) ∧
      (∀ f, resp.fault = some f → exec (.syscall code) s = .fault (hostFault (s.cell 2) f)) ∧
      (resp.fault = none → resp.extra.toNat ≤ s.params.maxSyscallCycles.toNat →
        (s.cell 4 = 0 → ∃ t, exec (.syscall code) s = .next t ∧ t.exited = true ∧ t.exitCode = 0 ∧ t.done = true ∧
          SameRegisters s t ∧ SameMemory s t ∧ t.pc = s.npc ∧ t.npc = s.npc + 4 ∧ t.clk = s.clk + 5 + resp.extra) ∧
        (s.cell 4 ≠ 0 → exec (.syscall code) s = .fault (.haltWithNonZeroExitCode (s.cell 4))))

/-- BREAK raises Breakpoint, whatever its code (R384; decision D13). -/
def Obligations.BreakRaisesBreakpoint : Prop :=
  ∀ (code : BitVec 20) (s : State), exec (.brk code) s = .fault .breakpoint

/-- R385: an UNIMPL, a word that decodes to it or a record of the program that is one, faults with UnsupportedInstruction
carrying its raw word when it is fetched and executed. -/
def Obligations.UnimplFaultsWhenExecuted : Prop :=
  (∀ (s : State) (w raw : Word), s.fetch = .slot (.word w) → decode w = .unimpl raw →
    step s = .fault (.unsupportedInstruction w)) ∧
  (∀ (s : State) (r : Record) (raw : Word), s.fetch = .slot (.record r) → r.opcode = .unimpl → r.raw = some raw →
    step s = .fault (.unsupportedInstruction raw))

/-! ### The cycle (10_state) -/

/-- A step runs the decoded instruction: in a state that is not done, with an aligned pc at a place that holds a word
decoding to `i`, the step is `exec i`, and where that gives a next state, the cycle-limit and shard checks of
`closeCycle` on it; a place that holds a record runs the record (R50, R51, R460). -/
def Obligations.StepRunsDecodedInstruction : Prop :=
  ∀ s : State, s.done = false → (s.pc.toNat - s.pcBase.toNat) % 4 = 0 →
    (∀ (w : Word) (i : Instr), s.program[(s.pc.toNat - s.pcBase.toNat) / 4]? = some (.word w) →
      decode w = .instr i → step s = match exec i s with
        | .next t => closeCycle t
        | .fault e => .fault e
        | .refused e => .refused e) ∧
    (∀ r : Record, s.program[(s.pc.toNat - s.pcBase.toNat) / 4]? = some (.record r) →
      step s = match execRecord r s with
        | .next t => closeCycle t
        | .fault e => .fault e
        | .refused e => .refused e)

/-- A state is done when `pc` is 0, `exited` is set or `pc` lies outside the program, and then takes no further cycle: the
model's step leaves it (R58, decision D19; the step of a done state is assumption log 8). Otherwise a pc that is no
multiple of 4 from `pc_base` is refused (R53, decision D8), and every other pc names a place of the program (R51). -/
def Obligations.DoneAndMisalignedFetch : Prop :=
  ∀ s : State,
    (s.done = true ↔ s.pc = 0 ∨ s.exited = true ∨ s.pc.toNat < s.pcBase.toNat ∨
      s.pcBase.toNat + 4 * s.program.length ≤ s.pc.toNat) ∧
    (s.done = true → step s = .next s) ∧
    (s.done = false → (s.pc.toNat - s.pcBase.toNat) % 4 ≠ 0 → step s = .refused .misalignedFetch) ∧
    (s.done = false → (s.pc.toNat - s.pcBase.toNat) % 4 = 0 → ∃ x, s.fetch = .slot x ∧
      s.program[(s.pc.toNat - s.pcBase.toNat) / 4]? = some x)

/-- R56: with `max_cycles` configured, a completed cycle that leaves `global_clk ≥ max_cycles` ends the run with
ExceededCycleLimit, which reports the state after that cycle (R402); otherwise the cycle is closed and the run goes on,
a branch's delay slot included (decisions D21, D40). -/
def Obligations.CycleLimit : Prop :=
  ∀ s t : State, s.done = false →
    (∀ (w : Word) (i : Instr), s.fetch = .slot (.word w) → decode w = .instr i → exec i s = .next t →
      (∀ m, t.params.maxCycles = some m → m ≤ t.globalClk → step s = .fault (.exceededCycleLimit m t)) ∧
      ((t.params.maxCycles = none ∨ ∃ m, t.params.maxCycles = some m ∧ t.globalClk < m) →
        ∃ u, step s = .next u))

/-- R57: where the cycle limit does not stop the run, a boundary falls after the cycle exactly when no delay slot follows
and the shard is full or the oracle says so; it moves to the next shard, clears `clk`, and closes the shard's events and
local accesses into the outgoing record; it changes no register, memory value, pc or `global_clk` (decision D28; the
oracle's list is assumption log 5, the comparison's arithmetic log 9). -/
def Obligations.ShardBoundary : Prop :=
  ∀ t : State, (t.params.maxCycles = none ∨ ∃ m, t.params.maxCycles = some m ∧ t.globalClk < m) →
    ∃ u, closeCycle t = .next u ∧ SameRegisters t u ∧ SameMemory t u ∧ u.pc = t.pc ∧ u.npc = t.npc ∧
      u.globalClk = t.globalClk ∧ u.touched = t.touched ∧ u.shardOracle = t.shardOracle.tail ∧
      (if t.nextIsDelayslot = false ∧
          (t.params.shardSize ≤ t.clk + t.params.maxSyscallCycles ∨ t.shardOracle.head? = some true)
       then u.currentShard = t.currentShard + 1 ∧ u.clk = 0 ∧ u.localAccess = [] ∧ u.cpuEvents = [] ∧
          u.familyEvents = [] ∧ u.outgoing = t.outgoing ++
            [{ shard := t.currentShard, cpuEvents := t.cpuEvents, familyEvents := t.familyEvents
               localEvents := t.localAccess }]
       else u.currentShard = t.currentShard ∧ u.clk = t.clk ∧ u.localAccess = t.localAccess ∧
          u.cpuEvents = t.cpuEvents ∧ u.familyEvents = t.familyEvents ∧ u.outgoing = t.outgoing)

/-- Delay-slot cohesion (R57, R329; 8.1 of the source): a step that leaves a delay slot pending stays in its shard. -/
def Obligations.BranchAndDelaySlotShareShard : Prop :=
  ∀ s t : State, step s = .next t → t.nextIsDelayslot = true → t.currentShard = s.currentShard

/-! ### The recording interface (20_memory) -/

/-- R31: register 0 is hard-wired to zero: a write to it at any position records the value 0 and leaves its entry 0; after
any instruction the entry is 0 if it was before. That a read gives 0 in every state, whatever is stored, is the model's reading
(assumption log 10): R31 gives it under the launch premise. -/
def Obligations.RegisterZero : Prop :=
  (∀ s : State, s.cell 0 = 0) ∧
  (∀ (x : Cycle) (pos : Position) (v : Word), ∃ r : WriteRecord, (x.write pos 0 v).acc.at pos = some (.write r) ∧
    r.value = 0 ∧ (x.write pos 0 v).st.regs[0] = 0) ∧
  (∀ (i : Instr) (s t : State), exec i s = .next t → s.regs[0] = 0 → t.regs[0] = 0)

/-- R81, R82, R84: a read returns the cell's value and leaves every value, stamps the cell with the current shard and
`clk + POS_OFFSET(pos)`, leaves every other cell's record, and fills its slot with the read record. -/
def Obligations.ReadAccessRecord : Prop :=
  ∀ (x : Cycle) (pos : Position) (k : Nat),
    let old := x.st.record k
    let ts := x.st.clk + BitVec.ofNat 32 (x.st.params.posOffset.at pos).val
    (x.read pos k).st.record k = { value := x.st.cell k, shard := x.st.currentShard, timestamp := ts } ∧
    (∀ j, (x.read pos k).st.cell j = x.st.cell j) ∧
    (∀ j, j ≠ k → (x.read pos k).st.record j = x.st.record j) ∧
    (x.read pos k).acc.at pos = some (.read
      { value := x.st.cell k, shard := x.st.currentShard, timestamp := ts
        prevShard := old.shard, prevTimestamp := old.timestamp }) ∧
    (∀ q, q ≠ pos → (x.read pos k).acc.at q = x.acc.at q)

/-- R83: a write makes the record `(v', current_shard, clk + POS_OFFSET(pos))` with `v' = 0` at key 0 and `v' = v` at any
other key (the write of R86), leaves every other cell of the store and its record, and fills its slot with the write
record: the new record and the whole previous one. -/
def Obligations.WriteAccessRecord : Prop :=
  ∀ (x : Cycle) (pos : Position) (k : Nat) (v : Word), validKey k →
    let old := x.st.record k
    let new : MemoryRecord :=
      { value := if k = 0 then 0 else v, shard := x.st.currentShard
        timestamp := x.st.clk + BitVec.ofNat 32 (x.st.params.posOffset.at pos).val }
    (x.write pos k v).st.record k = new ∧
    (∀ j, validKey j → j ≠ k → (x.write pos k v).st.record j = x.st.record j) ∧
    (x.write pos k v).acc.at pos = some (.write
      { value := new.value, shard := new.shard, timestamp := new.timestamp
        prevValue := old.value, prevShard := old.shard, prevTimestamp := old.timestamp }) ∧
    (∀ q, q ≠ pos → (x.write pos k v).acc.at q = x.acc.at q)

/-- R89, R90: every access, at a position of a cycle or by a syscall handler, is tracked in the local access map: the record
the cell held before a key's first access in the shard, kept from then on, and the record it holds after the latest one;
`local_mem` counts a key's first touch in the shard and every access made from a syscall context, a handler's first touch
counting once (assumption log 3). That a handler's read replaces its cell's record and enters the map, as the `hostRead`
clause says, is the model's choice (assumption log 4). -/
def Obligations.LocalAccessMap : Prop :=
  (∀ (x : Cycle) (pos : Position) (k : Nat), TracksAccess false k x.st (x.read pos k).st) ∧
  (∀ (x : Cycle) (pos : Position) (k : Nat) (v : Word), TracksAccess false k x.st (x.write pos k v).st) ∧
  (∀ (x : Cycle) (k : Word), TracksAccess true k.toNat x.st (x.hostRead k).st) ∧
  (∀ (x : Cycle) (k v : Word), TracksAccess true k.toNat x.st (x.hostWrite (k, v)).st)

/-- R85: in Trace mode a completed instruction's CpuEvent has the accesses of its row of the position table, each position
at most once, and carries the cycle's `clk`, `pc` and `npc` (R95; decisions D17, D33, D34, D37); in one cycle different
positions have different timestamps, `POS_OFFSET` being injective (R84, decision D17). -/
def Obligations.PositionTable : Prop :=
  (∀ (i : Instr) (s t : State), s.mode = .trace → exec i s = .next t →
    ∃ e : CpuEvent, t.cpuEvents = s.cpuEvents ++ [e] ∧ e.accesses.positions = i.positions ∧
      e.clk = s.clk ∧ e.pc = s.pc ∧ e.nextPc = s.npc ∧
      (i.isSyscall = false → e.nextNextPc = t.npc) ∧ e.a = (e.accesses.a.map Access.value).getD 0 ∧
      (e.hi.isSome = true ↔ i.positions.hi = .write)) ∧
  (∀ (s : State) (p q : Position), s.timestamp p = s.timestamp q → p = q)

/-- R102: in Trace mode every step that executes a word adds exactly one CpuEvent and one primary family event to all
records together, boundary or not; in the other modes none (decision D37; a step of a done state executes nothing). -/
def Obligations.EventsMatchCycles : Prop :=
  ∀ s t : State, step s = .next t → s.done = false →
    (s.mode = .trace → t.cpuEventCount = s.cpuEventCount + 1 ∧ t.primaryEventCount = s.primaryEventCount + 1) ∧
    (s.mode ≠ .trace → t.cpuEventCount = s.cpuEventCount ∧ t.primaryEventCount = s.primaryEventCount)

/-! ### Launch, invariants and whole-machine rules -/

/-- The launch (R440, R60, R77): refused when a premise of R8 fails; else every register and data word starts at its image
value or 0, with the record `(value, 0, 0)` until touched, and the control state at its reset values (decisions D18,
D32, D36). State.reset is the launch with the choices of assumption log 1 and 2. -/
def Obligations.LaunchState : Prop :=
  launch .default = .next State.reset ∧
  ∀ l : Launch,
    (¬ (l.pcBase.toNat % 4 = 0 ∧ l.pcBase ≠ 0 ∧ l.pcBase.toNat + 4 * l.program.length ≤ 2 ^ 32 ∧ l.imageWord 0 = 0) →
      launch l = .refused .launchPremise) ∧
    (l.pcBase.toNat % 4 = 0 → l.pcBase ≠ 0 → l.pcBase.toNat + 4 * l.program.length ≤ 2 ^ 32 → l.imageWord 0 = 0 →
      ∃ s, launch l = .next s ∧
        (∀ k, validKey k → s.record k = { value := l.imageWord k, shard := 0, timestamp := 0 }) ∧
        s.pc = l.pcStart ∧ s.npc = l.nextPcInit ∧ s.nextIsDelayslot = false ∧ s.clk = 0 ∧ s.globalClk = 0 ∧
        s.currentShard = l.params.initialShard ∧ s.exited = false ∧ s.exitCode = 0 ∧ s.localAccess = [] ∧
        s.program = l.program ∧ s.pcBase = l.pcBase ∧ s.params = l.params ∧ s.mode = l.mode)

/-- The invariant holds at reset and after every accepted launch. -/
def Obligations.InvariantAtLaunch : Prop :=
  Inv State.reset ∧ ∀ (l : Launch) (s : State), launch l = .next s → Inv s

/-- Every step keeps the invariant: memory and maps canonical, register cell 0 zero, every local record the cell's present
record of the current shard, exit code 0 (R31, R80, R90, R43, R450). -/
def Obligations.StepKeepsInvariant : Prop :=
  ∀ s t : State, Inv s → step s = .next t → Inv t

/-- The program, its base, the parameters and the mode never change: no store, no syscall and no boundary reaches what is
fetched (R46, R113, R49; decision D31), and `global_clk` moves by one a cycle (R41, R54). -/
def Obligations.ProgramIsImmutable : Prop :=
  ∀ s t : State, step s = .next t →
    t.program = s.program ∧ t.pcBase = s.pcBase ∧ t.params = s.params ∧ t.mode = s.mode ∧
    (s.done = false → t.globalClk = s.globalClk + 1)

/-- Writes to HI and LO are made only by the multiplicative group, MTHI and MTLO, while no store can alias them (R32, R34;
decision D11); every other instruction that completes leaves both. -/
def Obligations.OnlyMultiplicativeWritesHiLo : Prop :=
  ∀ (i : Instr) (s t : State), i.writesHiLo = false → s.params.lowAddressPolicy = .fault → exec i s = .next t →
    t.cell 32 = s.cell 32 ∧ t.cell 33 = s.cell 33

/-- Memory changes only by stores and SYSCALL, `exited` and the exit code only by SYSCALL (R43, R78, R79). -/
def Obligations.OnlyStoresChangeMemory : Prop :=
  ∀ (i : Instr) (s t : State), i.isSyscall = false → exec i s = .next t →
    (i.isStore = false → SameMemory s t) ∧ t.exited = s.exited ∧ t.exitCode = s.exitCode ∧ t.hostAnswers = s.hostAnswers

/-- No record, counter, event, shard, timestamp, mode or boundary changes an architectural result: two states with the
same architectural part step to outcomes with the same architectural part (R48, R49, R467; decision D39). -/
def Obligations.RecordingIsInvisible : Prop :=
  ∀ s s' : State, s.arch = s'.arch → SameOutcome (step s) (step s')
end

