-- ==== Sys2Proof/Laws/Encode.lean ====
section
/-! SUPPORT. The fields of an encoded word, the encoded word under a mask, and a word put together from its own fields. -/

namespace Sys2Proof

@[simp] theorem Reg.bits_toFin (v : BitVec 5) : Reg.bits v.toFin = v := rfl
@[simp] theorem Reg.toFin_bits (r : Reg) : (Reg.bits r).toFin = r := rfl

section
variable (op : BitVec 6) (rs rt rd : Reg) (sa : BitVec 5) (funct : BitVec 6)

@[simp] theorem encodeR_opcode : (encodeR op rs rt rd sa funct).opcode = op := by
  unfold Word.opcode encodeR
  rw [BitVec.extractLsb'_append_eq_of_le (by omega),
    BitVec.extractLsb'_append_eq_of_le (by omega),
    BitVec.extractLsb'_append_eq_of_le (by omega),
    BitVec.extractLsb'_append_eq_of_le (by omega),
    BitVec.extractLsb'_append_eq_of_le (by omega)]
  simp

@[simp] theorem encodeR_rs : (encodeR op rs rt rd sa funct).rs = rs := by
  unfold Word.rs encodeR
  rw [BitVec.extractLsb'_append_eq_of_le (by omega),
    BitVec.extractLsb'_append_eq_of_le (by omega),
    BitVec.extractLsb'_append_eq_of_le (by omega),
    BitVec.extractLsb'_append_eq_of_le (by omega),
    BitVec.extractLsb'_append_eq_of_add_le (by omega)]
  simp

@[simp] theorem encodeR_rt : (encodeR op rs rt rd sa funct).rt = rt := by
  unfold Word.rt encodeR
  rw [BitVec.extractLsb'_append_eq_of_le (by omega),
    BitVec.extractLsb'_append_eq_of_le (by omega),
    BitVec.extractLsb'_append_eq_of_le (by omega),
    BitVec.extractLsb'_append_eq_of_add_le (by omega)]
  simp

@[simp] theorem encodeR_rd : (encodeR op rs rt rd sa funct).rd = rd := by
  unfold Word.rd encodeR
  rw [BitVec.extractLsb'_append_eq_of_le (by omega),
    BitVec.extractLsb'_append_eq_of_le (by omega),
    BitVec.extractLsb'_append_eq_of_add_le (by omega)]
  simp

@[simp] theorem encodeR_sa : (encodeR op rs rt rd sa funct).sa = sa := by
  unfold Word.sa encodeR
  rw [BitVec.extractLsb'_append_eq_of_le (by omega),
    BitVec.extractLsb'_append_eq_of_add_le (by omega)]
  simp

@[simp] theorem encodeR_funct : (encodeR op rs rt rd sa funct).funct = funct := by
  unfold Word.funct encodeR
  rw [BitVec.extractLsb'_append_eq_of_add_le (by omega)]
  simp

end

section
variable (op : BitVec 6) (rs rt : Reg) (imm : BitVec 16)

@[simp] theorem encodeI_opcode : (encodeI op rs rt imm).opcode = op := by
  unfold Word.opcode encodeI
  rw [BitVec.extractLsb'_append_eq_of_le (by omega),
    BitVec.extractLsb'_append_eq_of_le (by omega),
    BitVec.extractLsb'_append_eq_of_le (by omega)]
  simp

@[simp] theorem encodeI_rs : (encodeI op rs rt imm).rs = rs := by
  unfold Word.rs encodeI
  rw [BitVec.extractLsb'_append_eq_of_le (by omega),
    BitVec.extractLsb'_append_eq_of_le (by omega),
    BitVec.extractLsb'_append_eq_of_add_le (by omega)]
  simp

@[simp] theorem encodeI_rt : (encodeI op rs rt imm).rt = rt := by
  unfold Word.rt encodeI
  rw [BitVec.extractLsb'_append_eq_of_le (by omega),
    BitVec.extractLsb'_append_eq_of_add_le (by omega)]
  simp

@[simp] theorem encodeI_imm : (encodeI op rs rt imm).imm = imm := by
  unfold Word.imm encodeI
  rw [BitVec.extractLsb'_append_eq_of_add_le (by omega)]
  simp

end

section
variable (op : BitVec 6) (index : BitVec 26)

@[simp] theorem encodeJ_opcode : (encodeJ op index).opcode = op := by
  unfold Word.opcode encodeJ
  rw [BitVec.extractLsb'_append_eq_of_le (by omega)]
  simp

@[simp] theorem encodeJ_index : (encodeJ op index).index = index := by
  unfold Word.index encodeJ
  rw [BitVec.extractLsb'_append_eq_of_add_le (by omega)]
  simp

end

section
variable (code : BitVec 20) (funct : BitVec 6)

@[simp] theorem encodeCode20_opcode : (encodeCode20 code funct).opcode = 0 := by
  unfold Word.opcode encodeCode20
  rw [BitVec.extractLsb'_append_eq_of_le (by omega),
    BitVec.extractLsb'_append_eq_of_le (by omega)]
  simp

@[simp] theorem encodeCode20_code20 : (encodeCode20 code funct).code20 = code := by
  unfold Word.code20 encodeCode20
  rw [BitVec.extractLsb'_append_eq_of_le (by omega),
    BitVec.extractLsb'_append_eq_of_add_le (by omega)]
  simp

@[simp] theorem encodeCode20_funct : (encodeCode20 code funct).funct = funct := by
  unfold Word.funct encodeCode20
  rw [BitVec.extractLsb'_append_eq_of_add_le (by omega)]
  simp

end

section
variable (rs rt : Reg) (code : BitVec 10) (funct : BitVec 6)

@[simp] theorem encodeCode10_opcode : (encodeCode10 rs rt code funct).opcode = 0 := by
  unfold Word.opcode encodeCode10
  rw [BitVec.extractLsb'_append_eq_of_le (by omega),
    BitVec.extractLsb'_append_eq_of_le (by omega),
    BitVec.extractLsb'_append_eq_of_le (by omega),
    BitVec.extractLsb'_append_eq_of_le (by omega)]
  simp

@[simp] theorem encodeCode10_rs : (encodeCode10 rs rt code funct).rs = rs := by
  unfold Word.rs encodeCode10
  rw [BitVec.extractLsb'_append_eq_of_le (by omega),
    BitVec.extractLsb'_append_eq_of_le (by omega),
    BitVec.extractLsb'_append_eq_of_le (by omega),
    BitVec.extractLsb'_append_eq_of_add_le (by omega)]
  simp

@[simp] theorem encodeCode10_rt : (encodeCode10 rs rt code funct).rt = rt := by
  unfold Word.rt encodeCode10
  rw [BitVec.extractLsb'_append_eq_of_le (by omega),
    BitVec.extractLsb'_append_eq_of_le (by omega),
    BitVec.extractLsb'_append_eq_of_add_le (by omega)]
  simp

@[simp] theorem encodeCode10_code10 : (encodeCode10 rs rt code funct).code10 = code := by
  unfold Word.code10 encodeCode10
  rw [BitVec.extractLsb'_append_eq_of_le (by omega),
    BitVec.extractLsb'_append_eq_of_add_le (by omega)]
  simp

@[simp] theorem encodeCode10_funct : (encodeCode10 rs rt code funct).funct = funct := by
  unfold Word.funct encodeCode10
  rw [BitVec.extractLsb'_append_eq_of_add_le (by omega)]
  simp

end

/-! ### Under a mask -/

theorem encodeR_and (op m1 : BitVec 6) (rs rt rd : Reg) (sa m2 m3 m4 m5 : BitVec 5) (funct m6 : BitVec 6) :
    encodeR op rs rt rd sa funct &&& (m1 ++ m2 ++ m3 ++ m4 ++ m5 ++ m6 : BitVec 32) =
      ((op &&& m1) ++ (rs.bits &&& m2) ++ (rt.bits &&& m3) ++ (rd.bits &&& m4) ++ (sa &&& m5) ++ (funct &&& m6) :
        BitVec 32) := by
  unfold encodeR
  rw [BitVec.and_append, BitVec.and_append, BitVec.and_append, BitVec.and_append, BitVec.and_append]

theorem encodeI_and (op m1 : BitVec 6) (rs rt : Reg) (m2 m3 : BitVec 5) (imm m4 : BitVec 16) :
    encodeI op rs rt imm &&& (m1 ++ m2 ++ m3 ++ m4 : BitVec 32) =
      ((op &&& m1) ++ (rs.bits &&& m2) ++ (rt.bits &&& m3) ++ (imm &&& m4) : BitVec 32) := by
  unfold encodeI
  rw [BitVec.and_append, BitVec.and_append, BitVec.and_append]

theorem encodeJ_and (op m1 : BitVec 6) (index m2 : BitVec 26) :
    encodeJ op index &&& (m1 ++ m2 : BitVec 32) = ((op &&& m1) ++ (index &&& m2) : BitVec 32) := by
  unfold encodeJ
  rw [BitVec.and_append]

theorem encodeCode20_and (code m2 : BitVec 20) (funct m1 m3 : BitVec 6) :
    encodeCode20 code funct &&& (m1 ++ m2 ++ m3 : BitVec 32) =
      ((0#6 &&& m1) ++ (code &&& m2) ++ (funct &&& m3) : BitVec 32) := by
  unfold encodeCode20
  rw [BitVec.and_append, BitVec.and_append]

theorem encodeCode10_and (rs rt : Reg) (m2 m3 : BitVec 5) (code m4 : BitVec 10) (funct m1 m5 : BitVec 6) :
    encodeCode10 rs rt code funct &&& (m1 ++ m2 ++ m3 ++ m4 ++ m5 : BitVec 32) =
      ((0#6 &&& m1) ++ (rs.bits &&& m2) ++ (rt.bits &&& m3) ++ (code &&& m4) ++ (funct &&& m5) : BitVec 32) := by
  unfold encodeCode10
  rw [BitVec.and_append, BitVec.and_append, BitVec.and_append, BitVec.and_append]

end Sys2Proof
end

