-- ==== Sys2Proof/Laws/Exec.lean ====
section
/-! SUPPORT. One equation per instruction: the shared operation its arm of `exec` is. Later proofs rewrite with these and
cite the laws of the operations in Laws/Ops. -/

namespace Sys2Proof.Machine

variable (s : State)

theorem exec_add (rd rs rt : Reg) :
    exec (.add rd rs rt) s =
      compute .add (fun b c => b + c) rd (.reg rs) (.reg rt) s := rfl

theorem exec_addu (rd rs rt : Reg) :
    exec (.addu rd rs rt) s =
      compute .add (fun b c => b + c) rd (.reg rs) (.reg rt) s := rfl

theorem exec_addi (rt rs : Reg) (imm : BitVec 16) :
    exec (.addi rt rs imm) s =
      compute .add (fun b c => b + c) rt (.reg rs) (.imm (sext16 imm)) s := rfl

theorem exec_addiu (rt rs : Reg) (imm : BitVec 16) :
    exec (.addiu rt rs imm) s =
      compute .add (fun b c => b + c) rt (.reg rs) (.imm (sext16 imm)) s := rfl

theorem exec_sub (rd rs rt : Reg) :
    exec (.sub rd rs rt) s =
      compute .sub (fun b c => b - c) rd (.reg rs) (.reg rt) s := rfl

theorem exec_subu (rd rs rt : Reg) :
    exec (.subu rd rs rt) s =
      compute .sub (fun b c => b - c) rd (.reg rs) (.reg rt) s := rfl

theorem exec_and (rd rs rt : Reg) :
    exec (.and rd rs rt) s =
      compute .and (fun b c => b &&& c) rd (.reg rs) (.reg rt) s := rfl

theorem exec_andi (rt rs : Reg) (imm : BitVec 16) :
    exec (.andi rt rs imm) s =
      compute .and (fun b c => b &&& c) rt (.reg rs) (.imm (zext16 imm)) s := rfl

theorem exec_or (rd rs rt : Reg) :
    exec (.or rd rs rt) s =
      compute .or (fun b c => b ||| c) rd (.reg rs) (.reg rt) s := rfl

theorem exec_ori (rt rs : Reg) (imm : BitVec 16) :
    exec (.ori rt rs imm) s =
      compute .or (fun b c => b ||| c) rt (.reg rs) (.imm (zext16 imm)) s := rfl

theorem exec_xor (rd rs rt : Reg) :
    exec (.xor rd rs rt) s =
      compute .xor (fun b c => b ^^^ c) rd (.reg rs) (.reg rt) s := rfl

theorem exec_xori (rt rs : Reg) (imm : BitVec 16) :
    exec (.xori rt rs imm) s =
      compute .xor (fun b c => b ^^^ c) rt (.reg rs) (.imm (zext16 imm)) s := rfl

theorem exec_nor (rd rs rt : Reg) :
    exec (.nor rd rs rt) s =
      compute .nor (fun b c => ~~~(b ||| c)) rd (.reg rs) (.reg rt) s := rfl

theorem exec_slt (rd rs rt : Reg) :
    exec (.slt rd rs rt) s =
      compute .slt setLessSigned rd (.reg rs) (.reg rt) s := rfl

theorem exec_slti (rt rs : Reg) (imm : BitVec 16) :
    exec (.slti rt rs imm) s =
      compute .slt setLessSigned rt (.reg rs) (.imm (sext16 imm)) s := rfl

theorem exec_sltu (rd rs rt : Reg) :
    exec (.sltu rd rs rt) s =
      compute .sltu setLessUnsigned rd (.reg rs) (.reg rt) s := rfl

theorem exec_sltiu (rt rs : Reg) (imm : BitVec 16) :
    exec (.sltiu rt rs imm) s =
      compute .sltu setLessUnsigned rt (.reg rs) (.imm (sext16 imm)) s := rfl

theorem exec_sll (rd rt : Reg) (sa : BitVec 5) :
    exec (.sll rd rt sa) s =
      compute .sll shiftLeft rd (.reg rt) (.imm (zext5 sa)) s := rfl

theorem exec_srl (rd rt : Reg) (sa : BitVec 5) :
    exec (.srl rd rt sa) s =
      compute .srl shiftRight rd (.reg rt) (.imm (zext5 sa)) s := rfl

theorem exec_sra (rd rt : Reg) (sa : BitVec 5) :
    exec (.sra rd rt sa) s =
      compute .sra shiftRightArith rd (.reg rt) (.imm (zext5 sa)) s := rfl

theorem exec_sllv (rd rt rs : Reg) :
    exec (.sllv rd rt rs) s =
      compute .sll shiftLeft rd (.reg rt) (.reg rs) s := rfl

theorem exec_srlv (rd rt rs : Reg) :
    exec (.srlv rd rt rs) s =
      compute .srl shiftRight rd (.reg rt) (.reg rs) s := rfl

theorem exec_srav (rd rt rs : Reg) :
    exec (.srav rd rt rs) s =
      compute .sra shiftRightArith rd (.reg rt) (.reg rs) s := rfl

theorem exec_rotr (rd rt : Reg) (sa : BitVec 5) :
    exec (.rotr rd rt sa) s =
      compute .ror rotateRight rd (.reg rt) (.imm (zext5 sa)) s := rfl

theorem exec_rotrv (rd rt rs : Reg) :
    exec (.rotrv rd rt rs) s =
      compute .ror rotateRight rd (.reg rt) (.reg rs) s := rfl

theorem exec_lui (rt : Reg) (imm : BitVec 16) :
    exec (.lui rt imm) s =
      compute .sll shiftLeft rt (.imm (zext16 imm)) (.imm 16) s := rfl

theorem exec_clz (rd rs rt : Reg) :
    exec (.clz rd rs rt) s =
      compute .clz (fun b _ => countLeadingZeros b) rd (.reg rs) (.imm 0) s := rfl

theorem exec_clo (rd rs rt : Reg) :
    exec (.clo rd rs rt) s =
      compute .clo (fun b _ => countLeadingOnes b) rd (.reg rs) (.imm 0) s := rfl

theorem exec_mfhi (rd : Reg) :
    exec (.mfhi rd) s =
      compute .add (fun b c => b + c) rd (.reg hiIndex) (.imm 0) s := rfl

theorem exec_mflo (rd : Reg) :
    exec (.mflo rd) s =
      compute .add (fun b c => b + c) rd (.reg loIndex) (.imm 0) s := rfl

theorem exec_sync (stype : BitVec 5) :
    exec (.sync stype) s =
      compute .add (fun b c => b + c) 0 (.reg 0) (.reg 0) s := rfl

theorem exec_pref (hint : BitVec 5) (base : Reg) (off : BitVec 16) :
    exec (.pref hint base off) s =
      compute .add (fun b c => b + c) 0 (.reg 0) (.reg 0) s := rfl

theorem exec_synci (base : Reg) (off : BitVec 16) :
    exec (.synci base off) s =
      compute .add (fun b c => b + c) 0 (.reg 0) (.reg 0) s := rfl

theorem exec_mul (rd rs rt : Reg) :
    exec (.mul rd rs rt) s =
      compute .mul mulLow rd (.reg rs) (.reg rt) s := rfl

theorem exec_mult (rs rt : Reg) :
    exec (.mult rs rt) s =
      computeHiLo .mult (fun b c _ _ => split64 (signedProduct b c)) rs rt s := rfl

theorem exec_multu (rs rt : Reg) :
    exec (.multu rs rt) s =
      computeHiLo .multu (fun b c _ _ => split64 (unsignedProduct b c)) rs rt s := rfl

theorem exec_div (rs rt : Reg) :
    exec (.div rs rt) s =
      computeHiLo .div (fun b c _ _ => signedDivide b c) rs rt s := rfl

theorem exec_divu (rs rt : Reg) :
    exec (.divu rs rt) s =
      computeHiLo .divu (fun b c _ _ => unsignedDivide b c) rs rt s := rfl

theorem exec_madd (rs rt : Reg) :
    exec (.madd rs rt) s =
      computeHiLo .madd (fun b c lo hi => split64 ((hi ++ lo) + signedProduct b c)) rs rt s := rfl

theorem exec_maddu (rs rt : Reg) :
    exec (.maddu rs rt) s =
      computeHiLo .maddu (fun b c lo hi => split64 ((hi ++ lo) + unsignedProduct b c)) rs rt s := rfl

theorem exec_msub (rs rt : Reg) :
    exec (.msub rs rt) s =
      computeHiLo .msub (fun b c lo hi => split64 ((hi ++ lo) - signedProduct b c)) rs rt s := rfl

theorem exec_msubu (rs rt : Reg) :
    exec (.msubu rs rt) s =
      computeHiLo .msubu (fun b c lo hi => split64 ((hi ++ lo) - unsignedProduct b c)) rs rt s := rfl

theorem exec_mthi (rs : Reg) :
    exec (.mthi rs) s =
      if s.params.admitMthiMtlo then compute .mthi (fun b _ => b) hiIndex (.reg rs) (.imm 0) s
      else raise (.unsupportedInstruction (encode (.mthi rs))) := rfl

theorem exec_mtlo (rs : Reg) :
    exec (.mtlo rs) s =
      if s.params.admitMthiMtlo then compute .mtlo (fun b _ => b) loIndex (.reg rs) (.imm 0) s
      else raise (.unsupportedInstruction (encode (.mtlo rs))) := rfl

theorem exec_lb (rt base : Reg) (off : BitVec 16) :
    exec (.lb rt base off) s =
      load .lb (fun m ea _ => sext8 (loadedByte m ea)) rt base (sext16 off) s := rfl

theorem exec_lbu (rt base : Reg) (off : BitVec 16) :
    exec (.lbu rt base off) s =
      load .lbu (fun m ea _ => zext8 (loadedByte m ea)) rt base (sext16 off) s := rfl

theorem exec_lh (rt base : Reg) (off : BitVec 16) :
    exec (.lh rt base off) s =
      load .lh (fun m ea _ => sext16 (loadedHalf m ea)) rt base (sext16 off) s := rfl

theorem exec_lhu (rt base : Reg) (off : BitVec 16) :
    exec (.lhu rt base off) s =
      load .lhu (fun m ea _ => zext16 (loadedHalf m ea)) rt base (sext16 off) s := rfl

theorem exec_lw (rt base : Reg) (off : BitVec 16) :
    exec (.lw rt base off) s =
      load .lw (fun m _ _ => m) rt base (sext16 off) s := rfl

theorem exec_lwl (rt base : Reg) (off : BitVec 16) :
    exec (.lwl rt base off) s =
      load .lwl mergeLoadLeft rt base (sext16 off) s := rfl

theorem exec_lwr (rt base : Reg) (off : BitVec 16) :
    exec (.lwr rt base off) s =
      load .lwr mergeLoadRight rt base (sext16 off) s := rfl

theorem exec_ll (rt base : Reg) (off : BitVec 16) :
    exec (.ll rt base off) s =
      load .ll (fun m _ _ => m) rt base (sext16 off) s := rfl

theorem exec_sb (rt base : Reg) (off : BitVec 16) :
    exec (.sb rt base off) s =
      store .sb mergeByte rt base (sext16 off) s := rfl

theorem exec_sh (rt base : Reg) (off : BitVec 16) :
    exec (.sh rt base off) s =
      store .sh mergeHalf rt base (sext16 off) s := rfl

theorem exec_sw (rt base : Reg) (off : BitVec 16) :
    exec (.sw rt base off) s =
      store .sw (fun _ v _ => v) rt base (sext16 off) s := rfl

theorem exec_swl (rt base : Reg) (off : BitVec 16) :
    exec (.swl rt base off) s =
      store .swl mergeStoreLeft rt base (sext16 off) s := rfl

theorem exec_swr (rt base : Reg) (off : BitVec 16) :
    exec (.swr rt base off) s =
      store .swr mergeStoreRight rt base (sext16 off) s := rfl

theorem exec_sc (rt base : Reg) (off : BitVec 16) :
    exec (.sc rt base off) s =
      storeConditional rt base (sext16 off) s := rfl

theorem exec_beq (rs rt : Reg) (off : BitVec 16) :
    exec (.beq rs rt off) s =
      branch .beq condEq rs rt (branchOffset off) s := rfl

theorem exec_bne (rs rt : Reg) (off : BitVec 16) :
    exec (.bne rs rt off) s =
      branch .bne condNe rs rt (branchOffset off) s := rfl

theorem exec_blez (rs : Reg) (off : BitVec 16) :
    exec (.blez rs off) s =
      branch .blez condLez rs 0 (branchOffset off) s := rfl

theorem exec_bgtz (rs : Reg) (off : BitVec 16) :
    exec (.bgtz rs off) s =
      branch .bgtz condGtz rs 0 (branchOffset off) s := rfl

theorem exec_bltz (rs : Reg) (off : BitVec 16) :
    exec (.bltz rs off) s =
      branch .bltz condLtz rs 0 (branchOffset off) s := rfl

theorem exec_bgez (rs : Reg) (off : BitVec 16) :
    exec (.bgez rs off) s =
      branch .bgez condGez rs 0 (branchOffset off) s := rfl

theorem exec_j (index : BitVec 26) :
    exec (.j index) s =
      jumpImmediate 0 (jumpIndex index) 0 s := rfl

theorem exec_jal (index : BitVec 26) :
    exec (.jal index) s =
      jumpImmediate 31 (jumpIndex index) 0 s := rfl

theorem exec_jr (rs : Reg) :
    exec (.jr rs) s =
      jumpTo .jump 0 (.reg rs) 0 (s.cell rs) s := rfl

theorem exec_jalr (rd rs : Reg) :
    exec (.jalr rd rs) s =
      jumpTo .jump rd (.reg rs) 0 (s.cell rs) s := rfl

theorem exec_bal (off : BitVec 16) :
    exec (.bal off) s =
      jumpTo .jumpDirect 31 (.imm (branchOffset off)) 0 (s.npc + branchOffset off) s := rfl

theorem exec_movz (rd rs rt : Reg) :
    exec (.movz rd rs rt) s =
      computeOld .meq moveIfZero rd (.reg rs) (.reg rt) s := rfl

theorem exec_movn (rd rs rt : Reg) :
    exec (.movn rd rs rt) s =
      computeOld .mne moveIfNotZero rd (.reg rs) (.reg rt) s := rfl

theorem exec_seb (rd rt : Reg) :
    exec (.seb rd rt) s =
      compute .sext signExtendPart rd (.reg rt) (.imm 0) s := rfl

theorem exec_seh (rd rt : Reg) :
    exec (.seh rd rt) s =
      compute .sext signExtendPart rd (.reg rt) (.imm 1) s := rfl

theorem exec_wsbh (rd rt : Reg) :
    exec (.wsbh rd rt) s =
      compute .wsbh (fun b _ => swapBytesInHalves b) rd (.reg rt) (.imm 0) s := rfl

theorem exec_ext (rt rs : Reg) (msbd lsb : BitVec 5) :
    exec (.ext rt rs msbd lsb) s =
      extractBits rt rs (fieldBounds msbd lsb) s := rfl

theorem exec_ins (rt rs : Reg) (msb lsb : BitVec 5) :
    exec (.ins rt rs msb lsb) s =
      insertBits rt rs (fieldBounds msb lsb) s := rfl

theorem exec_teq (rs rt : Reg) (code : BitVec 10) :
    exec (.teq rs rt code) s =
      trapIfEqual rs rt 0 s := rfl

theorem exec_syscall (code : BitVec 20) :
    exec (.syscall code) s =
      systemCall s := rfl

theorem exec_brk (code : BitVec 20) :
    exec (.brk code) s =
      raise .breakpoint := rfl

end Sys2Proof.Machine
end

