-- ==== Sys2Proof/Laws/Memory.lean ====
section
/-! SUPPORT. Laws of sorted maps and of byte memory: reading after writing, and that every operation keeps the canonical
form. -/

namespace Sys2Proof.Machine

/-! ### Sorted maps -/

section
variable {α : Type} {m : List (Nat × α)} {k j : Nat} {v : α}

@[simp] theorem Assoc.get_put_same (m : List (Nat × α)) (k : Nat) (v : α) :
    Assoc.get (Assoc.put m k v) k = some v := by
  induction m with
  | nil => simp [Assoc.put, Assoc.get]
  | cons e r ih =>
    simp only [Assoc.put]
    split
    · simp [Assoc.get]
    · split
      · simp [Assoc.get]
      · simp [Assoc.get, *]

@[simp] theorem Assoc.get_put_other (m : List (Nat × α)) (v : α) (h : j ≠ k) :
    Assoc.get (Assoc.put m k v) j = Assoc.get m j := by
  induction m with
  | nil => simp [Assoc.put, Assoc.get, h]
  | cons e r ih =>
    simp only [Assoc.put]
    split
    · simp [Assoc.get, h]
    · split
      · rename_i _ hk; subst hk; simp [Assoc.get, h]
      · simp [Assoc.get, ih]

theorem Assoc.get_put (m : List (Nat × α)) (v : α) :
    Assoc.get (Assoc.put m k v) j = if j = k then some v else Assoc.get m j := by
  split
  · next h => subst h; simp
  · next h => simp [h]

@[simp] theorem Assoc.get_erase_same (m : List (Nat × α)) (k : Nat) : Assoc.get (Assoc.erase m k) k = none := by
  induction m with
  | nil => rfl
  | cons e r ih =>
    simp only [Assoc.erase, List.filter_cons] at ih ⊢
    split
    · next h =>
      simp only [decide_eq_true_eq] at h
      rw [Assoc.get, if_neg (Ne.symm h)]
      exact ih
    · exact ih

@[simp] theorem Assoc.get_erase_other (m : List (Nat × α)) (h : j ≠ k) :
    Assoc.get (Assoc.erase m k) j = Assoc.get m j := by
  induction m with
  | nil => rfl
  | cons e r ih =>
    simp only [Assoc.erase, List.filter_cons] at ih ⊢
    split
    · rw [Assoc.get, Assoc.get, ih]
    · next hk =>
      simp only [decide_eq_true_eq, not_not] at hk
      rw [Assoc.get, if_neg (by rw [hk]; exact h)]
      exact ih

theorem Assoc.mem_put {e : Nat × α} (h : e ∈ Assoc.put m k v) : e = (k, v) ∨ e ∈ m := by
  induction m with
  | nil => simpa [Assoc.put] using h
  | cons d r ih =>
    simp only [Assoc.put] at h
    split at h
    · simpa using h
    · split at h
      · simp at h; rcases h with h | h <;> simp [h]
      · simp at h
        rcases h with h | h
        · simp [h]
        · rcases ih h with h | h <;> simp [h]

theorem Assoc.mem_erase {e : Nat × α} (h : e ∈ Assoc.erase m k) : e ∈ m :=
  List.mem_of_mem_filter h

theorem Assoc.sorted_put (h : Assoc.sorted m) (k : Nat) (v : α) : Assoc.sorted (Assoc.put m k v) := by
  induction m with
  | nil => simp [Assoc.put]
  | cons d r ih =>
    obtain ⟨hd, hr⟩ := List.pairwise_cons.1 h
    simp only [Assoc.put]
    split
    · next hk =>
      refine List.pairwise_cons.2 ⟨fun e he => ?_, h⟩
      rcases List.mem_cons.1 he with rfl | he
      · exact hk
      · exact Nat.lt_trans hk (hd e he)
    · split
      · next hk => exact List.pairwise_cons.2 ⟨fun e he => hk ▸ hd e he, hr⟩
      · refine List.pairwise_cons.2 ⟨fun e he => ?_, ih hr⟩
        rcases Assoc.mem_put he with rfl | he
        · dsimp only; omega
        · exact hd e he

theorem Assoc.sorted_erase (h : Assoc.sorted m) (k : Nat) : Assoc.sorted (Assoc.erase m k) :=
  List.Pairwise.filter _ h

theorem Assoc.get_isSome_of_mem {e : Nat × α} (h : e ∈ m) : (Assoc.get m e.1).isSome = true := by
  induction m with
  | nil => simp at h
  | cons d r ih =>
    simp only [Assoc.get]
    split
    · rfl
    · rcases List.mem_cons.1 h with rfl | h
      · contradiction
      · exact ih h

/-- In a sorted map an entry is what its key reads. -/
theorem Assoc.get_of_mem (hs : Assoc.sorted m) {e : Nat × α} (h : e ∈ m) : Assoc.get m e.1 = some e.2 := by
  induction m with
  | nil => simp at h
  | cons d r ih =>
    obtain ⟨hd, hr⟩ := List.pairwise_cons.1 hs
    rcases List.mem_cons.1 h with rfl | h
    · simp [Assoc.get]
    · have := hd e h
      simp only [Assoc.get]
      rw [if_neg (by omega)]
      exact ih hr h

theorem Assoc.mem_of_get (h : Assoc.get m k = some v) : (k, v) ∈ m := by
  induction m with
  | nil => simp [Assoc.get] at h
  | cons d r ih =>
    simp only [Assoc.get] at h
    split at h
    · next hk => cases h; subst hk; simp
    · simp [ih h]

end

/-! ### Bytes -/

theorem Memory.byte_setByte (m : List Host.Cell) (a b : Nat) (v : Byte) :
    Memory.byte (Memory.setByte m a v) b = if b = a then v else Memory.byte m b := by
  unfold Memory.byte Memory.setByte
  by_cases hv : v = Memory.unlisted <;> by_cases hb : b = a <;> simp [hv, hb]

theorem Memory.wf_setByte {m : List Host.Cell} (h : Memory.wf m) {a : Nat} (ha : Memory.dataAddress a) (v : Byte) :
    Memory.wf (Memory.setByte m a v) := by
  unfold Memory.setByte
  split
  · exact ⟨Assoc.sorted_erase h.1 a, fun c hc => h.2 c (Assoc.mem_erase hc)⟩
  · next hv =>
    refine ⟨Assoc.sorted_put h.1 a v, fun c hc => ?_⟩
    rcases Assoc.mem_put hc with rfl | hc
    · exact ⟨ha, hv⟩
    · exact h.2 c hc

/-! ### Words -/

theorem Memory.byte_setWord (m : List Host.Cell) (k a : Nat) (v : Word) :
    Memory.byte (Memory.setWord m k v) a =
      if a = k then byteOf v 0 else if a = k + 1 then byteOf v 1 else if a = k + 2 then byteOf v 2
      else if a = k + 3 then byteOf v 3 else Memory.byte m a := by
  simp only [Memory.setWord, Memory.byte_setByte]
  split_ifs <;> first | rfl | omega

theorem Memory.byte_setWord_outside (m : List Host.Cell) {k a : Nat} (v : Word) (h : a < k ∨ k + 4 ≤ a) :
    Memory.byte (Memory.setWord m k v) a = Memory.byte m a := by
  rw [Memory.byte_setWord]
  split_ifs <;> first | rfl | omega

/-- The four bytes of a word, joined, are the word. -/
theorem byteOf_join (v : Word) : byteOf v 3 ++ byteOf v 2 ++ byteOf v 1 ++ byteOf v 0 = v := by
  apply BitVec.eq_of_getLsbD_eq
  intro i hi
  have hi : i < 32 := hi
  simp only [byteOf, BitVec.getLsbD_append, BitVec.getLsbD_extractLsb']
  rcases (by omega : i < 8 ∨ (8 ≤ i ∧ i < 16) ∨ (16 ≤ i ∧ i < 24) ∨ (24 ≤ i ∧ i < 32)) with h | h | h | h
  · simp [h]
  · have h1 : ¬ i < 8 := by omega
    have h2 : i - 8 < 8 := by omega
    have h3 : 8 + (i - 8) = i := by omega
    simp [h1, h2, h3]
  · have h1 : ¬ i < 8 := by omega
    have h2 : ¬ i - 8 < 8 := by omega
    have h3 : i - 8 - 8 < 8 := by omega
    have h4 : 16 + (i - 8 - 8) = i := by omega
    simp [h1, h2, h3, h4]
  · have h1 : ¬ i < 8 := by omega
    have h2 : ¬ i - 8 < 8 := by omega
    have h3 : ¬ i - 8 - 8 < 8 := by omega
    have h4 : i - 8 - 8 - 8 < 8 := by omega
    have h5 : 24 + (i - 8 - 8 - 8) = i := by omega
    simp [h1, h2, h3, h4, h5]

@[simp] theorem Memory.word_setWord_same (m : List Host.Cell) (k : Nat) (v : Word) :
    Memory.word (Memory.setWord m k v) k = v := by
  simp only [Memory.word, Memory.byte_setWord]
  simpa using byteOf_join v

/-- Two word cells at different multiples of 4 do not overlap. -/
theorem Memory.word_setWord_other (m : List Host.Cell) {k j : Nat} (v : Word) (h : j + 4 ≤ k ∨ k + 4 ≤ j) :
    Memory.word (Memory.setWord m k v) j = Memory.word m j := by
  simp only [Memory.word]
  rw [Memory.byte_setWord_outside, Memory.byte_setWord_outside, Memory.byte_setWord_outside,
    Memory.byte_setWord_outside] <;> omega

theorem Memory.wf_setWord {m : List Host.Cell} (h : Memory.wf m) {k : Nat} (hk : dataKey k) (v : Word) :
    Memory.wf (Memory.setWord m k v) := by
  obtain ⟨h4, h36, h32⟩ := hk
  unfold Memory.setWord
  refine Memory.wf_setByte (Memory.wf_setByte (Memory.wf_setByte (Memory.wf_setByte h ?_ _) ?_ _) ?_ _) ?_ _ <;>
    exact ⟨by omega, by omega⟩

/-- A word reads from the bytes at its four addresses only. -/
theorem Memory.word_congr {m m' : List Host.Cell} {k : Nat}
    (h : ∀ a, k ≤ a → a < k + 4 → Memory.byte m' a = Memory.byte m a) : Memory.word m' k = Memory.word m k := by
  simp only [Memory.word]
  rw [h k, h (k + 1), h (k + 2), h (k + 3)] <;> omega

theorem wf_imageMemory (l : List (Nat × Word)) : Memory.wf (imageMemory l) := by
  induction l with
  | nil => exact ⟨List.Pairwise.nil, by simp [imageMemory]⟩
  | cons e r ih =>
    simp only [imageMemory]
    split
    · next h => exact Memory.wf_setWord ih h e.2
    · exact ih

theorem wordKey_lt (ea : Word) : wordKey ea < 2 ^ 32 := BitVec.isLt _

/-- `WA(EA)` is the address with its two low bits cleared (20_memory R72). -/
theorem wordKey_eq (ea : Word) : wordKey ea = 4 * (ea.toNat / 4) := by
  have h : (ea &&& 0xFFFFFFFC#32) = (ea >>> 2) <<< 2 := by
    apply BitVec.eq_of_getLsbD_eq
    intro i hi
    have hc : (0xFFFFFFFC#32).getLsbD i = decide (2 ≤ i) := by
      revert hi; revert i; decide
    simp only [BitVec.getLsbD_and, hc, BitVec.getLsbD_shiftLeft, BitVec.getLsbD_ushiftRight, hi, decide_true,
      Bool.true_and]
    by_cases h2 : 2 ≤ i
    · simp [h2, Nat.not_lt.2 h2]
    · simp [h2, Nat.lt_of_not_le h2]
  unfold wordKey
  rw [h, BitVec.toNat_shiftLeft, BitVec.toNat_ushiftRight, Nat.shiftRight_eq_div_pow, Nat.shiftLeft_eq]
  have := ea.isLt
  omega

/-- Every key of a data access is a register cell's or a data word's. -/
theorem validKey_wordKey (ea : Word) : validKey (wordKey ea) := by
  have := wordKey_lt ea
  have h4 := wordKey_eq ea
  by_cases h : wordKey ea < 34
  · exact .inl h
  · exact .inr ⟨by omega, by omega, this⟩

end Sys2Proof.Machine
end

