-- ==== Sys2Proof/Laws/State.lean ====
section
/-! SUPPORT. What each update of the state leaves: one lemma per field per update, and the values of cells after an
update. -/

namespace Sys2Proof.Machine

/-! ### Setting a cell -/

section
variable (s : State) (k : Nat) (v : Word)

@[simp] theorem State.setCell_params : (s.setCell k v).params = s.params := rfl
@[simp] theorem State.setCell_program : (s.setCell k v).program = s.program := rfl
@[simp] theorem State.setCell_pcBase : (s.setCell k v).pcBase = s.pcBase := rfl
@[simp] theorem State.setCell_pc : (s.setCell k v).pc = s.pc := rfl
@[simp] theorem State.setCell_npc : (s.setCell k v).npc = s.npc := rfl
@[simp] theorem State.setCell_nextIsDelayslot : (s.setCell k v).nextIsDelayslot = s.nextIsDelayslot := rfl
@[simp] theorem State.setCell_clk : (s.setCell k v).clk = s.clk := rfl
@[simp] theorem State.setCell_globalClk : (s.setCell k v).globalClk = s.globalClk := rfl
@[simp] theorem State.setCell_currentShard : (s.setCell k v).currentShard = s.currentShard := rfl
@[simp] theorem State.setCell_exited : (s.setCell k v).exited = s.exited := rfl
@[simp] theorem State.setCell_exitCode : (s.setCell k v).exitCode = s.exitCode := rfl
@[simp] theorem State.setCell_mode : (s.setCell k v).mode = s.mode := rfl
@[simp] theorem State.setCell_touched : (s.setCell k v).touched = s.touched := rfl
@[simp] theorem State.setCell_localAccess : (s.setCell k v).localAccess = s.localAccess := rfl
@[simp] theorem State.setCell_localMem : (s.setCell k v).localMem = s.localMem := rfl
@[simp] theorem State.setCell_opcodeCounts : (s.setCell k v).opcodeCounts = s.opcodeCounts := rfl
@[simp] theorem State.setCell_cpuEvents : (s.setCell k v).cpuEvents = s.cpuEvents := rfl
@[simp] theorem State.setCell_familyEvents : (s.setCell k v).familyEvents = s.familyEvents := rfl
@[simp] theorem State.setCell_outgoing : (s.setCell k v).outgoing = s.outgoing := rfl
@[simp] theorem State.setCell_hostAnswers : (s.setCell k v).hostAnswers = s.hostAnswers := rfl
@[simp] theorem State.setCell_shardOracle : (s.setCell k v).shardOracle = s.shardOracle := rfl
@[simp] theorem State.setCell_draws : (s.setCell k v).draws = s.draws := rfl

end

/-! ### Noting an access -/

section
variable (s : State) (h : Bool) (k : Nat) (old new : MemoryRecord)

@[simp] theorem State.note_params : (s.note h k old new).params = s.params := rfl
@[simp] theorem State.note_program : (s.note h k old new).program = s.program := rfl
@[simp] theorem State.note_pcBase : (s.note h k old new).pcBase = s.pcBase := rfl
@[simp] theorem State.note_regs : (s.note h k old new).regs = s.regs := rfl
@[simp] theorem State.note_mem : (s.note h k old new).mem = s.mem := rfl
@[simp] theorem State.note_pc : (s.note h k old new).pc = s.pc := rfl
@[simp] theorem State.note_npc : (s.note h k old new).npc = s.npc := rfl
@[simp] theorem State.note_nextIsDelayslot : (s.note h k old new).nextIsDelayslot = s.nextIsDelayslot := rfl
@[simp] theorem State.note_clk : (s.note h k old new).clk = s.clk := rfl
@[simp] theorem State.note_globalClk : (s.note h k old new).globalClk = s.globalClk := rfl
@[simp] theorem State.note_currentShard : (s.note h k old new).currentShard = s.currentShard := rfl
@[simp] theorem State.note_exited : (s.note h k old new).exited = s.exited := rfl
@[simp] theorem State.note_exitCode : (s.note h k old new).exitCode = s.exitCode := rfl
@[simp] theorem State.note_mode : (s.note h k old new).mode = s.mode := rfl
@[simp] theorem State.note_opcodeCounts : (s.note h k old new).opcodeCounts = s.opcodeCounts := rfl
@[simp] theorem State.note_cpuEvents : (s.note h k old new).cpuEvents = s.cpuEvents := rfl
@[simp] theorem State.note_familyEvents : (s.note h k old new).familyEvents = s.familyEvents := rfl
@[simp] theorem State.note_outgoing : (s.note h k old new).outgoing = s.outgoing := rfl
@[simp] theorem State.note_hostAnswers : (s.note h k old new).hostAnswers = s.hostAnswers := rfl
@[simp] theorem State.note_shardOracle : (s.note h k old new).shardOracle = s.shardOracle := rfl
@[simp] theorem State.note_draws : (s.note h k old new).draws = s.draws := rfl

end

/-! ### A read access -/

section
variable (x : Cycle) (p : Position) (k : Nat)

@[simp] theorem Cycle.read_params : ((x.read p k).st).params = x.st.params := rfl
@[simp] theorem Cycle.read_program : ((x.read p k).st).program = x.st.program := rfl
@[simp] theorem Cycle.read_pcBase : ((x.read p k).st).pcBase = x.st.pcBase := rfl
@[simp] theorem Cycle.read_regs : ((x.read p k).st).regs = x.st.regs := rfl
@[simp] theorem Cycle.read_mem : ((x.read p k).st).mem = x.st.mem := rfl
@[simp] theorem Cycle.read_pc : ((x.read p k).st).pc = x.st.pc := rfl
@[simp] theorem Cycle.read_npc : ((x.read p k).st).npc = x.st.npc := rfl
@[simp] theorem Cycle.read_nextIsDelayslot : ((x.read p k).st).nextIsDelayslot = x.st.nextIsDelayslot := rfl
@[simp] theorem Cycle.read_clk : ((x.read p k).st).clk = x.st.clk := rfl
@[simp] theorem Cycle.read_globalClk : ((x.read p k).st).globalClk = x.st.globalClk := rfl
@[simp] theorem Cycle.read_currentShard : ((x.read p k).st).currentShard = x.st.currentShard := rfl
@[simp] theorem Cycle.read_exited : ((x.read p k).st).exited = x.st.exited := rfl
@[simp] theorem Cycle.read_exitCode : ((x.read p k).st).exitCode = x.st.exitCode := rfl
@[simp] theorem Cycle.read_mode : ((x.read p k).st).mode = x.st.mode := rfl
@[simp] theorem Cycle.read_opcodeCounts : ((x.read p k).st).opcodeCounts = x.st.opcodeCounts := rfl
@[simp] theorem Cycle.read_cpuEvents : ((x.read p k).st).cpuEvents = x.st.cpuEvents := rfl
@[simp] theorem Cycle.read_familyEvents : ((x.read p k).st).familyEvents = x.st.familyEvents := rfl
@[simp] theorem Cycle.read_outgoing : ((x.read p k).st).outgoing = x.st.outgoing := rfl
@[simp] theorem Cycle.read_hostAnswers : ((x.read p k).st).hostAnswers = x.st.hostAnswers := rfl
@[simp] theorem Cycle.read_shardOracle : ((x.read p k).st).shardOracle = x.st.shardOracle := rfl
@[simp] theorem Cycle.read_draws : ((x.read p k).st).draws = x.st.draws := rfl

end

/-! ### Reading an operand -/

section
variable (x : Cycle) (p : Position) (o : Src)

@[simp] theorem Cycle.readSrc_params : ((x.readSrc p o).st).params = x.st.params := by cases o <;> rfl
@[simp] theorem Cycle.readSrc_program : ((x.readSrc p o).st).program = x.st.program := by cases o <;> rfl
@[simp] theorem Cycle.readSrc_pcBase : ((x.readSrc p o).st).pcBase = x.st.pcBase := by cases o <;> rfl
@[simp] theorem Cycle.readSrc_regs : ((x.readSrc p o).st).regs = x.st.regs := by cases o <;> rfl
@[simp] theorem Cycle.readSrc_mem : ((x.readSrc p o).st).mem = x.st.mem := by cases o <;> rfl
@[simp] theorem Cycle.readSrc_pc : ((x.readSrc p o).st).pc = x.st.pc := by cases o <;> rfl
@[simp] theorem Cycle.readSrc_npc : ((x.readSrc p o).st).npc = x.st.npc := by cases o <;> rfl
@[simp] theorem Cycle.readSrc_nextIsDelayslot : ((x.readSrc p o).st).nextIsDelayslot = x.st.nextIsDelayslot := by cases o <;> rfl
@[simp] theorem Cycle.readSrc_clk : ((x.readSrc p o).st).clk = x.st.clk := by cases o <;> rfl
@[simp] theorem Cycle.readSrc_globalClk : ((x.readSrc p o).st).globalClk = x.st.globalClk := by cases o <;> rfl
@[simp] theorem Cycle.readSrc_currentShard : ((x.readSrc p o).st).currentShard = x.st.currentShard := by cases o <;> rfl
@[simp] theorem Cycle.readSrc_exited : ((x.readSrc p o).st).exited = x.st.exited := by cases o <;> rfl
@[simp] theorem Cycle.readSrc_exitCode : ((x.readSrc p o).st).exitCode = x.st.exitCode := by cases o <;> rfl
@[simp] theorem Cycle.readSrc_mode : ((x.readSrc p o).st).mode = x.st.mode := by cases o <;> rfl
@[simp] theorem Cycle.readSrc_opcodeCounts : ((x.readSrc p o).st).opcodeCounts = x.st.opcodeCounts := by cases o <;> rfl
@[simp] theorem Cycle.readSrc_cpuEvents : ((x.readSrc p o).st).cpuEvents = x.st.cpuEvents := by cases o <;> rfl
@[simp] theorem Cycle.readSrc_familyEvents : ((x.readSrc p o).st).familyEvents = x.st.familyEvents := by cases o <;> rfl
@[simp] theorem Cycle.readSrc_outgoing : ((x.readSrc p o).st).outgoing = x.st.outgoing := by cases o <;> rfl
@[simp] theorem Cycle.readSrc_hostAnswers : ((x.readSrc p o).st).hostAnswers = x.st.hostAnswers := by cases o <;> rfl
@[simp] theorem Cycle.readSrc_shardOracle : ((x.readSrc p o).st).shardOracle = x.st.shardOracle := by cases o <;> rfl
@[simp] theorem Cycle.readSrc_draws : ((x.readSrc p o).st).draws = x.st.draws := by cases o <;> rfl

end

/-! ### A write access -/

section
variable (x : Cycle) (p : Position) (k : Nat) (v : Word)

@[simp] theorem Cycle.write_params : ((x.write p k v).st).params = x.st.params := rfl
@[simp] theorem Cycle.write_program : ((x.write p k v).st).program = x.st.program := rfl
@[simp] theorem Cycle.write_pcBase : ((x.write p k v).st).pcBase = x.st.pcBase := rfl
@[simp] theorem Cycle.write_pc : ((x.write p k v).st).pc = x.st.pc := rfl
@[simp] theorem Cycle.write_npc : ((x.write p k v).st).npc = x.st.npc := rfl
@[simp] theorem Cycle.write_nextIsDelayslot : ((x.write p k v).st).nextIsDelayslot = x.st.nextIsDelayslot := rfl
@[simp] theorem Cycle.write_clk : ((x.write p k v).st).clk = x.st.clk := rfl
@[simp] theorem Cycle.write_globalClk : ((x.write p k v).st).globalClk = x.st.globalClk := rfl
@[simp] theorem Cycle.write_currentShard : ((x.write p k v).st).currentShard = x.st.currentShard := rfl
@[simp] theorem Cycle.write_exited : ((x.write p k v).st).exited = x.st.exited := rfl
@[simp] theorem Cycle.write_exitCode : ((x.write p k v).st).exitCode = x.st.exitCode := rfl
@[simp] theorem Cycle.write_mode : ((x.write p k v).st).mode = x.st.mode := rfl
@[simp] theorem Cycle.write_opcodeCounts : ((x.write p k v).st).opcodeCounts = x.st.opcodeCounts := rfl
@[simp] theorem Cycle.write_cpuEvents : ((x.write p k v).st).cpuEvents = x.st.cpuEvents := rfl
@[simp] theorem Cycle.write_familyEvents : ((x.write p k v).st).familyEvents = x.st.familyEvents := rfl
@[simp] theorem Cycle.write_outgoing : ((x.write p k v).st).outgoing = x.st.outgoing := rfl
@[simp] theorem Cycle.write_hostAnswers : ((x.write p k v).st).hostAnswers = x.st.hostAnswers := rfl
@[simp] theorem Cycle.write_shardOracle : ((x.write p k v).st).shardOracle = x.st.shardOracle := rfl
@[simp] theorem Cycle.write_draws : ((x.write p k v).st).draws = x.st.draws := rfl

end

/-! ### A link write -/

section
variable (x : Cycle) (a : Nat)

@[simp] theorem Cycle.link_params : ((x.link a).st).params = x.st.params := by unfold Cycle.link; split <;> rfl
@[simp] theorem Cycle.link_program : ((x.link a).st).program = x.st.program := by unfold Cycle.link; split <;> rfl
@[simp] theorem Cycle.link_pcBase : ((x.link a).st).pcBase = x.st.pcBase := by unfold Cycle.link; split <;> rfl
@[simp] theorem Cycle.link_pc : ((x.link a).st).pc = x.st.pc := by unfold Cycle.link; split <;> rfl
@[simp] theorem Cycle.link_npc : ((x.link a).st).npc = x.st.npc := by unfold Cycle.link; split <;> rfl
@[simp] theorem Cycle.link_nextIsDelayslot : ((x.link a).st).nextIsDelayslot = x.st.nextIsDelayslot := by unfold Cycle.link; split <;> rfl
@[simp] theorem Cycle.link_clk : ((x.link a).st).clk = x.st.clk := by unfold Cycle.link; split <;> rfl
@[simp] theorem Cycle.link_globalClk : ((x.link a).st).globalClk = x.st.globalClk := by unfold Cycle.link; split <;> rfl
@[simp] theorem Cycle.link_currentShard : ((x.link a).st).currentShard = x.st.currentShard := by unfold Cycle.link; split <;> rfl
@[simp] theorem Cycle.link_exited : ((x.link a).st).exited = x.st.exited := by unfold Cycle.link; split <;> rfl
@[simp] theorem Cycle.link_exitCode : ((x.link a).st).exitCode = x.st.exitCode := by unfold Cycle.link; split <;> rfl
@[simp] theorem Cycle.link_mode : ((x.link a).st).mode = x.st.mode := by unfold Cycle.link; split <;> rfl
@[simp] theorem Cycle.link_opcodeCounts : ((x.link a).st).opcodeCounts = x.st.opcodeCounts := by unfold Cycle.link; split <;> rfl
@[simp] theorem Cycle.link_cpuEvents : ((x.link a).st).cpuEvents = x.st.cpuEvents := by unfold Cycle.link; split <;> rfl
@[simp] theorem Cycle.link_familyEvents : ((x.link a).st).familyEvents = x.st.familyEvents := by unfold Cycle.link; split <;> rfl
@[simp] theorem Cycle.link_outgoing : ((x.link a).st).outgoing = x.st.outgoing := by unfold Cycle.link; split <;> rfl
@[simp] theorem Cycle.link_hostAnswers : ((x.link a).st).hostAnswers = x.st.hostAnswers := by unfold Cycle.link; split <;> rfl
@[simp] theorem Cycle.link_shardOracle : ((x.link a).st).shardOracle = x.st.shardOracle := by unfold Cycle.link; split <;> rfl
@[simp] theorem Cycle.link_draws : ((x.link a).st).draws = x.st.draws := by unfold Cycle.link; split <;> rfl

end

/-! ### A handler's accesses -/

section
variable (x : Cycle) (k : Word)

@[simp] theorem Cycle.hostRead_params : ((x.hostRead k).st).params = x.st.params := rfl
@[simp] theorem Cycle.hostRead_program : ((x.hostRead k).st).program = x.st.program := rfl
@[simp] theorem Cycle.hostRead_pcBase : ((x.hostRead k).st).pcBase = x.st.pcBase := rfl
@[simp] theorem Cycle.hostRead_pc : ((x.hostRead k).st).pc = x.st.pc := rfl
@[simp] theorem Cycle.hostRead_npc : ((x.hostRead k).st).npc = x.st.npc := rfl
@[simp] theorem Cycle.hostRead_nextIsDelayslot : ((x.hostRead k).st).nextIsDelayslot = x.st.nextIsDelayslot := rfl
@[simp] theorem Cycle.hostRead_clk : ((x.hostRead k).st).clk = x.st.clk := rfl
@[simp] theorem Cycle.hostRead_globalClk : ((x.hostRead k).st).globalClk = x.st.globalClk := rfl
@[simp] theorem Cycle.hostRead_currentShard : ((x.hostRead k).st).currentShard = x.st.currentShard := rfl
@[simp] theorem Cycle.hostRead_exited : ((x.hostRead k).st).exited = x.st.exited := rfl
@[simp] theorem Cycle.hostRead_exitCode : ((x.hostRead k).st).exitCode = x.st.exitCode := rfl
@[simp] theorem Cycle.hostRead_mode : ((x.hostRead k).st).mode = x.st.mode := rfl
@[simp] theorem Cycle.hostRead_opcodeCounts : ((x.hostRead k).st).opcodeCounts = x.st.opcodeCounts := rfl
@[simp] theorem Cycle.hostRead_cpuEvents : ((x.hostRead k).st).cpuEvents = x.st.cpuEvents := rfl
@[simp] theorem Cycle.hostRead_familyEvents : ((x.hostRead k).st).familyEvents = x.st.familyEvents := rfl
@[simp] theorem Cycle.hostRead_outgoing : ((x.hostRead k).st).outgoing = x.st.outgoing := rfl
@[simp] theorem Cycle.hostRead_hostAnswers : ((x.hostRead k).st).hostAnswers = x.st.hostAnswers := rfl
@[simp] theorem Cycle.hostRead_shardOracle : ((x.hostRead k).st).shardOracle = x.st.shardOracle := rfl
@[simp] theorem Cycle.hostRead_regs : (x.hostRead k).st.regs = x.st.regs := rfl
@[simp] theorem Cycle.hostRead_mem : (x.hostRead k).st.mem = x.st.mem := rfl

end

section
variable (x : Cycle) (e : Word × Word)

@[simp] theorem Cycle.hostWrite_params : ((x.hostWrite e).st).params = x.st.params := rfl
@[simp] theorem Cycle.hostWrite_program : ((x.hostWrite e).st).program = x.st.program := rfl
@[simp] theorem Cycle.hostWrite_pcBase : ((x.hostWrite e).st).pcBase = x.st.pcBase := rfl
@[simp] theorem Cycle.hostWrite_pc : ((x.hostWrite e).st).pc = x.st.pc := rfl
@[simp] theorem Cycle.hostWrite_npc : ((x.hostWrite e).st).npc = x.st.npc := rfl
@[simp] theorem Cycle.hostWrite_nextIsDelayslot : ((x.hostWrite e).st).nextIsDelayslot = x.st.nextIsDelayslot := rfl
@[simp] theorem Cycle.hostWrite_clk : ((x.hostWrite e).st).clk = x.st.clk := rfl
@[simp] theorem Cycle.hostWrite_globalClk : ((x.hostWrite e).st).globalClk = x.st.globalClk := rfl
@[simp] theorem Cycle.hostWrite_currentShard : ((x.hostWrite e).st).currentShard = x.st.currentShard := rfl
@[simp] theorem Cycle.hostWrite_exited : ((x.hostWrite e).st).exited = x.st.exited := rfl
@[simp] theorem Cycle.hostWrite_exitCode : ((x.hostWrite e).st).exitCode = x.st.exitCode := rfl
@[simp] theorem Cycle.hostWrite_mode : ((x.hostWrite e).st).mode = x.st.mode := rfl
@[simp] theorem Cycle.hostWrite_opcodeCounts : ((x.hostWrite e).st).opcodeCounts = x.st.opcodeCounts := rfl
@[simp] theorem Cycle.hostWrite_cpuEvents : ((x.hostWrite e).st).cpuEvents = x.st.cpuEvents := rfl
@[simp] theorem Cycle.hostWrite_familyEvents : ((x.hostWrite e).st).familyEvents = x.st.familyEvents := rfl
@[simp] theorem Cycle.hostWrite_outgoing : ((x.hostWrite e).st).outgoing = x.st.outgoing := rfl
@[simp] theorem Cycle.hostWrite_hostAnswers : ((x.hostWrite e).st).hostAnswers = x.st.hostAnswers := rfl
@[simp] theorem Cycle.hostWrite_shardOracle : ((x.hostWrite e).st).shardOracle = x.st.shardOracle := rfl

end

section
variable (x : Cycle) (e : HostAccess)

@[simp] theorem Cycle.hostAccess_params : ((x.hostAccess e).st).params = x.st.params := by cases e <;> rfl
@[simp] theorem Cycle.hostAccess_program : ((x.hostAccess e).st).program = x.st.program := by cases e <;> rfl
@[simp] theorem Cycle.hostAccess_pcBase : ((x.hostAccess e).st).pcBase = x.st.pcBase := by cases e <;> rfl
@[simp] theorem Cycle.hostAccess_pc : ((x.hostAccess e).st).pc = x.st.pc := by cases e <;> rfl
@[simp] theorem Cycle.hostAccess_npc : ((x.hostAccess e).st).npc = x.st.npc := by cases e <;> rfl
@[simp] theorem Cycle.hostAccess_nextIsDelayslot : ((x.hostAccess e).st).nextIsDelayslot = x.st.nextIsDelayslot := by cases e <;> rfl
@[simp] theorem Cycle.hostAccess_clk : ((x.hostAccess e).st).clk = x.st.clk := by cases e <;> rfl
@[simp] theorem Cycle.hostAccess_globalClk : ((x.hostAccess e).st).globalClk = x.st.globalClk := by cases e <;> rfl
@[simp] theorem Cycle.hostAccess_currentShard : ((x.hostAccess e).st).currentShard = x.st.currentShard := by cases e <;> rfl
@[simp] theorem Cycle.hostAccess_exited : ((x.hostAccess e).st).exited = x.st.exited := by cases e <;> rfl
@[simp] theorem Cycle.hostAccess_exitCode : ((x.hostAccess e).st).exitCode = x.st.exitCode := by cases e <;> rfl
@[simp] theorem Cycle.hostAccess_mode : ((x.hostAccess e).st).mode = x.st.mode := by cases e <;> rfl
@[simp] theorem Cycle.hostAccess_opcodeCounts : ((x.hostAccess e).st).opcodeCounts = x.st.opcodeCounts := by cases e <;> rfl
@[simp] theorem Cycle.hostAccess_cpuEvents : ((x.hostAccess e).st).cpuEvents = x.st.cpuEvents := by cases e <;> rfl
@[simp] theorem Cycle.hostAccess_familyEvents : ((x.hostAccess e).st).familyEvents = x.st.familyEvents := by cases e <;> rfl
@[simp] theorem Cycle.hostAccess_outgoing : ((x.hostAccess e).st).outgoing = x.st.outgoing := by cases e <;> rfl
@[simp] theorem Cycle.hostAccess_hostAnswers : ((x.hostAccess e).st).hostAnswers = x.st.hostAnswers := by cases e <;> rfl
@[simp] theorem Cycle.hostAccess_shardOracle : ((x.hostAccess e).st).shardOracle = x.st.shardOracle := by cases e <;> rfl

end

/-! ### The end of a cycle -/

section
variable (x : Cycle) (r : Retire)

@[simp] theorem Cycle.retire_params : (x.retire r).params = x.st.params := rfl
@[simp] theorem Cycle.retire_program : (x.retire r).program = x.st.program := rfl
@[simp] theorem Cycle.retire_pcBase : (x.retire r).pcBase = x.st.pcBase := rfl
@[simp] theorem Cycle.retire_regs : (x.retire r).regs = x.st.regs := rfl
@[simp] theorem Cycle.retire_mem : (x.retire r).mem = x.st.mem := rfl
@[simp] theorem Cycle.retire_currentShard : (x.retire r).currentShard = x.st.currentShard := rfl
@[simp] theorem Cycle.retire_exited : (x.retire r).exited = x.st.exited := rfl
@[simp] theorem Cycle.retire_exitCode : (x.retire r).exitCode = x.st.exitCode := rfl
@[simp] theorem Cycle.retire_mode : (x.retire r).mode = x.st.mode := rfl
@[simp] theorem Cycle.retire_touched : (x.retire r).touched = x.st.touched := rfl
@[simp] theorem Cycle.retire_localAccess : (x.retire r).localAccess = x.st.localAccess := rfl
@[simp] theorem Cycle.retire_localMem : (x.retire r).localMem = x.st.localMem := rfl
@[simp] theorem Cycle.retire_outgoing : (x.retire r).outgoing = x.st.outgoing := rfl
@[simp] theorem Cycle.retire_hostAnswers : (x.retire r).hostAnswers = x.st.hostAnswers := rfl
@[simp] theorem Cycle.retire_shardOracle : (x.retire r).shardOracle = x.st.shardOracle := rfl
@[simp] theorem Cycle.retire_draws : (x.retire r).draws = x.st.draws := rfl

end

/-! ### A shard boundary -/

section
variable (s : State)

@[simp] theorem State.boundary_params : (s.boundary).params = s.params := rfl
@[simp] theorem State.boundary_program : (s.boundary).program = s.program := rfl
@[simp] theorem State.boundary_pcBase : (s.boundary).pcBase = s.pcBase := rfl
@[simp] theorem State.boundary_regs : (s.boundary).regs = s.regs := rfl
@[simp] theorem State.boundary_mem : (s.boundary).mem = s.mem := rfl
@[simp] theorem State.boundary_pc : (s.boundary).pc = s.pc := rfl
@[simp] theorem State.boundary_npc : (s.boundary).npc = s.npc := rfl
@[simp] theorem State.boundary_nextIsDelayslot : (s.boundary).nextIsDelayslot = s.nextIsDelayslot := rfl
@[simp] theorem State.boundary_globalClk : (s.boundary).globalClk = s.globalClk := rfl
@[simp] theorem State.boundary_exited : (s.boundary).exited = s.exited := rfl
@[simp] theorem State.boundary_exitCode : (s.boundary).exitCode = s.exitCode := rfl
@[simp] theorem State.boundary_mode : (s.boundary).mode = s.mode := rfl
@[simp] theorem State.boundary_touched : (s.boundary).touched = s.touched := rfl
@[simp] theorem State.boundary_localMem : (s.boundary).localMem = s.localMem := rfl
@[simp] theorem State.boundary_opcodeCounts : (s.boundary).opcodeCounts = s.opcodeCounts := rfl
@[simp] theorem State.boundary_hostAnswers : (s.boundary).hostAnswers = s.hostAnswers := rfl
@[simp] theorem State.boundary_shardOracle : (s.boundary).shardOracle = s.shardOracle := rfl
@[simp] theorem State.boundary_draws : (s.boundary).draws = s.draws := rfl

end

/-! ### The shard check -/

section
variable (s : State)

@[simp] theorem State.shardCheck_params : (s.shardCheck).params = s.params := by unfold State.shardCheck; dsimp only; split <;> rfl
@[simp] theorem State.shardCheck_program : (s.shardCheck).program = s.program := by unfold State.shardCheck; dsimp only; split <;> rfl
@[simp] theorem State.shardCheck_pcBase : (s.shardCheck).pcBase = s.pcBase := by unfold State.shardCheck; dsimp only; split <;> rfl
@[simp] theorem State.shardCheck_regs : (s.shardCheck).regs = s.regs := by unfold State.shardCheck; dsimp only; split <;> rfl
@[simp] theorem State.shardCheck_mem : (s.shardCheck).mem = s.mem := by unfold State.shardCheck; dsimp only; split <;> rfl
@[simp] theorem State.shardCheck_pc : (s.shardCheck).pc = s.pc := by unfold State.shardCheck; dsimp only; split <;> rfl
@[simp] theorem State.shardCheck_npc : (s.shardCheck).npc = s.npc := by unfold State.shardCheck; dsimp only; split <;> rfl
@[simp] theorem State.shardCheck_nextIsDelayslot : (s.shardCheck).nextIsDelayslot = s.nextIsDelayslot := by unfold State.shardCheck; dsimp only; split <;> rfl
@[simp] theorem State.shardCheck_globalClk : (s.shardCheck).globalClk = s.globalClk := by unfold State.shardCheck; dsimp only; split <;> rfl
@[simp] theorem State.shardCheck_exited : (s.shardCheck).exited = s.exited := by unfold State.shardCheck; dsimp only; split <;> rfl
@[simp] theorem State.shardCheck_exitCode : (s.shardCheck).exitCode = s.exitCode := by unfold State.shardCheck; dsimp only; split <;> rfl
@[simp] theorem State.shardCheck_mode : (s.shardCheck).mode = s.mode := by unfold State.shardCheck; dsimp only; split <;> rfl
@[simp] theorem State.shardCheck_touched : (s.shardCheck).touched = s.touched := by unfold State.shardCheck; dsimp only; split <;> rfl
@[simp] theorem State.shardCheck_localMem : (s.shardCheck).localMem = s.localMem := by unfold State.shardCheck; dsimp only; split <;> rfl
@[simp] theorem State.shardCheck_opcodeCounts : (s.shardCheck).opcodeCounts = s.opcodeCounts := by unfold State.shardCheck; dsimp only; split <;> rfl
@[simp] theorem State.shardCheck_hostAnswers : (s.shardCheck).hostAnswers = s.hostAnswers := by unfold State.shardCheck; dsimp only; split <;> rfl
@[simp] theorem State.shardCheck_draws : (s.shardCheck).draws = s.draws := by unfold State.shardCheck; dsimp only; split <;> rfl

end

@[simp] theorem State.shardCheck_shardOracle (s : State) : s.shardCheck.shardOracle = s.shardOracle.tail := rfl

/-! ### What the changing fields become -/

section
variable (x : Cycle) (r : Retire)

@[simp] theorem Cycle.retire_nextIsDelayslot : (x.retire r).nextIsDelayslot = isTransfer r.op := rfl
@[simp] theorem Cycle.retire_pc : (x.retire r).pc = (r.jump.map Prod.fst).getD x.st.npc := rfl
@[simp] theorem Cycle.retire_npc : (x.retire r).npc = (r.jump.map Prod.snd).getD r.nnpc := rfl
@[simp] theorem Cycle.retire_clk : (x.retire r).clk = x.st.clk + 5 + r.extra := rfl
@[simp] theorem Cycle.retire_globalClk : (x.retire r).globalClk = x.st.globalClk + 1 := rfl
@[simp] theorem State.begin_st (s : State) : s.begin.st = s := rfl
@[simp] theorem State.begin_acc (s : State) : s.begin.acc = Accesses.none := rfl

end

@[simp] theorem State.setCell_regs (s : State) (k : Nat) (v : Word) : (s.setCell k v).regs = setReg s.regs k v := rfl
@[simp] theorem State.setCell_mem (s : State) (k : Nat) (v : Word) : (s.setCell k v).mem = setData s.mem k v := rfl
@[simp] theorem Cycle.write_regs (x : Cycle) (p : Position) (k : Nat) (v : Word) :
    (x.write p k v).st.regs = setReg x.st.regs k v := rfl
@[simp] theorem Cycle.write_mem (x : Cycle) (p : Position) (k : Nat) (v : Word) :
    (x.write p k v).st.mem = setData x.st.mem k v := rfl
@[simp] theorem Cycle.hostWrite_regs (x : Cycle) (e : Word × Word) :
    (x.hostWrite e).st.regs = setReg x.st.regs e.1.toNat e.2 := rfl
@[simp] theorem Cycle.hostWrite_mem (x : Cycle) (e : Word × Word) :
    (x.hostWrite e).st.mem = setData x.st.mem e.1.toNat e.2 := rfl
@[simp] theorem Cycle.hostWrite_draws (x : Cycle) (e : Word × Word) : (x.hostWrite e).st.draws = x.st.draws + 1 := rfl
@[simp] theorem Cycle.hostRead_draws (x : Cycle) (k : Word) : (x.hostRead k).st.draws = x.st.draws + 1 := rfl
@[simp] theorem Cycle.hostAccess_draws (x : Cycle) (e : HostAccess) : (x.hostAccess e).st.draws = x.st.draws + 1 := by
  cases e <;> rfl
@[simp] theorem Cycle.hostAccess_acc (x : Cycle) (e : HostAccess) : (x.hostAccess e).acc = x.acc := by cases e <;> rfl

/-! ### The cells after an update -/

/-- A cell reads from the registers and memory only. -/
theorem State.cell_congr {s t : State} (hr : t.regs = s.regs) (hm : t.mem = s.mem) (k : Nat) : t.cell k = s.cell k := by
  simp only [State.cell, hr, hm]

@[simp] theorem State.cell_zero (s : State) : s.cell 0 = 0 := by simp [State.cell]

@[simp] theorem State.note_cell (s : State) (h : Bool) (k : Nat) (old new : MemoryRecord) (j : Nat) :
    (s.note h k old new).cell j = s.cell j := rfl
@[simp] theorem Cycle.read_cell (x : Cycle) (p : Position) (k j : Nat) : (x.read p k).st.cell j = x.st.cell j := rfl
@[simp] theorem Cycle.readSrc_cell (x : Cycle) (p : Position) (o : Src) (j : Nat) :
    (x.readSrc p o).st.cell j = x.st.cell j := by cases o <;> rfl
@[simp] theorem Cycle.write_cell (x : Cycle) (p : Position) (k : Nat) (v : Word) (j : Nat) :
    (x.write p k v).st.cell j = (x.st.setCell k v).cell j := rfl
@[simp] theorem Cycle.hostRead_cell (x : Cycle) (k : Word) (j : Nat) : (x.hostRead k).st.cell j = x.st.cell j := rfl
@[simp] theorem Cycle.hostWrite_cell (x : Cycle) (e : Word × Word) (j : Nat) :
    (x.hostWrite e).st.cell j = (x.st.setCell e.1.toNat e.2).cell j := rfl
@[simp] theorem Cycle.retire_cell (x : Cycle) (r : Retire) (j : Nat) : (x.retire r).cell j = x.st.cell j := rfl
@[simp] theorem State.boundary_cell (s : State) (j : Nat) : s.boundary.cell j = s.cell j := rfl
@[simp] theorem State.shardCheck_cell (s : State) (j : Nat) : s.shardCheck.cell j = s.cell j :=
  State.cell_congr (by simp) (by simp) j

theorem setReg_get (regs : Vector Word 34) (k : Nat) (v : Word) (j : Nat) (hj : j < 34) :
    (setReg regs k v)[j] = if j = k then storedValue k v else regs[j] := by
  unfold setReg storedValue
  by_cases h : k < 34
  · rw [dif_pos h, Vector.getElem_set]
    simp only [eq_comm]
  · rw [dif_neg h, if_neg (by omega)]

/-- A cell that is a register, after setting cell `k`. -/
theorem State.cell_setCell_reg (s : State) (k : Nat) (v : Word) {j : Nat} (hj : j < 34) :
    (s.setCell k v).cell j = if j = k then storedValue k v else s.cell j := by
  simp only [State.cell, dif_pos hj, State.setCell_regs, setReg_get _ _ _ _ hj]
  unfold storedValue
  split_ifs <;> simp_all

/-- The cell that was set reads the stored value. -/
theorem State.cell_setCell_same (s : State) (k : Nat) (v : Word) : (s.setCell k v).cell k = storedValue k v := by
  by_cases h : k < 34
  · rw [State.cell_setCell_reg s k v h, if_pos rfl]
  · simp [State.cell, h, setData, storedValue, show k ≠ 0 by omega]

/-- Two different keys of the store are different cells. -/
theorem State.cell_setCell_other (s : State) {k j : Nat} (v : Word) (hk : validKey k) (hj : validKey j) (h : j ≠ k) :
    (s.setCell k v).cell j = s.cell j := by
  by_cases h34 : j < 34
  · rw [State.cell_setCell_reg s k v h34, if_neg h]
  · simp only [State.cell, dif_neg h34, State.setCell_mem, setData]
    split
    · rfl
    · next hk' =>
      rcases hk with hk | ⟨hk, _, _⟩
      · exact absurd hk hk'
      · rcases hj with hj | ⟨hj, _, _⟩
        · exact absurd hj h34
        · exact Memory.word_setWord_other _ _ (by omega)

theorem setData_byte_outside (mem : List Host.Cell) {k a : Nat} (v : Word) (h : a < k ∨ k + 4 ≤ a) :
    Memory.byte (setData mem k v) a = Memory.byte mem a := by
  unfold setData
  split
  · rfl
  · exact Memory.byte_setWord_outside _ _ h

@[simp] theorem setData_reg (mem : List Host.Cell) {k : Nat} (v : Word) (h : k < 34) : setData mem k v = mem := by
  simp [setData, h]

theorem setReg_data (regs : Vector Word 34) {k : Nat} (v : Word) (h : 34 ≤ k) : setReg regs k v = regs := by
  simp [setReg, Nat.not_lt.2 h]

theorem wf_setData {mem : List Host.Cell} (h : Memory.wf mem) {k : Nat} (hk : validKey k) (v : Word) :
    Memory.wf (setData mem k v) := by
  unfold setData
  split
  · exact h
  · exact Memory.wf_setWord h (hk.resolve_left ‹_›) v

theorem setReg_zero (regs : Vector Word 34) (k : Nat) (v : Word) (h : regs[0] = 0) : (setReg regs k v)[0] = 0 := by
  rw [setReg_get _ _ _ _ (by omega)]
  split
  · next h0 => simp [storedValue, ← h0]
  · exact h

@[simp] theorem State.reset_wf : Memory.wf State.reset.mem := by
  exact ⟨List.Pairwise.nil, fun c hc => by cases hc⟩

end Sys2Proof.Machine
end

