-- ==== Sys2Proof/Laws/Ops.lean ====
section
/-! SUPPORT. One law per shared shape of instruction, saying everything it can do: what it answers, which register and
memory it changes, and how it advances the control state. Later proofs cite these instead of unfolding the shapes. -/

namespace Sys2Proof.Machine

@[simp] theorem andThen_next (s : State) (f : State → Result) : andThen (.next s) f = f s := rfl
@[simp] theorem andThen_fault (e : Fault) (f : State → Result) : andThen (.fault e) f = .fault e := rfl
@[simp] theorem andThen_refused (e : Refusal) (f : State → Result) : andThen (.refused e) f = .refused e := rfl

/-! ### The two frames a cycle is made of -/

theorem onlyRegister_write (s : State) (x : Cycle) (p : Position) (r : Retire) (k : Nat) (v : Word)
    (hx : ∀ j, x.st.cell j = s.cell j) : OnlyRegister s ((x.write p k v).retire r) k v := by
  intro j hj
  rw [Cycle.retire_cell, Cycle.write_cell, State.cell_setCell_reg _ _ _ hj, hx]

theorem onlyWord_write (s : State) (x : Cycle) (p : Position) (r : Retire) {k : Nat} (v : Word) (hk : 36 ≤ k)
    (hm : x.st.mem = s.mem) : OnlyWord s ((x.write p k v).retire r) k v := by
  refine ⟨?_, fun a ha => ?_⟩
  · rw [Cycle.retire_cell, Cycle.write_cell, State.cell_setCell_same, storedValue, if_neg (by omega)]
  · rw [Cycle.retire_mem, Cycle.write_mem, setData_byte_outside _ _ ha, hm]

/-- A read after the write changes no cell. -/
theorem onlyRegister_writeRead (s : State) (x : Cycle) (p q : Position) (r : Retire) (k j : Nat) (v : Word)
    (hx : ∀ j, x.st.cell j = s.cell j) : OnlyRegister s (((x.write p k v).read q j).retire r) k v := by
  simpa only [OnlyRegister, Cycle.retire_cell, Cycle.read_cell] using onlyRegister_write s x p r k v hx

theorem onlyWord_writeRead (s : State) (x : Cycle) (p q : Position) (r : Retire) {k : Nat} (j : Nat) (v : Word)
    (hk : 36 ≤ k) (hm : x.st.mem = s.mem) : OnlyWord s (((x.write p k v).read q j).retire r) k v := by
  simpa only [OnlyWord, Cycle.retire_cell, Cycle.read_cell, Cycle.retire_mem, Cycle.read_mem] using
    onlyWord_write s x p r v hk hm

/-! ### ALU shapes -/

theorem computeOld_next (op : Opcode) (f : Word → Word → Word → Word) {a : Nat} (ha : a < 34) (b c : Src) (s : State)
    (hop : isTransfer op = false) :
    ∃ t, computeOld op f a b c s = .next t ∧ OnlyRegister s t a (f (s.src b) (s.src c) (s.cell a)) ∧ SameMemory s t
      ∧ Advances s t (s.npc + 4) false := by
  refine ⟨_, rfl, onlyRegister_write _ _ _ _ _ _ (by simp), fun k => by simp [ha], ?_⟩
  constructor <;> simp [hop]

theorem compute_next (op : Opcode) (f : Word → Word → Word) {a : Nat} (ha : a < 34) (b c : Src) (s : State)
    (hop : isTransfer op = false) :
    ∃ t, compute op f a b c s = .next t ∧ OnlyRegister s t a (f (s.src b) (s.src c)) ∧ SameMemory s t
      ∧ Advances s t (s.npc + 4) false :=
  computeOld_next op (fun x y _ => f x y) ha b c s hop

/-- The multiplicative group writes LO and HI and nothing else (41_muldiv R250). -/
theorem computeHiLo_next (op : Opcode) (f : Word → Word → Word → Word → Word × Word) (b c : Nat) (s : State)
    (hop : isTransfer op = false) :
    ∃ t, computeHiLo op f b c s = .next t
      ∧ OnlyHiLo s t (f (s.cell b) (s.cell c) (s.cell loIndex) (s.cell hiIndex)).1
          (f (s.cell b) (s.cell c) (s.cell loIndex) (s.cell hiIndex)).2
      ∧ SameMemory s t ∧ Advances s t (s.npc + 4) false := by
  refine ⟨_, rfl, fun j hj => ?_, fun k => by simp [loIndex, hiIndex], ?_⟩
  · rw [Cycle.retire_cell, Cycle.write_cell, State.cell_setCell_reg _ _ _ hj, Cycle.write_cell,
      State.cell_setCell_reg _ _ _ hj]
    simp only [Cycle.read_cell, State.begin_st, storedValue]
    split_ifs <;> simp_all
  · constructor <;> simp [hop]

/-! ### Loads and stores -/

theorem lowAddressFaults_iff (s : State) (ea : Word) :
    s.lowAddressFaults ea = true ↔ wordKey ea ≤ 32 ∧ s.params.lowAddressPolicy = .fault := by
  simp [State.lowAddressFaults]

theorem lowAddressFaults_of_data {s : State} {ea : Word} (h : 36 ≤ wordKey ea) : s.lowAddressFaults ea = false := by
  simp [State.lowAddressFaults, show ¬ wordKey ea ≤ 32 by omega]

/-- A load faults under the low-address policy, with its opcode and effective address (42_loadstore R280). -/
theorem load_fault (op : Opcode) (f : Word → Word → Word → Word) (rt base : Nat) (off : Word) (s : State)
    (h : s.lowAddressFaults (s.effectiveAddress base off) = true) :
    load op f rt base off s = .fault (.invalidMemoryAccess op (s.effectiveAddress base off)) := by
  simp [load, h, raise]

/-- A load that is admitted writes its destination and nothing else (42_loadstore R281). -/
theorem load_next (op : Opcode) (f : Word → Word → Word → Word) {rt : Nat} (hrt : rt < 34) (base : Nat) (off : Word)
    (s : State) (hop : isTransfer op = false) (h : s.lowAddressFaults (s.effectiveAddress base off) = false) :
    ∃ t, load op f rt base off s = .next t
      ∧ OnlyRegister s t rt (f (s.cell (wordKey (s.effectiveAddress base off))) (s.effectiveAddress base off) (s.cell rt))
      ∧ SameMemory s t ∧ Advances s t (s.npc + 4) false := by
  simp only [load, h]
  refine ⟨_, rfl, onlyRegister_write _ _ _ _ _ _ (by simp), fun k => by simp [hrt], ?_⟩
  constructor <;> simp [hop]

/-- A store faults under the low-address policy (42_loadstore R280). -/
theorem store_fault (op : Opcode) (f : Word → Word → Word → Word) (rt base : Nat) (off : Word) (s : State)
    (h : s.lowAddressFaults (s.effectiveAddress base off) = true) :
    store op f rt base off s = .fault (.invalidMemoryAccess op (s.effectiveAddress base off)) := by
  simp [store, h, raise]

/-- A store to a data word writes that word and nothing else (42_loadstore R282). -/
theorem store_next (op : Opcode) (f : Word → Word → Word → Word) (rt base : Nat) (off : Word) (s : State)
    (hop : isTransfer op = false) (h : 36 ≤ wordKey (s.effectiveAddress base off)) :
    ∃ t, store op f rt base off s = .next t ∧ SameRegisters s t
      ∧ OnlyWord s t (wordKey (s.effectiveAddress base off))
          (f (s.cell (wordKey (s.effectiveAddress base off))) (s.cell rt) (s.effectiveAddress base off))
      ∧ Advances s t (s.npc + 4) false := by
  simp only [store, lowAddressFaults_of_data h]
  refine ⟨_, rfl, fun j hj => ?_, onlyWord_writeRead _ _ _ _ _ _ _ h (by simp), ?_⟩
  · rw [Cycle.retire_cell, Cycle.read_cell, Cycle.write_cell, State.cell_setCell_reg _ _ _ hj, if_neg (by omega)]
    simp
  · constructor <;> simp [hop]

/-- A store admitted to a register cell writes that register and nothing else (20_memory R73). -/
theorem store_alias (op : Opcode) (f : Word → Word → Word → Word) (rt base : Nat) (off : Word) (s : State)
    (hop : isTransfer op = false) (h : s.lowAddressFaults (s.effectiveAddress base off) = false)
    (hk : wordKey (s.effectiveAddress base off) ≤ 32) :
    ∃ t, store op f rt base off s = .next t
      ∧ OnlyRegister s t (wordKey (s.effectiveAddress base off))
          (f (s.cell (wordKey (s.effectiveAddress base off))) (s.cell rt) (s.effectiveAddress base off))
      ∧ SameMemory s t ∧ Advances s t (s.npc + 4) false := by
  simp only [store, h]
  refine ⟨_, rfl, onlyRegister_writeRead _ _ _ _ _ _ _ _ (by simp), fun a => ?_, ?_⟩
  · simp [show wordKey (s.effectiveAddress base off) < 34 by omega]
  · constructor <;> simp [hop]

/-! ### Branches and jumps -/

/-- A branch changes no register and no memory (43_branch R320). -/
theorem branch_next (op : Opcode) (cond : Word → Word → Bool) (a b : Nat) (off : Word) (s : State)
    (hop : isTransfer op = true) :
    ∃ t, branch op cond a b off s = .next t ∧ SameRegisters s t ∧ SameMemory s t
      ∧ Advances s t (if cond (s.cell a) (s.cell b) then s.npc + off else s.npc + 4) true := by
  refine ⟨_, rfl, fun j _ => by simp, fun a => by simp, ?_⟩
  constructor <;> simp [hop]

/-- A jump writes its link register, where it has one, and nothing else (44_jump R340). -/
theorem jumpTo_next (op : Opcode) {a : Nat} (ha : a < 34) (b : Src) (c target : Word) (s : State)
    (hop : isTransfer op = true) :
    ∃ t, jumpTo op a b c target s = .next t ∧ OnlyRegister s t a (s.npc + 4) ∧ SameMemory s t
      ∧ Advances s t target true := by
  refine ⟨_, rfl, fun j hj => ?_, fun k => ?_, ?_⟩
  · rw [Cycle.retire_cell]
    unfold Cycle.link
    split
    · next h0 => subst h0; by_cases hj0 : j = 0 <;> simp [hj0, storedValue]
    · rw [Cycle.write_cell, State.cell_setCell_reg _ _ _ hj]; simp
  · rw [Cycle.retire_mem]
    unfold Cycle.link
    split <;> simp [ha]
  · constructor <;> simp [hop]

/-! ### The syscall port -/

/-- What a handler's accesses leave in the registers and in memory: its writes, in order. -/
theorem hostAccesses_cells (p : Response) (l : List HostAccess) (x : Cycle) :
    (l.foldl Cycle.hostAccess x).st.regs =
      ({ p with accesses := l } : Response).writes.foldl (fun m e => setReg m e.1.toNat e.2) x.st.regs ∧
    (l.foldl Cycle.hostAccess x).st.mem =
      ({ p with accesses := l } : Response).writes.foldl (fun m e => setData m e.1.toNat e.2) x.st.mem := by
  induction l generalizing x with
  | nil => exact ⟨rfl, rfl⟩
  | cons e r ih =>
    rw [List.foldl_cons]
    obtain ⟨h1, h2⟩ := ih (x.hostAccess e)
    rw [h1, h2]
    cases e <;> exact ⟨rfl, rfl⟩

/-- A handler that writes data words only leaves the registers. -/
theorem hostAccesses_regs (r : Response) (x : Cycle) (h : ∀ e ∈ r.writes, 36 ≤ e.1.toNat) :
    (r.accesses.foldl Cycle.hostAccess x).st.regs = x.st.regs := by
  rw [(hostAccesses_cells r r.accesses x).1]
  change r.writes.foldl _ _ = _
  generalize r.writes = l at h
  induction l with
  | nil => rfl
  | cons e l ih =>
    rw [List.foldl_cons, setReg_data _ _ (by have := h e (by simp); omega)]
    exact ih (fun d hd => h d (by simp [hd]))

/-- And its memory is its writes made in order. -/
theorem hostAccesses_mem (r : Response) (x : Cycle) (h : ∀ e ∈ r.writes, 36 ≤ e.1.toNat) :
    (r.accesses.foldl Cycle.hostAccess x).st.mem =
      r.writes.foldl (fun m e => Memory.setWord m e.1.toNat e.2) x.st.mem := by
  rw [(hostAccesses_cells r r.accesses x).2]
  change r.writes.foldl _ _ = _
  generalize r.writes = l at h
  generalize x.st.mem = m
  induction l generalizing m with
  | nil => rfl
  | cons e l ih =>
    rw [List.foldl_cons, List.foldl_cons, ih (fun d hd => h d (by simp [hd]))]
    have : ¬ e.1.toNat < 34 := by have := h e (by simp); omega
    simp [setData, this]

end Sys2Proof.Machine
end

