-- ==== Sys2Proof/Laws/PerInstr.lean ====
section
/-! SUPPORT. Statements made per instruction. `TableRow`: the encoder puts every form into its own row of
spec/opcode_table.json (the encoding of each rule of files 40 to 46). -/

namespace Sys2Proof.Laws.TableRow

/-- The word of the form matches the mask and match value of its row, whatever its operands. -/
def Statement (i : Instr) : Prop := encode i &&& i.row.mask = i.row.pattern

theorem add (rd rs rt : Reg) : Statement (.add rd rs rt) := by
  show encodeR _ _ _ _ _ _ &&& (0x3f#6 ++ 0x0#5 ++ 0x0#5 ++ 0x0#5 ++ 0x1f#5 ++ 0x3f#6 : BitVec 32) = _
  rw [encodeR_and]; simp [Instr.row, Reg.bits]

theorem addu (rd rs rt : Reg) : Statement (.addu rd rs rt) := by
  show encodeR _ _ _ _ _ _ &&& (0x3f#6 ++ 0x0#5 ++ 0x0#5 ++ 0x0#5 ++ 0x1f#5 ++ 0x3f#6 : BitVec 32) = _
  rw [encodeR_and]; simp [Instr.row, Reg.bits]

theorem sub (rd rs rt : Reg) : Statement (.sub rd rs rt) := by
  show encodeR _ _ _ _ _ _ &&& (0x3f#6 ++ 0x0#5 ++ 0x0#5 ++ 0x0#5 ++ 0x1f#5 ++ 0x3f#6 : BitVec 32) = _
  rw [encodeR_and]; simp [Instr.row, Reg.bits]

theorem subu (rd rs rt : Reg) : Statement (.subu rd rs rt) := by
  show encodeR _ _ _ _ _ _ &&& (0x3f#6 ++ 0x0#5 ++ 0x0#5 ++ 0x0#5 ++ 0x1f#5 ++ 0x3f#6 : BitVec 32) = _
  rw [encodeR_and]; simp [Instr.row, Reg.bits]

theorem and (rd rs rt : Reg) : Statement (.and rd rs rt) := by
  show encodeR _ _ _ _ _ _ &&& (0x3f#6 ++ 0x0#5 ++ 0x0#5 ++ 0x0#5 ++ 0x1f#5 ++ 0x3f#6 : BitVec 32) = _
  rw [encodeR_and]; simp [Instr.row, Reg.bits]

theorem or (rd rs rt : Reg) : Statement (.or rd rs rt) := by
  show encodeR _ _ _ _ _ _ &&& (0x3f#6 ++ 0x0#5 ++ 0x0#5 ++ 0x0#5 ++ 0x1f#5 ++ 0x3f#6 : BitVec 32) = _
  rw [encodeR_and]; simp [Instr.row, Reg.bits]

theorem xor (rd rs rt : Reg) : Statement (.xor rd rs rt) := by
  show encodeR _ _ _ _ _ _ &&& (0x3f#6 ++ 0x0#5 ++ 0x0#5 ++ 0x0#5 ++ 0x1f#5 ++ 0x3f#6 : BitVec 32) = _
  rw [encodeR_and]; simp [Instr.row, Reg.bits]

theorem nor (rd rs rt : Reg) : Statement (.nor rd rs rt) := by
  show encodeR _ _ _ _ _ _ &&& (0x3f#6 ++ 0x0#5 ++ 0x0#5 ++ 0x0#5 ++ 0x1f#5 ++ 0x3f#6 : BitVec 32) = _
  rw [encodeR_and]; simp [Instr.row, Reg.bits]

theorem slt (rd rs rt : Reg) : Statement (.slt rd rs rt) := by
  show encodeR _ _ _ _ _ _ &&& (0x3f#6 ++ 0x0#5 ++ 0x0#5 ++ 0x0#5 ++ 0x1f#5 ++ 0x3f#6 : BitVec 32) = _
  rw [encodeR_and]; simp [Instr.row, Reg.bits]

theorem sltu (rd rs rt : Reg) : Statement (.sltu rd rs rt) := by
  show encodeR _ _ _ _ _ _ &&& (0x3f#6 ++ 0x0#5 ++ 0x0#5 ++ 0x0#5 ++ 0x1f#5 ++ 0x3f#6 : BitVec 32) = _
  rw [encodeR_and]; simp [Instr.row, Reg.bits]

theorem addi (rt rs : Reg) (imm : BitVec 16) : Statement (.addi rt rs imm) := by
  show encodeI _ _ _ _ &&& (0x3f#6 ++ 0x0#5 ++ 0x0#5 ++ 0x0#16 : BitVec 32) = _
  rw [encodeI_and]; simp [Instr.row, Reg.bits]

theorem addiu (rt rs : Reg) (imm : BitVec 16) : Statement (.addiu rt rs imm) := by
  show encodeI _ _ _ _ &&& (0x3f#6 ++ 0x0#5 ++ 0x0#5 ++ 0x0#16 : BitVec 32) = _
  rw [encodeI_and]; simp [Instr.row, Reg.bits]

theorem slti (rt rs : Reg) (imm : BitVec 16) : Statement (.slti rt rs imm) := by
  show encodeI _ _ _ _ &&& (0x3f#6 ++ 0x0#5 ++ 0x0#5 ++ 0x0#16 : BitVec 32) = _
  rw [encodeI_and]; simp [Instr.row, Reg.bits]

theorem sltiu (rt rs : Reg) (imm : BitVec 16) : Statement (.sltiu rt rs imm) := by
  show encodeI _ _ _ _ &&& (0x3f#6 ++ 0x0#5 ++ 0x0#5 ++ 0x0#16 : BitVec 32) = _
  rw [encodeI_and]; simp [Instr.row, Reg.bits]

theorem andi (rt rs : Reg) (imm : BitVec 16) : Statement (.andi rt rs imm) := by
  show encodeI _ _ _ _ &&& (0x3f#6 ++ 0x0#5 ++ 0x0#5 ++ 0x0#16 : BitVec 32) = _
  rw [encodeI_and]; simp [Instr.row, Reg.bits]

theorem ori (rt rs : Reg) (imm : BitVec 16) : Statement (.ori rt rs imm) := by
  show encodeI _ _ _ _ &&& (0x3f#6 ++ 0x0#5 ++ 0x0#5 ++ 0x0#16 : BitVec 32) = _
  rw [encodeI_and]; simp [Instr.row, Reg.bits]

theorem xori (rt rs : Reg) (imm : BitVec 16) : Statement (.xori rt rs imm) := by
  show encodeI _ _ _ _ &&& (0x3f#6 ++ 0x0#5 ++ 0x0#5 ++ 0x0#16 : BitVec 32) = _
  rw [encodeI_and]; simp [Instr.row, Reg.bits]

theorem lui (rt : Reg) (imm : BitVec 16) : Statement (.lui rt imm) := by
  show encodeI _ _ _ _ &&& (0x3f#6 ++ 0x1f#5 ++ 0x0#5 ++ 0x0#16 : BitVec 32) = _
  rw [encodeI_and]; simp [Instr.row, Reg.bits]

theorem sll (rd rt : Reg) (sa : BitVec 5) : Statement (.sll rd rt sa) := by
  show encodeR _ _ _ _ _ _ &&& (0x3f#6 ++ 0x1f#5 ++ 0x0#5 ++ 0x0#5 ++ 0x0#5 ++ 0x3f#6 : BitVec 32) = _
  rw [encodeR_and]; simp [Instr.row, Reg.bits]

theorem srl (rd rt : Reg) (sa : BitVec 5) : Statement (.srl rd rt sa) := by
  show encodeR _ _ _ _ _ _ &&& (0x3f#6 ++ 0x1f#5 ++ 0x0#5 ++ 0x0#5 ++ 0x0#5 ++ 0x3f#6 : BitVec 32) = _
  rw [encodeR_and]; simp [Instr.row, Reg.bits]

theorem rotr (rd rt : Reg) (sa : BitVec 5) : Statement (.rotr rd rt sa) := by
  show encodeR _ _ _ _ _ _ &&& (0x3f#6 ++ 0x1f#5 ++ 0x0#5 ++ 0x0#5 ++ 0x0#5 ++ 0x3f#6 : BitVec 32) = _
  rw [encodeR_and]; simp [Instr.row, Reg.bits]

theorem sra (rd rt : Reg) (sa : BitVec 5) : Statement (.sra rd rt sa) := by
  show encodeR _ _ _ _ _ _ &&& (0x3f#6 ++ 0x1f#5 ++ 0x0#5 ++ 0x0#5 ++ 0x0#5 ++ 0x3f#6 : BitVec 32) = _
  rw [encodeR_and]; simp [Instr.row, Reg.bits]

theorem sllv (rd rt rs : Reg) : Statement (.sllv rd rt rs) := by
  show encodeR _ _ _ _ _ _ &&& (0x3f#6 ++ 0x0#5 ++ 0x0#5 ++ 0x0#5 ++ 0x1f#5 ++ 0x3f#6 : BitVec 32) = _
  rw [encodeR_and]; simp [Instr.row, Reg.bits]

theorem srlv (rd rt rs : Reg) : Statement (.srlv rd rt rs) := by
  show encodeR _ _ _ _ _ _ &&& (0x3f#6 ++ 0x0#5 ++ 0x0#5 ++ 0x0#5 ++ 0x1f#5 ++ 0x3f#6 : BitVec 32) = _
  rw [encodeR_and]; simp [Instr.row, Reg.bits]

theorem rotrv (rd rt rs : Reg) : Statement (.rotrv rd rt rs) := by
  show encodeR _ _ _ _ _ _ &&& (0x3f#6 ++ 0x0#5 ++ 0x0#5 ++ 0x0#5 ++ 0x1f#5 ++ 0x3f#6 : BitVec 32) = _
  rw [encodeR_and]; simp [Instr.row, Reg.bits]

theorem srav (rd rt rs : Reg) : Statement (.srav rd rt rs) := by
  show encodeR _ _ _ _ _ _ &&& (0x3f#6 ++ 0x0#5 ++ 0x0#5 ++ 0x0#5 ++ 0x1f#5 ++ 0x3f#6 : BitVec 32) = _
  rw [encodeR_and]; simp [Instr.row, Reg.bits]

theorem clz (rd rs rt : Reg) : Statement (.clz rd rs rt) := by
  show encodeR _ _ _ _ _ _ &&& (0x3f#6 ++ 0x0#5 ++ 0x0#5 ++ 0x0#5 ++ 0x1f#5 ++ 0x3f#6 : BitVec 32) = _
  rw [encodeR_and]; simp [Instr.row, Reg.bits]

theorem clo (rd rs rt : Reg) : Statement (.clo rd rs rt) := by
  show encodeR _ _ _ _ _ _ &&& (0x3f#6 ++ 0x0#5 ++ 0x0#5 ++ 0x0#5 ++ 0x1f#5 ++ 0x3f#6 : BitVec 32) = _
  rw [encodeR_and]; simp [Instr.row, Reg.bits]

theorem mfhi (rd : Reg) : Statement (.mfhi rd) := by
  show encodeR _ _ _ _ _ _ &&& (0x3f#6 ++ 0x1f#5 ++ 0x1f#5 ++ 0x0#5 ++ 0x1f#5 ++ 0x3f#6 : BitVec 32) = _
  rw [encodeR_and]; simp [Instr.row, Reg.bits]

theorem mflo (rd : Reg) : Statement (.mflo rd) := by
  show encodeR _ _ _ _ _ _ &&& (0x3f#6 ++ 0x1f#5 ++ 0x1f#5 ++ 0x0#5 ++ 0x1f#5 ++ 0x3f#6 : BitVec 32) = _
  rw [encodeR_and]; simp [Instr.row, Reg.bits]

theorem mthi (rs : Reg) : Statement (.mthi rs) := by
  show encodeR _ _ _ _ _ _ &&& (0x3f#6 ++ 0x0#5 ++ 0x1f#5 ++ 0x1f#5 ++ 0x1f#5 ++ 0x3f#6 : BitVec 32) = _
  rw [encodeR_and]; simp [Instr.row, Reg.bits]

theorem mtlo (rs : Reg) : Statement (.mtlo rs) := by
  show encodeR _ _ _ _ _ _ &&& (0x3f#6 ++ 0x0#5 ++ 0x1f#5 ++ 0x1f#5 ++ 0x1f#5 ++ 0x3f#6 : BitVec 32) = _
  rw [encodeR_and]; simp [Instr.row, Reg.bits]

theorem sync (stype : BitVec 5) : Statement (.sync stype) := by
  show encodeR _ _ _ _ _ _ &&& (0x3f#6 ++ 0x1f#5 ++ 0x1f#5 ++ 0x1f#5 ++ 0x0#5 ++ 0x3f#6 : BitVec 32) = _
  rw [encodeR_and]; simp [Instr.row, Reg.bits]

theorem pref (hint : BitVec 5) (base : Reg) (off : BitVec 16) : Statement (.pref hint base off) := by
  show encodeI _ _ _ _ &&& (0x3f#6 ++ 0x0#5 ++ 0x0#5 ++ 0x0#16 : BitVec 32) = _
  rw [encodeI_and]; simp [Instr.row, Reg.bits]

theorem synci (base : Reg) (off : BitVec 16) : Statement (.synci base off) := by
  show encodeI _ _ _ _ &&& (0x3f#6 ++ 0x0#5 ++ 0x1f#5 ++ 0x0#16 : BitVec 32) = _
  rw [encodeI_and]; simp [Instr.row, Reg.bits]

theorem mul (rd rs rt : Reg) : Statement (.mul rd rs rt) := by
  show encodeR _ _ _ _ _ _ &&& (0x3f#6 ++ 0x0#5 ++ 0x0#5 ++ 0x0#5 ++ 0x1f#5 ++ 0x3f#6 : BitVec 32) = _
  rw [encodeR_and]; simp [Instr.row, Reg.bits]

theorem mult (rs rt : Reg) : Statement (.mult rs rt) := by
  show encodeR _ _ _ _ _ _ &&& (0x3f#6 ++ 0x0#5 ++ 0x0#5 ++ 0x1f#5 ++ 0x1f#5 ++ 0x3f#6 : BitVec 32) = _
  rw [encodeR_and]; simp [Instr.row, Reg.bits]

theorem multu (rs rt : Reg) : Statement (.multu rs rt) := by
  show encodeR _ _ _ _ _ _ &&& (0x3f#6 ++ 0x0#5 ++ 0x0#5 ++ 0x1f#5 ++ 0x1f#5 ++ 0x3f#6 : BitVec 32) = _
  rw [encodeR_and]; simp [Instr.row, Reg.bits]

theorem div (rs rt : Reg) : Statement (.div rs rt) := by
  show encodeR _ _ _ _ _ _ &&& (0x3f#6 ++ 0x0#5 ++ 0x0#5 ++ 0x1f#5 ++ 0x1f#5 ++ 0x3f#6 : BitVec 32) = _
  rw [encodeR_and]; simp [Instr.row, Reg.bits]

theorem divu (rs rt : Reg) : Statement (.divu rs rt) := by
  show encodeR _ _ _ _ _ _ &&& (0x3f#6 ++ 0x0#5 ++ 0x0#5 ++ 0x1f#5 ++ 0x1f#5 ++ 0x3f#6 : BitVec 32) = _
  rw [encodeR_and]; simp [Instr.row, Reg.bits]

theorem madd (rs rt : Reg) : Statement (.madd rs rt) := by
  show encodeR _ _ _ _ _ _ &&& (0x3f#6 ++ 0x0#5 ++ 0x0#5 ++ 0x1f#5 ++ 0x1f#5 ++ 0x3f#6 : BitVec 32) = _
  rw [encodeR_and]; simp [Instr.row, Reg.bits]

theorem maddu (rs rt : Reg) : Statement (.maddu rs rt) := by
  show encodeR _ _ _ _ _ _ &&& (0x3f#6 ++ 0x0#5 ++ 0x0#5 ++ 0x1f#5 ++ 0x1f#5 ++ 0x3f#6 : BitVec 32) = _
  rw [encodeR_and]; simp [Instr.row, Reg.bits]

theorem msub (rs rt : Reg) : Statement (.msub rs rt) := by
  show encodeR _ _ _ _ _ _ &&& (0x3f#6 ++ 0x0#5 ++ 0x0#5 ++ 0x1f#5 ++ 0x1f#5 ++ 0x3f#6 : BitVec 32) = _
  rw [encodeR_and]; simp [Instr.row, Reg.bits]

theorem msubu (rs rt : Reg) : Statement (.msubu rs rt) := by
  show encodeR _ _ _ _ _ _ &&& (0x3f#6 ++ 0x0#5 ++ 0x0#5 ++ 0x1f#5 ++ 0x1f#5 ++ 0x3f#6 : BitVec 32) = _
  rw [encodeR_and]; simp [Instr.row, Reg.bits]

theorem lb (rt base : Reg) (off : BitVec 16) : Statement (.lb rt base off) := by
  show encodeI _ _ _ _ &&& (0x3f#6 ++ 0x0#5 ++ 0x0#5 ++ 0x0#16 : BitVec 32) = _
  rw [encodeI_and]; simp [Instr.row, Reg.bits]

theorem lh (rt base : Reg) (off : BitVec 16) : Statement (.lh rt base off) := by
  show encodeI _ _ _ _ &&& (0x3f#6 ++ 0x0#5 ++ 0x0#5 ++ 0x0#16 : BitVec 32) = _
  rw [encodeI_and]; simp [Instr.row, Reg.bits]

theorem lwl (rt base : Reg) (off : BitVec 16) : Statement (.lwl rt base off) := by
  show encodeI _ _ _ _ &&& (0x3f#6 ++ 0x0#5 ++ 0x0#5 ++ 0x0#16 : BitVec 32) = _
  rw [encodeI_and]; simp [Instr.row, Reg.bits]

theorem lw (rt base : Reg) (off : BitVec 16) : Statement (.lw rt base off) := by
  show encodeI _ _ _ _ &&& (0x3f#6 ++ 0x0#5 ++ 0x0#5 ++ 0x0#16 : BitVec 32) = _
  rw [encodeI_and]; simp [Instr.row, Reg.bits]

theorem lbu (rt base : Reg) (off : BitVec 16) : Statement (.lbu rt base off) := by
  show encodeI _ _ _ _ &&& (0x3f#6 ++ 0x0#5 ++ 0x0#5 ++ 0x0#16 : BitVec 32) = _
  rw [encodeI_and]; simp [Instr.row, Reg.bits]

theorem lhu (rt base : Reg) (off : BitVec 16) : Statement (.lhu rt base off) := by
  show encodeI _ _ _ _ &&& (0x3f#6 ++ 0x0#5 ++ 0x0#5 ++ 0x0#16 : BitVec 32) = _
  rw [encodeI_and]; simp [Instr.row, Reg.bits]

theorem lwr (rt base : Reg) (off : BitVec 16) : Statement (.lwr rt base off) := by
  show encodeI _ _ _ _ &&& (0x3f#6 ++ 0x0#5 ++ 0x0#5 ++ 0x0#16 : BitVec 32) = _
  rw [encodeI_and]; simp [Instr.row, Reg.bits]

theorem sb (rt base : Reg) (off : BitVec 16) : Statement (.sb rt base off) := by
  show encodeI _ _ _ _ &&& (0x3f#6 ++ 0x0#5 ++ 0x0#5 ++ 0x0#16 : BitVec 32) = _
  rw [encodeI_and]; simp [Instr.row, Reg.bits]

theorem sh (rt base : Reg) (off : BitVec 16) : Statement (.sh rt base off) := by
  show encodeI _ _ _ _ &&& (0x3f#6 ++ 0x0#5 ++ 0x0#5 ++ 0x0#16 : BitVec 32) = _
  rw [encodeI_and]; simp [Instr.row, Reg.bits]

theorem swl (rt base : Reg) (off : BitVec 16) : Statement (.swl rt base off) := by
  show encodeI _ _ _ _ &&& (0x3f#6 ++ 0x0#5 ++ 0x0#5 ++ 0x0#16 : BitVec 32) = _
  rw [encodeI_and]; simp [Instr.row, Reg.bits]

theorem sw (rt base : Reg) (off : BitVec 16) : Statement (.sw rt base off) := by
  show encodeI _ _ _ _ &&& (0x3f#6 ++ 0x0#5 ++ 0x0#5 ++ 0x0#16 : BitVec 32) = _
  rw [encodeI_and]; simp [Instr.row, Reg.bits]

theorem swr (rt base : Reg) (off : BitVec 16) : Statement (.swr rt base off) := by
  show encodeI _ _ _ _ &&& (0x3f#6 ++ 0x0#5 ++ 0x0#5 ++ 0x0#16 : BitVec 32) = _
  rw [encodeI_and]; simp [Instr.row, Reg.bits]

theorem ll (rt base : Reg) (off : BitVec 16) : Statement (.ll rt base off) := by
  show encodeI _ _ _ _ &&& (0x3f#6 ++ 0x0#5 ++ 0x0#5 ++ 0x0#16 : BitVec 32) = _
  rw [encodeI_and]; simp [Instr.row, Reg.bits]

theorem sc (rt base : Reg) (off : BitVec 16) : Statement (.sc rt base off) := by
  show encodeI _ _ _ _ &&& (0x3f#6 ++ 0x0#5 ++ 0x0#5 ++ 0x0#16 : BitVec 32) = _
  rw [encodeI_and]; simp [Instr.row, Reg.bits]

theorem beq (rs rt : Reg) (off : BitVec 16) : Statement (.beq rs rt off) := by
  show encodeI _ _ _ _ &&& (0x3f#6 ++ 0x0#5 ++ 0x0#5 ++ 0x0#16 : BitVec 32) = _
  rw [encodeI_and]; simp [Instr.row, Reg.bits]

theorem bne (rs rt : Reg) (off : BitVec 16) : Statement (.bne rs rt off) := by
  show encodeI _ _ _ _ &&& (0x3f#6 ++ 0x0#5 ++ 0x0#5 ++ 0x0#16 : BitVec 32) = _
  rw [encodeI_and]; simp [Instr.row, Reg.bits]

theorem blez (rs : Reg) (off : BitVec 16) : Statement (.blez rs off) := by
  show encodeI _ _ _ _ &&& (0x3f#6 ++ 0x0#5 ++ 0x1f#5 ++ 0x0#16 : BitVec 32) = _
  rw [encodeI_and]; simp [Instr.row, Reg.bits]

theorem bgtz (rs : Reg) (off : BitVec 16) : Statement (.bgtz rs off) := by
  show encodeI _ _ _ _ &&& (0x3f#6 ++ 0x0#5 ++ 0x1f#5 ++ 0x0#16 : BitVec 32) = _
  rw [encodeI_and]; simp [Instr.row, Reg.bits]

theorem bltz (rs : Reg) (off : BitVec 16) : Statement (.bltz rs off) := by
  show encodeI _ _ _ _ &&& (0x3f#6 ++ 0x0#5 ++ 0x1f#5 ++ 0x0#16 : BitVec 32) = _
  rw [encodeI_and]; simp [Instr.row, Reg.bits]

theorem bgez (rs : Reg) (off : BitVec 16) : Statement (.bgez rs off) := by
  show encodeI _ _ _ _ &&& (0x3f#6 ++ 0x0#5 ++ 0x1f#5 ++ 0x0#16 : BitVec 32) = _
  rw [encodeI_and]; simp [Instr.row, Reg.bits]

theorem j (index : BitVec 26) : Statement (.j index) := by
  show encodeJ _ _ &&& (0x3f#6 ++ 0x0#26 : BitVec 32) = _
  rw [encodeJ_and]; simp [Instr.row]

theorem jal (index : BitVec 26) : Statement (.jal index) := by
  show encodeJ _ _ &&& (0x3f#6 ++ 0x0#26 : BitVec 32) = _
  rw [encodeJ_and]; simp [Instr.row]

theorem jr (rs : Reg) : Statement (.jr rs) := by
  show encodeR _ _ _ _ _ _ &&& (0x3f#6 ++ 0x0#5 ++ 0x1f#5 ++ 0x1f#5 ++ 0x1f#5 ++ 0x3f#6 : BitVec 32) = _
  rw [encodeR_and]; simp [Instr.row, Reg.bits]

theorem jalr (rd rs : Reg) : Statement (.jalr rd rs) := by
  show encodeR _ _ _ _ _ _ &&& (0x3f#6 ++ 0x0#5 ++ 0x1f#5 ++ 0x0#5 ++ 0x1f#5 ++ 0x3f#6 : BitVec 32) = _
  rw [encodeR_and]; simp [Instr.row, Reg.bits]

theorem bal (off : BitVec 16) : Statement (.bal off) := by
  show encodeI _ _ _ _ &&& (0x3f#6 ++ 0x1f#5 ++ 0x1f#5 ++ 0x0#16 : BitVec 32) = _
  rw [encodeI_and]; simp [Instr.row, Reg.bits]

theorem movz (rd rs rt : Reg) : Statement (.movz rd rs rt) := by
  show encodeR _ _ _ _ _ _ &&& (0x3f#6 ++ 0x0#5 ++ 0x0#5 ++ 0x0#5 ++ 0x1f#5 ++ 0x3f#6 : BitVec 32) = _
  rw [encodeR_and]; simp [Instr.row, Reg.bits]

theorem movn (rd rs rt : Reg) : Statement (.movn rd rs rt) := by
  show encodeR _ _ _ _ _ _ &&& (0x3f#6 ++ 0x0#5 ++ 0x0#5 ++ 0x0#5 ++ 0x1f#5 ++ 0x3f#6 : BitVec 32) = _
  rw [encodeR_and]; simp [Instr.row, Reg.bits]

theorem seb (rd rt : Reg) : Statement (.seb rd rt) := by
  show encodeR _ _ _ _ _ _ &&& (0x3f#6 ++ 0x1f#5 ++ 0x0#5 ++ 0x0#5 ++ 0x1f#5 ++ 0x3f#6 : BitVec 32) = _
  rw [encodeR_and]; simp [Instr.row, Reg.bits]

theorem seh (rd rt : Reg) : Statement (.seh rd rt) := by
  show encodeR _ _ _ _ _ _ &&& (0x3f#6 ++ 0x1f#5 ++ 0x0#5 ++ 0x0#5 ++ 0x1f#5 ++ 0x3f#6 : BitVec 32) = _
  rw [encodeR_and]; simp [Instr.row, Reg.bits]

theorem wsbh (rd rt : Reg) : Statement (.wsbh rd rt) := by
  show encodeR _ _ _ _ _ _ &&& (0x3f#6 ++ 0x1f#5 ++ 0x0#5 ++ 0x0#5 ++ 0x1f#5 ++ 0x3f#6 : BitVec 32) = _
  rw [encodeR_and]; simp [Instr.row, Reg.bits]

theorem ext (rt rs : Reg) (msbd lsb : BitVec 5) : Statement (.ext rt rs msbd lsb) := by
  show encodeR _ _ _ _ _ _ &&& (0x3f#6 ++ 0x0#5 ++ 0x0#5 ++ 0x0#5 ++ 0x0#5 ++ 0x3f#6 : BitVec 32) = _
  rw [encodeR_and]; simp [Instr.row, Reg.bits]

theorem ins (rt rs : Reg) (msb lsb : BitVec 5) : Statement (.ins rt rs msb lsb) := by
  show encodeR _ _ _ _ _ _ &&& (0x3f#6 ++ 0x0#5 ++ 0x0#5 ++ 0x0#5 ++ 0x0#5 ++ 0x3f#6 : BitVec 32) = _
  rw [encodeR_and]; simp [Instr.row, Reg.bits]

theorem teq (rs rt : Reg) (code : BitVec 10) : Statement (.teq rs rt code) := by
  show encodeCode10 _ _ _ _ &&& (0x3f#6 ++ 0x0#5 ++ 0x0#5 ++ 0x0#10 ++ 0x3f#6 : BitVec 32) = _
  rw [encodeCode10_and]; simp [Instr.row, Reg.bits]

theorem syscall (code : BitVec 20) : Statement (.syscall code) := by
  show encodeCode20 _ _ &&& (0x3f#6 ++ 0x0#20 ++ 0x3f#6 : BitVec 32) = _
  rw [encodeCode20_and]; simp [Instr.row]

theorem brk (code : BitVec 20) : Statement (.brk code) := by
  show encodeCode20 _ _ &&& (0x3f#6 ++ 0x0#20 ++ 0x3f#6 : BitVec 32) = _
  rw [encodeCode20_and]; simp [Instr.row]

end Sys2Proof.Laws.TableRow
end

