-- ==== Sys2Proof/Laws/Reach.lean ====
section
/-! SUPPORT. The inversion law of execution: whatever completes does so by a sequence of register and memory accesses, a
syscall's answer among them, followed by the end of the cycle. Invariants of a step are proved by induction on that
sequence instead of by taking each instruction apart. -/

namespace Sys2Proof.Machine

/-- The cycles an instruction executed from `s` can pass through. -/
inductive Reaches (s : State) : Cycle → Prop where
  | start : Reaches s s.begin
  | read {x : Cycle} (p : Position) {k : Nat} (hx : Reaches s x) (hk : validKey k) : Reaches s (x.read p k)
  | write {x : Cycle} (p : Position) {k : Nat} (v : Word) (hx : Reaches s x) (hk : validKey k) :
      Reaches s (x.write p k v)
  | hostRead {x : Cycle} (k : Word) (hx : Reaches s x) (hk : validKey k.toNat) : Reaches s (x.hostRead k)
  | hostWrite {x : Cycle} (e : Word × Word) (hx : Reaches s x) (hk : validKey e.1.toNat) : Reaches s (x.hostWrite e)
  | port {x : Cycle} (answers : List (Word × Response)) (exited : Bool) (code : Word) (hx : Reaches s x)
      (hc : code = 0 ∨ code = x.st.exitCode) :
      Reaches s { x with st := { x.st with hostAnswers := answers, exited := exited, exitCode := code } }

/-- An outcome that, where it is a next state, is the end of a cycle reached from `s`, of the decoded opcode `op`. No cycle
of BREAK or UNIMPL ends; only SYSCALL overrides the pc update or adds cycles, and only a transfer leaves `npc + 4`. -/
def Completes (s : State) (op : Opcode) (r : Result) : Prop :=
  ∀ t, r = .next t → ∃ x q, Reaches s x ∧ t = x.retire q ∧ q.op = op ∧ op ≠ .brk ∧ op ≠ .unimpl ∧
    (op ≠ .syscall → q.jump = none ∧ q.extra = 0 ∧ (isTransfer op = false → q.nnpc = s.npc + 4))

theorem Completes.of_eq {s : State} {b b' : Opcode} {r r' : Result} (h : r = r') (hb : b' = b) (hc : Completes s b' r') :
    Completes s b r := h ▸ hb ▸ hc

theorem Reaches.readSrc {s : State} {x : Cycle} (p : Position) (o : Src) (hx : Reaches s x)
    (ho : ∀ k, o = .reg k → validKey k) : Reaches s (x.readSrc p o) := by
  cases o with
  | reg k => exact hx.read p (ho k rfl)
  | imm v => exact hx

theorem Reaches.link {s : State} {x : Cycle} (hx : Reaches s x) {a : Nat} (ha : a < 34) : Reaches s (x.link a) := by
  unfold Cycle.link
  split
  · exact hx
  · exact hx.write _ _ (.inl ha)

theorem Reaches.hostAccesses {s : State} (r : Response) (hw : ∀ e ∈ r.writes, validKey e.1.toNat)
    (hr : ∀ k ∈ r.reads, validKey k.toNat) {x : Cycle} (hx : Reaches s x) :
    Reaches s (r.accesses.foldl Cycle.hostAccess x) := by
  unfold Response.writes at hw
  unfold Response.reads at hr
  generalize r.accesses = l at hw hr
  induction l generalizing x with
  | nil => exact hx
  | cons e l ih =>
    cases e with
    | read k =>
      exact ih (hx.hostRead k (hr k (by simp))) (fun d hd => hw d (by simpa using hd))
        (fun d hd => hr d (by simp at hd ⊢; exact .inr hd))
    | write k v =>
      exact ih (hx.hostWrite (k, v) (hw (k, v) (by simp))) (fun d hd => hw d (by simp at hd ⊢; exact .inr hd))
        (fun d hd => hr d (by simpa using hd))

/-! ### The shapes -/

theorem completes_raise (s : State) (op : Opcode) (e : Fault) : Completes s op (raise e) := fun t h => by
  simp [raise] at h

theorem completes_refuse (s : State) (op : Opcode) (e : Refusal) : Completes s op (refuse e) := fun t h => by
  simp [refuse] at h

theorem completes_next {s : State} {x : Cycle} {q : Retire} (hx : Reaches s x) (hb : q.op ≠ .brk)
    (hu : q.op ≠ .unimpl)
    (hq : q.op ≠ .syscall → q.jump = none ∧ q.extra = 0 ∧ (isTransfer q.op = false → q.nnpc = s.npc + 4)) :
    Completes s q.op (.next (x.retire q)) := fun t h => by
  cases h
  exact ⟨x, q, hx, rfl, rfl, hb, hu, hq⟩

theorem completes_computeOld (op : Opcode) (h1 : op ≠ .brk) (h2 : op ≠ .unimpl) (f : Word → Word → Word → Word) {a : Nat} (ha : a < 34) {b c : Src}
    (hb : ∀ k, b = .reg k → k < 34) (hc : ∀ k, c = .reg k → k < 34) (s : State) :
    Completes s op (computeOld op f a b c s) :=
  completes_next (((Reaches.start.readSrc _ _ fun k h => .inl (hc k h)).readSrc _ _ fun k h => .inl (hb k h)).write _ _
    (.inl ha)) h1 h2 (fun _ => ⟨rfl, rfl, fun _ => rfl⟩)

theorem completes_compute (op : Opcode) (h1 : op ≠ .brk) (h2 : op ≠ .unimpl) (f : Word → Word → Word) {a : Nat} (ha : a < 34) {b c : Src}
    (hb : ∀ k, b = .reg k → k < 34) (hc : ∀ k, c = .reg k → k < 34) (s : State) :
    Completes s op (compute op f a b c s) :=
  completes_computeOld op h1 h2 _ ha hb hc s

theorem completes_computeHiLo (op : Opcode) (h1 : op ≠ .brk) (h2 : op ≠ .unimpl) (f : Word → Word → Word → Word → Word × Word) {b c : Nat} (hb : b < 34)
    (hc : c < 34) (s : State) : Completes s op (computeHiLo op f b c s) :=
  completes_next ((((Reaches.start.read _ (.inl hc)).read _ (.inl hb)).write _ _ (.inl (by decide))).write _ _
    (.inl (by decide))) h1 h2 (fun _ => ⟨rfl, rfl, fun _ => rfl⟩)

theorem completes_load (op : Opcode) (h1 : op ≠ .brk) (h2 : op ≠ .unimpl) (f : Word → Word → Word → Word) {rt base : Nat} (hrt : rt < 34) (hb : base < 34)
    (off : Word) (s : State) : Completes s op (load op f rt base off s) := by
  unfold load
  dsimp only
  split
  · exact completes_raise _ _ _
  · exact completes_next (((Reaches.start.read _ (.inl hb)).read _ (validKey_wordKey _)).write _ _ (.inl hrt))
      h1 h2 (fun _ => ⟨rfl, rfl, fun _ => rfl⟩)

theorem completes_store (op : Opcode) (h1 : op ≠ .brk) (h2 : op ≠ .unimpl) (f : Word → Word → Word → Word) {rt base : Nat} (hrt : rt < 34) (hb : base < 34)
    (off : Word) (s : State) : Completes s op (store op f rt base off s) := by
  unfold store
  dsimp only
  split
  · exact completes_raise _ _ _
  · exact completes_next (((Reaches.start.read _ (.inl hb)).write _ _ (validKey_wordKey _)).read _ (.inl hrt))
      h1 h2 (fun _ => ⟨rfl, rfl, fun _ => rfl⟩)

theorem completes_storeConditional {rt base : Nat} (hrt : rt < 34) (hb : base < 34) (off : Word) (s : State) :
    Completes s .sc (storeConditional rt base off s) := by
  unfold storeConditional
  dsimp only
  split
  · exact completes_raise _ _ _
  · exact completes_next (((Reaches.start.read _ (.inl hb)).write _ _ (validKey_wordKey _)).write _ _ (.inl hrt)) (fun h => nomatch h) (fun h => nomatch h)
      (fun _ => ⟨rfl, rfl, fun _ => rfl⟩)

theorem completes_branch (op : Opcode) (h1 : op ≠ .brk) (h2 : op ≠ .unimpl) (h3 : isTransfer op = true) (cond : Word → Word → Bool) {a b : Nat} (ha : a < 34) (hb : b < 34) (off : Word)
    (s : State) : Completes s op (branch op cond a b off s) :=
  completes_next ((Reaches.start.read _ (.inl ha)).read _ (.inl hb)) h1 h2
    (fun _ => ⟨rfl, rfl, fun h => absurd (h.symm.trans h3) (by decide)⟩)

theorem completes_jumpTo (op : Opcode) (h1 : op ≠ .brk) (h2 : op ≠ .unimpl) (h3 : isTransfer op = true) {a : Nat} (ha : a < 34) {b : Src} (hb : ∀ k, b = .reg k → k < 34)
    (c target : Word) (s : State) : Completes s op (jumpTo op a b c target s) :=
  completes_next ((Reaches.start.readSrc _ _ fun k h => .inl (hb k h)).link ha) h1 h2
    (fun _ => ⟨rfl, rfl, fun h => absurd (h.symm.trans h3) (by decide)⟩)

theorem completes_jumpImmediate {a : Nat} (ha : a < 34) (b c : Word) (s : State) :
    Completes s .jumpi (jumpImmediate a b c s) := by
  unfold jumpImmediate
  split
  · exact completes_refuse _ _ _
  · exact completes_jumpTo .jumpi (by decide) (by decide) rfl ha (fun k h => by cases h) _ _ _

theorem completes_extractBits {a b : Nat} (ha : a < 34) (hb : b < 34) (c : Word) (s : State) :
    Completes s .ext (extractBits a b c s) := by
  unfold extractBits
  split
  · exact completes_refuse _ _ _
  · exact completes_compute .ext (by decide) (by decide) _ ha (fun k h => by cases h; exact hb) (fun k h => by cases h) s

theorem completes_insertBits {a b : Nat} (ha : a < 34) (hb : b < 34) (c : Word) (s : State) :
    Completes s .ins (insertBits a b c s) := by
  unfold insertBits
  split
  · exact completes_refuse _ _ _
  · exact completes_computeOld .ins (by decide) (by decide) _ ha (fun k h => by cases h; exact hb) (fun k h => by cases h) s

theorem completes_trapIfEqual {a b : Nat} (ha : a < 34) (hb : b < 34) (c : Word) (s : State) :
    Completes s .teq (trapIfEqual a b c s) := by
  unfold trapIfEqual
  split
  · exact completes_raise _ _ _
  · exact completes_next ((Reaches.start.read _ (.inl ha)).read _ (.inl hb)) (fun h => nomatch h) (fun h => nomatch h)
      (fun _ => ⟨rfl, rfl, fun _ => rfl⟩)

/-- The keys of a response that writes only data words are keys of the store. -/
theorem validKey_of_writesData {r : Response} (h : r.writesData = true) : ∀ e ∈ r.writes, validKey e.1.toNat := by
  intro e he
  have := List.all_eq_true.1 h e he
  simp only [decide_eq_true_eq] at this
  exact .inr ⟨this.1, this.2, e.1.isLt⟩

/-- The keys of a response that reads only cells are keys of the store. -/
theorem validKey_of_readsCells {r : Response} (h : r.readsCells = true) : ∀ k ∈ r.reads, validKey k.toNat := by
  intro k hk
  have := List.all_eq_true.1 h k hk
  simp only [decide_eq_true_eq] at this
  exact this.imp id fun ⟨h1, h2⟩ => ⟨h1, h2, k.isLt⟩

theorem completes_systemCall (s : State) : Completes s .syscall (systemCall s) := by
  unfold systemCall
  dsimp only
  split
  · exact completes_raise _ _ _
  · next resp rest _ =>
    split
    · exact completes_raise _ _ _
    · split
      · exact completes_refuse _ _ _
      · next hw =>
        split
        · exact completes_refuse _ _ _
        · next hr =>
          split
          · exact completes_refuse _ _ _
          · split
            · exact completes_raise _ _ _
            · next hh =>
              refine completes_next (Reaches.port rest _ _ ((Reaches.hostAccesses resp
                (validKey_of_writesData (by simpa using hw)) (validKey_of_readsCells (by simpa using hr))
                ((Reaches.start.read .c (.inl (by decide))).read .b (.inl (by decide)))).write .a _
                (.inl (by decide))) ?_) (fun h => nomatch h) (fun h => nomatch h) (fun h => absurd rfl h)
              cases hc : resp.halt with
              | none => exact .inr rfl
              | some c => exact .inl (by simpa [hc] using hh)

/-! ### The instructions and the records -/

theorem reg_key (r : Reg) : r.val < 34 := Nat.lt_of_lt_of_le r.isLt (by decide)

theorem src_reg_key (r : Reg) : ∀ k, Src.reg r.val = .reg k → k < 34 := fun k h => by cases h; exact reg_key r

theorem src_imm_key (v : Word) : ∀ k, Src.imm v = .reg k → k < 34 := fun k h => by cases h

/-- Whatever an instruction completes with is the end of a cycle it reaches. -/
theorem exec_completes (i : Instr) (s : State) : Completes s (i.record true).opcode (exec i s) := by
  cases i with
  | add rd rs rt => exact .of_eq (exec_add ..) rfl (completes_compute .add (by decide) (by decide) _ (reg_key rd) (src_reg_key rs) (src_reg_key rt) s)
  | addu rd rs rt => exact .of_eq (exec_addu ..) rfl (completes_compute .add (by decide) (by decide) _ (reg_key rd) (src_reg_key rs) (src_reg_key rt) s)
  | sub rd rs rt => exact .of_eq (exec_sub ..) rfl (completes_compute .sub (by decide) (by decide) _ (reg_key rd) (src_reg_key rs) (src_reg_key rt) s)
  | subu rd rs rt => exact .of_eq (exec_subu ..) rfl (completes_compute .sub (by decide) (by decide) _ (reg_key rd) (src_reg_key rs) (src_reg_key rt) s)
  | and rd rs rt => exact .of_eq (exec_and ..) rfl (completes_compute .and (by decide) (by decide) _ (reg_key rd) (src_reg_key rs) (src_reg_key rt) s)
  | or rd rs rt => exact .of_eq (exec_or ..) rfl (completes_compute .or (by decide) (by decide) _ (reg_key rd) (src_reg_key rs) (src_reg_key rt) s)
  | xor rd rs rt => exact .of_eq (exec_xor ..) rfl (completes_compute .xor (by decide) (by decide) _ (reg_key rd) (src_reg_key rs) (src_reg_key rt) s)
  | nor rd rs rt => exact .of_eq (exec_nor ..) rfl (completes_compute .nor (by decide) (by decide) _ (reg_key rd) (src_reg_key rs) (src_reg_key rt) s)
  | slt rd rs rt => exact .of_eq (exec_slt ..) rfl (completes_compute .slt (by decide) (by decide) _ (reg_key rd) (src_reg_key rs) (src_reg_key rt) s)
  | sltu rd rs rt => exact .of_eq (exec_sltu ..) rfl (completes_compute .sltu (by decide) (by decide) _ (reg_key rd) (src_reg_key rs) (src_reg_key rt) s)
  | addi rt rs imm => exact .of_eq (exec_addi ..) rfl (completes_compute .add (by decide) (by decide) _ (reg_key rt) (src_reg_key rs) (src_imm_key _) s)
  | addiu rt rs imm => exact .of_eq (exec_addiu ..) rfl (completes_compute .add (by decide) (by decide) _ (reg_key rt) (src_reg_key rs) (src_imm_key _) s)
  | slti rt rs imm => exact .of_eq (exec_slti ..) rfl (completes_compute .slt (by decide) (by decide) _ (reg_key rt) (src_reg_key rs) (src_imm_key _) s)
  | sltiu rt rs imm => exact .of_eq (exec_sltiu ..) rfl (completes_compute .sltu (by decide) (by decide) _ (reg_key rt) (src_reg_key rs) (src_imm_key _) s)
  | andi rt rs imm => exact .of_eq (exec_andi ..) rfl (completes_compute .and (by decide) (by decide) _ (reg_key rt) (src_reg_key rs) (src_imm_key _) s)
  | ori rt rs imm => exact .of_eq (exec_ori ..) rfl (completes_compute .or (by decide) (by decide) _ (reg_key rt) (src_reg_key rs) (src_imm_key _) s)
  | xori rt rs imm => exact .of_eq (exec_xori ..) rfl (completes_compute .xor (by decide) (by decide) _ (reg_key rt) (src_reg_key rs) (src_imm_key _) s)
  | lui rt imm => exact .of_eq (exec_lui ..) rfl (completes_compute .sll (by decide) (by decide) _ (reg_key rt) (src_imm_key _) (src_imm_key _) s)
  | sll rd rt sa => exact .of_eq (exec_sll ..) rfl (completes_compute .sll (by decide) (by decide) _ (reg_key rd) (src_reg_key rt) (src_imm_key _) s)
  | srl rd rt sa => exact .of_eq (exec_srl ..) rfl (completes_compute .srl (by decide) (by decide) _ (reg_key rd) (src_reg_key rt) (src_imm_key _) s)
  | rotr rd rt sa => exact .of_eq (exec_rotr ..) rfl (completes_compute .ror (by decide) (by decide) _ (reg_key rd) (src_reg_key rt) (src_imm_key _) s)
  | sra rd rt sa => exact .of_eq (exec_sra ..) rfl (completes_compute .sra (by decide) (by decide) _ (reg_key rd) (src_reg_key rt) (src_imm_key _) s)
  | sllv rd rt rs => exact .of_eq (exec_sllv ..) rfl (completes_compute .sll (by decide) (by decide) _ (reg_key rd) (src_reg_key rt) (src_reg_key rs) s)
  | srlv rd rt rs => exact .of_eq (exec_srlv ..) rfl (completes_compute .srl (by decide) (by decide) _ (reg_key rd) (src_reg_key rt) (src_reg_key rs) s)
  | rotrv rd rt rs => exact .of_eq (exec_rotrv ..) rfl (completes_compute .ror (by decide) (by decide) _ (reg_key rd) (src_reg_key rt) (src_reg_key rs) s)
  | srav rd rt rs => exact .of_eq (exec_srav ..) rfl (completes_compute .sra (by decide) (by decide) _ (reg_key rd) (src_reg_key rt) (src_reg_key rs) s)
  | clz rd rs rt => exact .of_eq (exec_clz ..) rfl (completes_compute .clz (by decide) (by decide) _ (reg_key rd) (src_reg_key rs) (src_imm_key _) s)
  | clo rd rs rt => exact .of_eq (exec_clo ..) rfl (completes_compute .clo (by decide) (by decide) _ (reg_key rd) (src_reg_key rs) (src_imm_key _) s)
  | mfhi rd => exact .of_eq (exec_mfhi ..) rfl (completes_compute .add (by decide) (by decide) _ (reg_key rd) (fun k h => by cases h; decide) (src_imm_key _) s)
  | mflo rd => exact .of_eq (exec_mflo ..) rfl (completes_compute .add (by decide) (by decide) _ (reg_key rd) (fun k h => by cases h; decide) (src_imm_key _) s)
  | mthi rs =>
    rw [exec_mthi]
    split
    · exact completes_compute .mthi (by decide) (by decide) _ (by decide) (src_reg_key rs) (src_imm_key _) s
    · exact completes_raise s _ _
  | mtlo rs =>
    rw [exec_mtlo]
    split
    · exact completes_compute .mtlo (by decide) (by decide) _ (by decide) (src_reg_key rs) (src_imm_key _) s
    · exact completes_raise s _ _
  | sync stype => exact .of_eq (exec_sync ..) rfl (completes_compute .add (by decide) (by decide) _ (by decide) (fun k h => by cases h; decide) (fun k h => by cases h; decide) s)
  | pref hint base off => exact .of_eq (exec_pref ..) rfl (completes_compute .add (by decide) (by decide) _ (by decide) (fun k h => by cases h; decide) (fun k h => by cases h; decide) s)
  | synci base off => exact .of_eq (exec_synci ..) rfl (completes_compute .add (by decide) (by decide) _ (by decide) (fun k h => by cases h; decide) (fun k h => by cases h; decide) s)
  | mul rd rs rt => exact .of_eq (exec_mul ..) rfl (completes_compute .mul (by decide) (by decide) _ (reg_key rd) (src_reg_key rs) (src_reg_key rt) s)
  | mult rs rt => exact .of_eq (exec_mult ..) rfl (completes_computeHiLo .mult (by decide) (by decide) _ (reg_key rs) (reg_key rt) s)
  | multu rs rt => exact .of_eq (exec_multu ..) rfl (completes_computeHiLo .multu (by decide) (by decide) _ (reg_key rs) (reg_key rt) s)
  | div rs rt => exact .of_eq (exec_div ..) rfl (completes_computeHiLo .div (by decide) (by decide) _ (reg_key rs) (reg_key rt) s)
  | divu rs rt => exact .of_eq (exec_divu ..) rfl (completes_computeHiLo .divu (by decide) (by decide) _ (reg_key rs) (reg_key rt) s)
  | madd rs rt => exact .of_eq (exec_madd ..) rfl (completes_computeHiLo .madd (by decide) (by decide) _ (reg_key rs) (reg_key rt) s)
  | maddu rs rt => exact .of_eq (exec_maddu ..) rfl (completes_computeHiLo .maddu (by decide) (by decide) _ (reg_key rs) (reg_key rt) s)
  | msub rs rt => exact .of_eq (exec_msub ..) rfl (completes_computeHiLo .msub (by decide) (by decide) _ (reg_key rs) (reg_key rt) s)
  | msubu rs rt => exact .of_eq (exec_msubu ..) rfl (completes_computeHiLo .msubu (by decide) (by decide) _ (reg_key rs) (reg_key rt) s)
  | lb rt base off => exact .of_eq (exec_lb ..) rfl (completes_load .lb (by decide) (by decide) _ (reg_key rt) (reg_key base) _ s)
  | lh rt base off => exact .of_eq (exec_lh ..) rfl (completes_load .lh (by decide) (by decide) _ (reg_key rt) (reg_key base) _ s)
  | lwl rt base off => exact .of_eq (exec_lwl ..) rfl (completes_load .lwl (by decide) (by decide) _ (reg_key rt) (reg_key base) _ s)
  | lw rt base off => exact .of_eq (exec_lw ..) rfl (completes_load .lw (by decide) (by decide) _ (reg_key rt) (reg_key base) _ s)
  | lbu rt base off => exact .of_eq (exec_lbu ..) rfl (completes_load .lbu (by decide) (by decide) _ (reg_key rt) (reg_key base) _ s)
  | lhu rt base off => exact .of_eq (exec_lhu ..) rfl (completes_load .lhu (by decide) (by decide) _ (reg_key rt) (reg_key base) _ s)
  | lwr rt base off => exact .of_eq (exec_lwr ..) rfl (completes_load .lwr (by decide) (by decide) _ (reg_key rt) (reg_key base) _ s)
  | sb rt base off => exact .of_eq (exec_sb ..) rfl (completes_store .sb (by decide) (by decide) _ (reg_key rt) (reg_key base) _ s)
  | sh rt base off => exact .of_eq (exec_sh ..) rfl (completes_store .sh (by decide) (by decide) _ (reg_key rt) (reg_key base) _ s)
  | swl rt base off => exact .of_eq (exec_swl ..) rfl (completes_store .swl (by decide) (by decide) _ (reg_key rt) (reg_key base) _ s)
  | sw rt base off => exact .of_eq (exec_sw ..) rfl (completes_store .sw (by decide) (by decide) _ (reg_key rt) (reg_key base) _ s)
  | swr rt base off => exact .of_eq (exec_swr ..) rfl (completes_store .swr (by decide) (by decide) _ (reg_key rt) (reg_key base) _ s)
  | ll rt base off => exact .of_eq (exec_ll ..) rfl (completes_load .ll (by decide) (by decide) _ (reg_key rt) (reg_key base) _ s)
  | sc rt base off => exact .of_eq (exec_sc ..) rfl (completes_storeConditional (reg_key rt) (reg_key base) _ s)
  | beq rs rt off => exact .of_eq (exec_beq ..) rfl (completes_branch .beq (by decide) (by decide) rfl _ (reg_key rs) (reg_key rt) _ s)
  | bne rs rt off => exact .of_eq (exec_bne ..) rfl (completes_branch .bne (by decide) (by decide) rfl _ (reg_key rs) (reg_key rt) _ s)
  | blez rs off => exact .of_eq (exec_blez ..) rfl (completes_branch .blez (by decide) (by decide) rfl _ (reg_key rs) (by decide) _ s)
  | bgtz rs off => exact .of_eq (exec_bgtz ..) rfl (completes_branch .bgtz (by decide) (by decide) rfl _ (reg_key rs) (by decide) _ s)
  | bltz rs off => exact .of_eq (exec_bltz ..) rfl (completes_branch .bltz (by decide) (by decide) rfl _ (reg_key rs) (by decide) _ s)
  | bgez rs off => exact .of_eq (exec_bgez ..) rfl (completes_branch .bgez (by decide) (by decide) rfl _ (reg_key rs) (by decide) _ s)
  | j index => exact .of_eq (exec_j ..) rfl (completes_jumpImmediate (by decide) _ _ s)
  | jal index => exact .of_eq (exec_jal ..) rfl (completes_jumpImmediate (by decide) _ _ s)
  | jr rs => exact .of_eq (exec_jr ..) rfl (completes_jumpTo .jump (by decide) (by decide) rfl (by decide) (src_reg_key rs) _ _ s)
  | jalr rd rs => exact .of_eq (exec_jalr ..) rfl (completes_jumpTo .jump (by decide) (by decide) rfl (reg_key rd) (src_reg_key rs) _ _ s)
  | bal off => exact .of_eq (exec_bal ..) rfl (completes_jumpTo .jumpDirect (by decide) (by decide) rfl (by decide) (src_imm_key _) _ _ s)
  | movz rd rs rt => exact .of_eq (exec_movz ..) rfl (completes_computeOld .meq (by decide) (by decide) _ (reg_key rd) (src_reg_key rs) (src_reg_key rt) s)
  | movn rd rs rt => exact .of_eq (exec_movn ..) rfl (completes_computeOld .mne (by decide) (by decide) _ (reg_key rd) (src_reg_key rs) (src_reg_key rt) s)
  | seb rd rt => exact .of_eq (exec_seb ..) rfl (completes_compute .sext (by decide) (by decide) _ (reg_key rd) (src_reg_key rt) (src_imm_key _) s)
  | seh rd rt => exact .of_eq (exec_seh ..) rfl (completes_compute .sext (by decide) (by decide) _ (reg_key rd) (src_reg_key rt) (src_imm_key _) s)
  | wsbh rd rt => exact .of_eq (exec_wsbh ..) rfl (completes_compute .wsbh (by decide) (by decide) _ (reg_key rd) (src_reg_key rt) (src_imm_key _) s)
  | ext rt rs msbd lsb => exact .of_eq (exec_ext ..) rfl (completes_extractBits (reg_key rt) (reg_key rs) _ s)
  | ins rt rs msb lsb => exact .of_eq (exec_ins ..) rfl (completes_insertBits (reg_key rt) (reg_key rs) _ s)
  | teq rs rt code => exact .of_eq (exec_teq ..) rfl (completes_trapIfEqual (reg_key rs) (reg_key rt) _ s)
  | syscall code => exact .of_eq (exec_syscall ..) rfl (completes_systemCall s)
  | brk code => exact .of_eq (exec_brk ..) rfl (completes_raise s _ _)

/-- The ranges a well-formed record's register operands lie in, unless it stops by opcode. -/
theorem record_registers {r : Record} (h : r.wf = true) :
    (r.opcode = .brk ∨ r.opcode = .unimpl) ∨
    (r.a < 34 ∧ (r.immB = false → r.b.toNat < 34) ∧ (r.immC = false → r.c.toNat < 34)) := by
  simp only [Record.wf, Bool.and_eq_true] at h
  obtain ⟨ha, ho⟩ := h
  by_cases hs : r.opcode = .brk ∨ r.opcode = .unimpl
  · exact .inl hs
  refine .inr ⟨?_, ?_⟩
  · cases hop : r.opcode <;> simp_all [Opcode.aInRange] <;> omega
  · have hany : r.anyOperands = true → (r.immB = false → r.b.toNat < 34) ∧ (r.immC = false → r.c.toNat < 34) := by
      intro h
      simp only [Record.anyOperands, namesGeneral, Bool.and_eq_true, Bool.or_eq_true, decide_eq_true_eq] at h
      exact ⟨fun hi => by rw [hi] at h; have := h.1.resolve_left (by decide); omega,
        fun hi => by rw [hi] at h; have := h.2.resolve_left (by decide); omega⟩
    have hreg : r.registerOperands = true → r.anyOperands = true := by
      simp only [Record.registerOperands, Record.anyOperands, Bool.and_eq_true, Bool.or_eq_true]
      exact fun h => ⟨.inr h.1.2, .inr h.2⟩
    have himm : ∀ f, r.registerImmediate f = true → r.anyOperands = true := by
      intro f
      simp only [Record.registerImmediate, Record.anyOperands, Bool.and_eq_true, Bool.or_eq_true]
      exact fun h => ⟨.inr h.1.2, .inl h.1.1.2⟩
    have hii : ∀ f c, r.immediateOperand f c = true → r.anyOperands = true := by
      intro f c
      simp only [Record.immediateOperand, Record.anyOperands, Bool.and_eq_true, Bool.or_eq_true]
      exact fun h => ⟨.inl h.1.1.1, .inl h.1.1.2⟩
    cases hop : r.opcode <;> simp only [Record.operandsInRange, hop, Bool.or_eq_true, Bool.and_eq_true] at ho <;>
      first
        | exact hany ho
        | exact hany (hreg ho)
        | exact hany (hreg ho.1)
        | exact hany (himm _ ho)
        | exact hany (himm _ ho.1)
        | exact hany (hii _ _ ho)
        | exact hany (ho.elim hreg (himm _))
        | exact hany (ho.elim (fun h => h.elim hreg (himm _)) (hii _ _))
        | exact absurd hop (fun h => hs (.inl h))
        | exact absurd hop (fun h => hs (.inr h))
        | (rcases ho with ho | ho
           · exact hany (ho.elim hreg (himm _))
           · simp only [Record.readsHiLo, decide_eq_true_eq] at ho
             obtain ⟨-, -, hc, hb, -⟩ := ho
             refine ⟨fun _ => ?_, fun h => absurd (hc.symm.trans h) (by decide)⟩
             rcases hb with hb | hb <;> rw [hb] <;> decide)

theorem record_keys {r : Record} (hb : r.immB = false → r.b.toNat < 34) (hc : r.immC = false → r.c.toNat < 34) :
    (∀ k, srcB r = .reg k → k < 34) ∧ (∀ k, srcC r = .reg k → k < 34) := by
  refine ⟨fun k hk => ?_, fun k hk => ?_⟩
  · unfold srcB at hk
    split at hk
    · cases hk
    · next h => cases hk; exact hb (by simpa using h)
  · unfold srcC at hk
    split at hk
    · cases hk
    · next h => cases hk; exact hc (by simpa using h)

/-- Where the opcode's row of the decoder makes operand b a register, the word names one (30_encoding R128). -/
theorem record_b {r : Record} (h : r.wf = true) (hb : r.immB = false → r.b.toNat < 34)
    (hop : r.operandsInRange = true → r.immB = false) : r.b.toNat < 34 := by
  simp only [Record.wf, Bool.and_eq_true] at h
  exact hb (hop h.2)

/-- The same for operand c. -/
theorem record_c {r : Record} (h : r.wf = true) (hc : r.immC = false → r.c.toNat < 34)
    (hop : r.operandsInRange = true → r.immC = false) : r.c.toNat < 34 := by
  simp only [Record.wf, Bool.and_eq_true] at h
  exact hc (hop h.2)

/-- Whatever a decoded record completes with is the end of a cycle it reaches. -/
theorem execRecord_completes (r : Record) (s : State) : Completes s r.opcode (execRecord r s) := by
  unfold execRecord
  split
  · exact completes_refuse _ _ _
  · next h =>
    have hw : r.wf = true := by simpa using h
    rcases record_registers hw with (hs | hs) | ⟨ha, kb, kc⟩
    · rw [hs]; exact completes_raise _ _ _
    · rw [hs]; exact completes_raise _ _ _
    obtain ⟨hb, hc⟩ := record_keys kb kc
    cases hop : r.opcode with
    | add => exact completes_compute .add (by decide) (by decide) _ ha hb hc s
    | sub => exact completes_compute .sub (by decide) (by decide) _ ha hb hc s
    | and => exact completes_compute .and (by decide) (by decide) _ ha hb hc s
    | or => exact completes_compute .or (by decide) (by decide) _ ha hb hc s
    | xor => exact completes_compute .xor (by decide) (by decide) _ ha hb hc s
    | nor => exact completes_compute .nor (by decide) (by decide) _ ha hb hc s
    | slt => exact completes_compute .slt (by decide) (by decide) _ ha hb hc s
    | sltu => exact completes_compute .sltu (by decide) (by decide) _ ha hb hc s
    | sll => exact completes_compute .sll (by decide) (by decide) _ ha hb hc s
    | srl => exact completes_compute .srl (by decide) (by decide) _ ha hb hc s
    | sra => exact completes_compute .sra (by decide) (by decide) _ ha hb hc s
    | ror => exact completes_compute .ror (by decide) (by decide) _ ha hb hc s
    | clz => exact completes_compute .clz (by decide) (by decide) _ ha hb hc s
    | clo => exact completes_compute .clo (by decide) (by decide) _ ha hb hc s
    | mul => exact completes_compute .mul (by decide) (by decide) _ ha hb hc s
    | mod => exact completes_compute .mod (by decide) (by decide) _ ha hb hc s
    | modu => exact completes_compute .modu (by decide) (by decide) _ ha hb hc s
    | mult => exact completes_computeHiLo .mult (by decide) (by decide) _ (record_b hw kb (by simp +contextual [Record.operandsInRange, hop, Record.registerOperands])) (record_c hw kc (by simp +contextual [Record.operandsInRange, hop, Record.registerOperands])) s
    | multu => exact completes_computeHiLo .multu (by decide) (by decide) _ (record_b hw kb (by simp +contextual [Record.operandsInRange, hop, Record.registerOperands])) (record_c hw kc (by simp +contextual [Record.operandsInRange, hop, Record.registerOperands])) s
    | div => exact completes_computeHiLo .div (by decide) (by decide) _ (record_b hw kb (by simp +contextual [Record.operandsInRange, hop, Record.registerOperands])) (record_c hw kc (by simp +contextual [Record.operandsInRange, hop, Record.registerOperands])) s
    | divu => exact completes_computeHiLo .divu (by decide) (by decide) _ (record_b hw kb (by simp +contextual [Record.operandsInRange, hop, Record.registerOperands])) (record_c hw kc (by simp +contextual [Record.operandsInRange, hop, Record.registerOperands])) s
    | madd => exact completes_computeHiLo .madd (by decide) (by decide) _ (record_b hw kb (by simp +contextual [Record.operandsInRange, hop, Record.registerOperands])) (record_c hw kc (by simp +contextual [Record.operandsInRange, hop, Record.registerOperands])) s
    | maddu => exact completes_computeHiLo .maddu (by decide) (by decide) _ (record_b hw kb (by simp +contextual [Record.operandsInRange, hop, Record.registerOperands])) (record_c hw kc (by simp +contextual [Record.operandsInRange, hop, Record.registerOperands])) s
    | msub => exact completes_computeHiLo .msub (by decide) (by decide) _ (record_b hw kb (by simp +contextual [Record.operandsInRange, hop, Record.registerOperands])) (record_c hw kc (by simp +contextual [Record.operandsInRange, hop, Record.registerOperands])) s
    | msubu => exact completes_computeHiLo .msubu (by decide) (by decide) _ (record_b hw kb (by simp +contextual [Record.operandsInRange, hop, Record.registerOperands])) (record_c hw kc (by simp +contextual [Record.operandsInRange, hop, Record.registerOperands])) s
    | mthi =>
      dsimp only
      split
      · exact completes_compute .mthi (by decide) (by decide) _ ha hb hc s
      · exact completes_refuse _ _ _
    | mtlo =>
      dsimp only
      split
      · exact completes_compute .mtlo (by decide) (by decide) _ ha hb hc s
      · exact completes_refuse _ _ _
    | lb => exact completes_load .lb (by decide) (by decide) _ ha (record_b hw kb (by simp +contextual [Record.operandsInRange, hop, Record.registerImmediate])) _ s
    | lbu => exact completes_load .lbu (by decide) (by decide) _ ha (record_b hw kb (by simp +contextual [Record.operandsInRange, hop, Record.registerImmediate])) _ s
    | lh => exact completes_load .lh (by decide) (by decide) _ ha (record_b hw kb (by simp +contextual [Record.operandsInRange, hop, Record.registerImmediate])) _ s
    | lhu => exact completes_load .lhu (by decide) (by decide) _ ha (record_b hw kb (by simp +contextual [Record.operandsInRange, hop, Record.registerImmediate])) _ s
    | lw => exact completes_load .lw (by decide) (by decide) _ ha (record_b hw kb (by simp +contextual [Record.operandsInRange, hop, Record.registerImmediate])) _ s
    | lwl => exact completes_load .lwl (by decide) (by decide) _ ha (record_b hw kb (by simp +contextual [Record.operandsInRange, hop, Record.registerImmediate])) _ s
    | lwr => exact completes_load .lwr (by decide) (by decide) _ ha (record_b hw kb (by simp +contextual [Record.operandsInRange, hop, Record.registerImmediate])) _ s
    | ll => exact completes_load .ll (by decide) (by decide) _ ha (record_b hw kb (by simp +contextual [Record.operandsInRange, hop, Record.registerImmediate])) _ s
    | sb => exact completes_store .sb (by decide) (by decide) _ ha (record_b hw kb (by simp +contextual [Record.operandsInRange, hop, Record.registerImmediate])) _ s
    | sh => exact completes_store .sh (by decide) (by decide) _ ha (record_b hw kb (by simp +contextual [Record.operandsInRange, hop, Record.registerImmediate])) _ s
    | sw => exact completes_store .sw (by decide) (by decide) _ ha (record_b hw kb (by simp +contextual [Record.operandsInRange, hop, Record.registerImmediate])) _ s
    | swl => exact completes_store .swl (by decide) (by decide) _ ha (record_b hw kb (by simp +contextual [Record.operandsInRange, hop, Record.registerImmediate])) _ s
    | swr => exact completes_store .swr (by decide) (by decide) _ ha (record_b hw kb (by simp +contextual [Record.operandsInRange, hop, Record.registerImmediate])) _ s
    | sc => exact completes_storeConditional ha (record_b hw kb (by simp +contextual [Record.operandsInRange, hop, Record.registerImmediate])) _ s
    | beq => exact completes_branch .beq (by decide) (by decide) rfl _ ha (record_b hw kb (by simp +contextual [Record.operandsInRange, hop, Record.registerImmediate])) _ s
    | bne => exact completes_branch .bne (by decide) (by decide) rfl _ ha (record_b hw kb (by simp +contextual [Record.operandsInRange, hop, Record.registerImmediate])) _ s
    | blez => exact completes_branch .blez (by decide) (by decide) rfl _ ha (record_b hw kb (by simp +contextual [Record.operandsInRange, hop, Record.registerImmediate])) _ s
    | bgtz => exact completes_branch .bgtz (by decide) (by decide) rfl _ ha (record_b hw kb (by simp +contextual [Record.operandsInRange, hop, Record.registerImmediate])) _ s
    | bltz => exact completes_branch .bltz (by decide) (by decide) rfl _ ha (record_b hw kb (by simp +contextual [Record.operandsInRange, hop, Record.registerImmediate])) _ s
    | bgez => exact completes_branch .bgez (by decide) (by decide) rfl _ ha (record_b hw kb (by simp +contextual [Record.operandsInRange, hop, Record.registerImmediate])) _ s
    | jump => exact completes_jumpTo .jump (by decide) (by decide) rfl ha (fun k hk => by cases hk; exact (record_b hw kb (by simp +contextual [Record.operandsInRange, hop, Record.registerImmediate]))) _ _ s
    | jumpi => exact completes_jumpImmediate ha _ _ s
    | jumpDirect => exact completes_jumpTo .jumpDirect (by decide) (by decide) rfl ha (src_imm_key _) _ _ s
    | meq => exact completes_computeOld .meq (by decide) (by decide) _ ha hb hc s
    | mne => exact completes_computeOld .mne (by decide) (by decide) _ ha hb hc s
    | sext => exact completes_compute .sext (by decide) (by decide) _ ha hb hc s
    | wsbh => exact completes_compute .wsbh (by decide) (by decide) _ ha hb hc s
    | ext => exact completes_extractBits ha (record_b hw kb (by simp +contextual [Record.operandsInRange, hop, Record.registerImmediate])) _ s
    | ins => exact completes_insertBits ha (record_b hw kb (by simp +contextual [Record.operandsInRange, hop, Record.registerImmediate])) _ s
    | teq => exact completes_trapIfEqual ha (record_b hw kb (by simp +contextual [Record.operandsInRange, hop, Record.registerImmediate])) _ s
    | syscall => exact completes_systemCall s
    | brk => exact completes_raise _ _ _
    | unimpl => exact completes_raise _ _ _

/-- A step takes a done state to itself; any other next state closes a cycle an instruction or record completed. -/
theorem step_cases {s t : State} (h : step s = .next t) :
    (s.done = true ∧ t = s) ∨
    (s.done = false ∧ ∃ u x q, Reaches s x ∧ u = x.retire q ∧ q.op ≠ .brk ∧ q.op ≠ .unimpl ∧ closeCycle u = .next t ∧
      t = u.shardCheck) := by
  unfold step runCycle at h
  have hclose : ∀ u, closeCycle u = .next t → t = u.shardCheck := by
    intro u hu
    unfold closeCycle at hu
    split at hu
    · split at hu
      · simp [raise] at hu
      · cases hu; rfl
    · cases hu; rfl
  have hslot : ∀ x, (∃ b, Completes s b (execSlot x s)) := by
    intro x
    cases x with
    | record r => exact ⟨_, execRecord_completes r s⟩
    | word w =>
      simp only [execSlot]
      split
      · exact ⟨_, exec_completes _ s⟩
      · exact ⟨.unimpl, completes_raise _ _ _⟩
  split at h
  · next hf =>
    cases h
    refine .inl ⟨?_, rfl⟩
    unfold State.fetch at hf
    by_cases hd : s.done = true
    · exact hd
    · rw [if_neg hd] at hf
      split at hf
      · cases hf
      · split at hf
        · cases hf
        · next hn =>
          exfalso
          have hd := fun hp => hd (decide_eq_true hp)
          have h1 : ¬ s.pc.toNat < s.pcBase.toNat := fun hp => hd (.inr (.inr (.inl hp)))
          have h2 : ¬ s.programEnd ≤ s.pc.toNat := fun hp => hd (.inr (.inr (.inr hp)))
          unfold State.programEnd at h2
          rw [List.getElem?_eq_none_iff] at hn
          omega
  · simp [refuse] at h
  · next x hf =>
    right
    refine ⟨?_, ?_⟩
    · by_contra hd
      simp only [Bool.not_eq_false] at hd
      unfold State.fetch at hf
      rw [if_pos hd] at hf
      cases hf
    · obtain ⟨b, hx⟩ := hslot x
      cases he : execSlot x s with
      | next u =>
        rw [he] at h
        obtain ⟨y, q, hy, hu, hop, h1, h2, -⟩ := hx u he
        exact ⟨u, y, q, hy, hu, hop ▸ h1, hop ▸ h2, h, hclose u h⟩
      | fault e => rw [he] at h; simp at h
      | refused e => rw [he] at h; simp at h

end Sys2Proof.Machine
end

