-- ==== Sys2Proof/Laws/Records.lean ====
section
/-! SUPPORT. Which decoded records run: the immediates the decoder places pass the checks of `Record.wf`, and but for MOD and
MODU a record that passes them is the record of a form, so some word produces it. -/

namespace Sys2Proof

/-! ### The immediates the decoder places -/

@[simp] theorem sext16_isSext16 (v : BitVec 16) : isSext16 (sext16 v) = true := by
  have : (sext16 v).extractLsb' 0 16 = v := by
    ext i hi
    simp [sext16, show i < 32 by omega, BitVec.getElem_signExtend, hi]
  simp [isSext16, this]

@[simp] theorem zext16_isZext16 (v : BitVec 16) : isZext16 (zext16 v) = true := by
  have : (zext16 v).extractLsb' 0 16 = v := by
    ext i hi
    simp [zext16, show i < 32 by omega, hi]
  simp [isZext16, this]

@[simp] theorem zext5_isShiftAmount (v : BitVec 5) : isShiftAmount (zext5 v) = true := by
  have := v.isLt
  simp [isShiftAmount, zext5]
  omega

/-- A shift amount is the field that holds it. -/
theorem shiftAmount_eq {c : Word} (h : isShiftAmount c = true) : c = zext5 (c.extractLsb' 0 5) := by
  simp only [isShiftAmount, decide_eq_true_eq] at h
  apply BitVec.eq_of_toNat_eq
  simp [zext5]
  omega

@[simp] theorem branchOffset_isBranchOffset (v : BitVec 16) : isBranchOffset (branchOffset v) = true := by
  have : (branchOffset v).extractLsb' 2 16 = v := by
    ext i hi
    simp [branchOffset, sext16, show ¬ 2 + i < 2 by omega, show 2 + i < 32 by omega, BitVec.getElem_signExtend, hi]
  simp [isBranchOffset, this]

@[simp] theorem jumpIndex_isJumpIndex (v : BitVec 26) : isJumpIndex (jumpIndex v) = true := by
  have : (jumpIndex v).extractLsb' 2 26 = v := by
    ext i hi
    simp [jumpIndex, show ¬ 2 + i < 2 by omega, show 2 + i < 32 by omega, BitVec.getLsbD_eq_getElem hi]
  simp [isJumpIndex, this]

theorem fieldBounds_lt (m l : BitVec 5) : (fieldBounds m l).toNat < 1024 := by revert m l; decide

theorem fieldBounds_split (c : Word) (h : c.toNat < 1024) :
    c = fieldBounds (c.extractLsb' 5 5) (c.extractLsb' 0 5) := by
  ext i hi
  have hc : 10 ≤ i → c.getLsbD i = false := fun hn =>
    Nat.testBit_lt_two_pow (Nat.lt_of_lt_of_le h (Nat.pow_le_pow_right (n := 2) (by decide) hn))
  simp only [fieldBounds, zext5, ← BitVec.getLsbD_eq_getElem]
  by_cases h5 : i < 5
  · simp [h5, hi]
  · by_cases h10 : i < 10
    · simp [h5, hi, show i - 5 < 5 by omega, show 5 + (i - 5) = i by omega]
    · simp [h5, show ¬ i - 5 < 5 by omega, hc (by omega)]

/-! ### The form a well-formed record is the record of -/

theorem reg_of_namesGeneral {v : Word} (h : namesGeneral v = true) : ∃ r : Reg, v = r.word := by
  simp only [namesGeneral, decide_eq_true_eq] at h
  exact ⟨⟨v.toNat, h⟩, by simp [Reg.word]⟩

theorem reg_of_lt {a : Nat} (h : a < 32) : ∃ r : Reg, a = r.val := ⟨⟨a, h⟩, rfl⟩

/-- A register and an immediate, as the record's fields. -/
theorem registerImmediate_cases {r : Record} {p : Word → Bool} (h : r.registerImmediate p = true) :
    ∃ b : Reg, r.b = b.word ∧ r.immB = false ∧ r.immC = true ∧ p r.c = true := by
  simp only [Record.registerImmediate, Bool.and_eq_true, Bool.not_eq_true'] at h
  obtain ⟨⟨⟨h1, h2⟩, h3⟩, h4⟩ := h
  obtain ⟨b, hb⟩ := reg_of_namesGeneral h3
  exact ⟨b, hb, h1, h2, h4⟩

/-- Two registers, as the record's fields. -/
theorem registerOperands_cases {r : Record} (h : r.registerOperands = true) :
    ∃ b c : Reg, r.b = b.word ∧ r.c = c.word ∧ r.immB = false ∧ r.immC = false := by
  simp only [Record.registerOperands, Bool.and_eq_true, Bool.not_eq_true'] at h
  obtain ⟨⟨⟨h1, h2⟩, h3⟩, h4⟩ := h
  obtain ⟨b, hb⟩ := reg_of_namesGeneral h3
  obtain ⟨c, hc⟩ := reg_of_namesGeneral h4
  exact ⟨b, c, hb, hc, h1, h2⟩

/-- Two immediates, as the record's fields. -/
theorem immediateOperand_cases {r : Record} {p : Word → Bool} {c : Word} (h : r.immediateOperand p c = true) :
    r.immB = true ∧ r.immC = true ∧ p r.b = true ∧ r.c = c := by
  simpa [Record.immediateOperand, and_assoc] using h

/-- Every well-formed record, but for MOD and MODU and those that stop by opcode, is the record of a form: some word produces
it (30_encoding R128, R134, 60_exceptions R415). -/
theorem Record.produced {r : Record} (h : r.wf = true) (hm : r.opcode ≠ .mod) (hm' : r.opcode ≠ .modu)
    (hb : r.opcode ≠ .brk) (hu : r.opcode ≠ .unimpl) : ∃ i : Instr, i.wf = true ∧ i.record true = { r with raw := some (encode i) } := by
  simp only [Record.wf, Bool.and_eq_true] at h
  obtain ⟨ha, ho⟩ := h
  obtain ⟨op, a, b, c, ib, ic, raw⟩ := r
  cases op <;> simp only [reduceCtorEq, ne_eq, not_true_eq_false] at hm hm' hb hu <;>
    simp only [Opcode.aInRange, decide_eq_true_eq] at ha <;>
    simp only [Record.operandsInRange, Bool.and_eq_true, Bool.or_eq_true, decide_eq_true_eq] at ho
  case add =>
    obtain ⟨a, rfl⟩ := reg_of_lt ha
    rcases ho with (ho | ho) | ho
    · obtain ⟨b, c, rfl, rfl, rfl, rfl⟩ := registerOperands_cases ho
      exact ⟨.add a b c, rfl, rfl⟩
    · obtain ⟨b, rfl, rfl, rfl, hc⟩ := registerImmediate_cases ho
      exact ⟨.addi a b _, rfl, by rw [of_decide_eq_true hc]; rfl⟩
    · simp only [Record.readsHiLo, decide_eq_true_eq] at ho
      obtain ⟨-, rfl, rfl, rfl | rfl, rfl⟩ := ho
      · exact ⟨.mflo a, rfl, rfl⟩
      · exact ⟨.mfhi a, rfl, rfl⟩
  case sub =>
    obtain ⟨a, rfl⟩ := reg_of_lt ha
    obtain ⟨b, c, rfl, rfl, rfl, rfl⟩ := registerOperands_cases ho
    exact ⟨.sub a b c, rfl, rfl⟩
  case and =>
    obtain ⟨a, rfl⟩ := reg_of_lt ha
    rcases ho with ho | ho
    · obtain ⟨b, c, rfl, rfl, rfl, rfl⟩ := registerOperands_cases ho
      exact ⟨.and a b c, rfl, rfl⟩
    · obtain ⟨b, rfl, rfl, rfl, hc⟩ := registerImmediate_cases ho
      exact ⟨.andi a b _, rfl, by rw [of_decide_eq_true hc]; rfl⟩
  case or =>
    obtain ⟨a, rfl⟩ := reg_of_lt ha
    rcases ho with ho | ho
    · obtain ⟨b, c, rfl, rfl, rfl, rfl⟩ := registerOperands_cases ho
      exact ⟨.or a b c, rfl, rfl⟩
    · obtain ⟨b, rfl, rfl, rfl, hc⟩ := registerImmediate_cases ho
      exact ⟨.ori a b _, rfl, by rw [of_decide_eq_true hc]; rfl⟩
  case xor =>
    obtain ⟨a, rfl⟩ := reg_of_lt ha
    rcases ho with ho | ho
    · obtain ⟨b, c, rfl, rfl, rfl, rfl⟩ := registerOperands_cases ho
      exact ⟨.xor a b c, rfl, rfl⟩
    · obtain ⟨b, rfl, rfl, rfl, hc⟩ := registerImmediate_cases ho
      exact ⟨.xori a b _, rfl, by rw [of_decide_eq_true hc]; rfl⟩
  case nor =>
    obtain ⟨a, rfl⟩ := reg_of_lt ha
    obtain ⟨b, c, rfl, rfl, rfl, rfl⟩ := registerOperands_cases ho
    exact ⟨.nor a b c, rfl, rfl⟩
  case slt =>
    obtain ⟨a, rfl⟩ := reg_of_lt ha
    rcases ho with ho | ho
    · obtain ⟨b, c, rfl, rfl, rfl, rfl⟩ := registerOperands_cases ho
      exact ⟨.slt a b c, rfl, rfl⟩
    · obtain ⟨b, rfl, rfl, rfl, hc⟩ := registerImmediate_cases ho
      exact ⟨.slti a b _, rfl, by rw [of_decide_eq_true hc]; rfl⟩
  case sltu =>
    obtain ⟨a, rfl⟩ := reg_of_lt ha
    rcases ho with ho | ho
    · obtain ⟨b, c, rfl, rfl, rfl, rfl⟩ := registerOperands_cases ho
      exact ⟨.sltu a b c, rfl, rfl⟩
    · obtain ⟨b, rfl, rfl, rfl, hc⟩ := registerImmediate_cases ho
      exact ⟨.sltiu a b _, rfl, by rw [of_decide_eq_true hc]; rfl⟩
  case sll =>
    obtain ⟨a, rfl⟩ := reg_of_lt ha
    rcases ho with (ho | ho) | ho
    · obtain ⟨b, c, rfl, rfl, rfl, rfl⟩ := registerOperands_cases ho
      exact ⟨.sllv a b c, rfl, rfl⟩
    · obtain ⟨b, rfl, rfl, rfl, hc⟩ := registerImmediate_cases ho
      exact ⟨.sll a b _, rfl, by rw [shiftAmount_eq hc]; rfl⟩
    · obtain ⟨rfl, rfl, hb, rfl⟩ := immediateOperand_cases ho
      exact ⟨.lui a _, rfl, by rw [of_decide_eq_true hb]; rfl⟩
  case srl =>
    obtain ⟨a, rfl⟩ := reg_of_lt ha
    rcases ho with ho | ho
    · obtain ⟨b, c, rfl, rfl, rfl, rfl⟩ := registerOperands_cases ho
      exact ⟨.srlv a b c, rfl, rfl⟩
    · obtain ⟨b, rfl, rfl, rfl, hc⟩ := registerImmediate_cases ho
      exact ⟨.srl a b _, rfl, by rw [shiftAmount_eq hc]; rfl⟩
  case sra =>
    obtain ⟨a, rfl⟩ := reg_of_lt ha
    rcases ho with ho | ho
    · obtain ⟨b, c, rfl, rfl, rfl, rfl⟩ := registerOperands_cases ho
      exact ⟨.srav a b c, rfl, rfl⟩
    · obtain ⟨b, rfl, rfl, rfl, hc⟩ := registerImmediate_cases ho
      exact ⟨.sra a b _, rfl, by rw [shiftAmount_eq hc]; rfl⟩
  case ror =>
    obtain ⟨a, rfl⟩ := reg_of_lt ha
    rcases ho with ho | ho
    · obtain ⟨b, c, rfl, rfl, rfl, rfl⟩ := registerOperands_cases ho
      exact ⟨.rotrv a b c, rfl, rfl⟩
    · obtain ⟨b, rfl, rfl, rfl, hc⟩ := registerImmediate_cases ho
      exact ⟨.rotr a b _, rfl, by rw [shiftAmount_eq hc]; rfl⟩
  case clz =>
    obtain ⟨a, rfl⟩ := reg_of_lt ha
    obtain ⟨b, rfl, rfl, rfl, hc⟩ := registerImmediate_cases ho
    obtain rfl := of_decide_eq_true hc
    exact ⟨.clz a b a, by simp [Instr.wf], rfl⟩
  case clo =>
    obtain ⟨a, rfl⟩ := reg_of_lt ha
    obtain ⟨b, rfl, rfl, rfl, hc⟩ := registerImmediate_cases ho
    obtain rfl := of_decide_eq_true hc
    exact ⟨.clo a b a, by simp [Instr.wf], rfl⟩
  case mul =>
    obtain ⟨a, rfl⟩ := reg_of_lt ha
    obtain ⟨b, c, rfl, rfl, rfl, rfl⟩ := registerOperands_cases ho
    exact ⟨.mul a b c, rfl, rfl⟩
  case mult =>
    obtain ⟨b, c, rfl, rfl, rfl, rfl⟩ := registerOperands_cases ho
    subst ha
    exact ⟨.mult b c, rfl, rfl⟩
  case multu =>
    obtain ⟨b, c, rfl, rfl, rfl, rfl⟩ := registerOperands_cases ho
    subst ha
    exact ⟨.multu b c, rfl, rfl⟩
  case div =>
    obtain ⟨b, c, rfl, rfl, rfl, rfl⟩ := registerOperands_cases ho
    subst ha
    exact ⟨.div b c, rfl, rfl⟩
  case divu =>
    obtain ⟨b, c, rfl, rfl, rfl, rfl⟩ := registerOperands_cases ho
    subst ha
    exact ⟨.divu b c, rfl, rfl⟩
  case madd =>
    obtain ⟨b, c, rfl, rfl, rfl, rfl⟩ := registerOperands_cases ho
    subst ha
    exact ⟨.madd b c, rfl, rfl⟩
  case maddu =>
    obtain ⟨b, c, rfl, rfl, rfl, rfl⟩ := registerOperands_cases ho
    subst ha
    exact ⟨.maddu b c, rfl, rfl⟩
  case msub =>
    obtain ⟨b, c, rfl, rfl, rfl, rfl⟩ := registerOperands_cases ho
    subst ha
    exact ⟨.msub b c, rfl, rfl⟩
  case msubu =>
    obtain ⟨b, c, rfl, rfl, rfl, rfl⟩ := registerOperands_cases ho
    subst ha
    exact ⟨.msubu b c, rfl, rfl⟩
  case mthi =>
    obtain ⟨b, rfl, rfl, rfl, hc⟩ := registerImmediate_cases ho
    obtain rfl := of_decide_eq_true hc
    subst ha
    exact ⟨.mthi b, rfl, rfl⟩
  case mtlo =>
    obtain ⟨b, rfl, rfl, rfl, hc⟩ := registerImmediate_cases ho
    obtain rfl := of_decide_eq_true hc
    subst ha
    exact ⟨.mtlo b, rfl, rfl⟩
  case lb =>
    obtain ⟨b, rfl, rfl, rfl, hc⟩ := registerImmediate_cases ho
    obtain ⟨a, rfl⟩ := reg_of_lt ha
    exact ⟨.lb a b _, rfl, by rw [of_decide_eq_true hc]; rfl⟩
  case lbu =>
    obtain ⟨b, rfl, rfl, rfl, hc⟩ := registerImmediate_cases ho
    obtain ⟨a, rfl⟩ := reg_of_lt ha
    exact ⟨.lbu a b _, rfl, by rw [of_decide_eq_true hc]; rfl⟩
  case lh =>
    obtain ⟨b, rfl, rfl, rfl, hc⟩ := registerImmediate_cases ho
    obtain ⟨a, rfl⟩ := reg_of_lt ha
    exact ⟨.lh a b _, rfl, by rw [of_decide_eq_true hc]; rfl⟩
  case lhu =>
    obtain ⟨b, rfl, rfl, rfl, hc⟩ := registerImmediate_cases ho
    obtain ⟨a, rfl⟩ := reg_of_lt ha
    exact ⟨.lhu a b _, rfl, by rw [of_decide_eq_true hc]; rfl⟩
  case lw =>
    obtain ⟨b, rfl, rfl, rfl, hc⟩ := registerImmediate_cases ho
    obtain ⟨a, rfl⟩ := reg_of_lt ha
    exact ⟨.lw a b _, rfl, by rw [of_decide_eq_true hc]; rfl⟩
  case lwl =>
    obtain ⟨b, rfl, rfl, rfl, hc⟩ := registerImmediate_cases ho
    obtain ⟨a, rfl⟩ := reg_of_lt ha
    exact ⟨.lwl a b _, rfl, by rw [of_decide_eq_true hc]; rfl⟩
  case lwr =>
    obtain ⟨b, rfl, rfl, rfl, hc⟩ := registerImmediate_cases ho
    obtain ⟨a, rfl⟩ := reg_of_lt ha
    exact ⟨.lwr a b _, rfl, by rw [of_decide_eq_true hc]; rfl⟩
  case ll =>
    obtain ⟨b, rfl, rfl, rfl, hc⟩ := registerImmediate_cases ho
    obtain ⟨a, rfl⟩ := reg_of_lt ha
    exact ⟨.ll a b _, rfl, by rw [of_decide_eq_true hc]; rfl⟩
  case sb =>
    obtain ⟨b, rfl, rfl, rfl, hc⟩ := registerImmediate_cases ho
    obtain ⟨a, rfl⟩ := reg_of_lt ha
    exact ⟨.sb a b _, rfl, by rw [of_decide_eq_true hc]; rfl⟩
  case sh =>
    obtain ⟨b, rfl, rfl, rfl, hc⟩ := registerImmediate_cases ho
    obtain ⟨a, rfl⟩ := reg_of_lt ha
    exact ⟨.sh a b _, rfl, by rw [of_decide_eq_true hc]; rfl⟩
  case sw =>
    obtain ⟨b, rfl, rfl, rfl, hc⟩ := registerImmediate_cases ho
    obtain ⟨a, rfl⟩ := reg_of_lt ha
    exact ⟨.sw a b _, rfl, by rw [of_decide_eq_true hc]; rfl⟩
  case swl =>
    obtain ⟨b, rfl, rfl, rfl, hc⟩ := registerImmediate_cases ho
    obtain ⟨a, rfl⟩ := reg_of_lt ha
    exact ⟨.swl a b _, rfl, by rw [of_decide_eq_true hc]; rfl⟩
  case swr =>
    obtain ⟨b, rfl, rfl, rfl, hc⟩ := registerImmediate_cases ho
    obtain ⟨a, rfl⟩ := reg_of_lt ha
    exact ⟨.swr a b _, rfl, by rw [of_decide_eq_true hc]; rfl⟩
  case sc =>
    obtain ⟨b, rfl, rfl, rfl, hc⟩ := registerImmediate_cases ho
    obtain ⟨a, rfl⟩ := reg_of_lt ha
    exact ⟨.sc a b _, rfl, by rw [of_decide_eq_true hc]; rfl⟩
  case beq =>
    obtain ⟨b, rfl, rfl, rfl, hc⟩ := registerImmediate_cases ho
    obtain ⟨a, rfl⟩ := reg_of_lt ha
    exact ⟨.beq a b _, rfl, by rw [of_decide_eq_true hc]; rfl⟩
  case bne =>
    obtain ⟨b, rfl, rfl, rfl, hc⟩ := registerImmediate_cases ho
    obtain ⟨a, rfl⟩ := reg_of_lt ha
    exact ⟨.bne a b _, rfl, by rw [of_decide_eq_true hc]; rfl⟩
  case blez =>
    obtain ⟨-, -, rfl, rfl, hc⟩ := registerImmediate_cases ho.1
    obtain rfl := ho.2
    obtain ⟨a, rfl⟩ := reg_of_lt ha
    exact ⟨.blez a _, rfl, by rw [of_decide_eq_true hc]; rfl⟩
  case bgtz =>
    obtain ⟨-, -, rfl, rfl, hc⟩ := registerImmediate_cases ho.1
    obtain rfl := ho.2
    obtain ⟨a, rfl⟩ := reg_of_lt ha
    exact ⟨.bgtz a _, rfl, by rw [of_decide_eq_true hc]; rfl⟩
  case bltz =>
    obtain ⟨-, -, rfl, rfl, hc⟩ := registerImmediate_cases ho.1
    obtain rfl := ho.2
    obtain ⟨a, rfl⟩ := reg_of_lt ha
    exact ⟨.bltz a _, rfl, by rw [of_decide_eq_true hc]; rfl⟩
  case bgez =>
    obtain ⟨-, -, rfl, rfl, hc⟩ := registerImmediate_cases ho.1
    obtain rfl := ho.2
    obtain ⟨a, rfl⟩ := reg_of_lt ha
    exact ⟨.bgez a _, rfl, by rw [of_decide_eq_true hc]; rfl⟩
  case jump =>
    obtain ⟨b, rfl, rfl, rfl, hc⟩ := registerImmediate_cases ho
    obtain rfl := of_decide_eq_true hc
    obtain ⟨a, rfl⟩ := reg_of_lt ha
    exact ⟨.jalr a b, rfl, rfl⟩
  case jumpi =>
    obtain ⟨rfl, rfl, hb, rfl⟩ := immediateOperand_cases ho
    rcases ha with rfl | rfl
    · exact ⟨.j _, rfl, by rw [of_decide_eq_true hb]; rfl⟩
    · exact ⟨.jal _, rfl, by rw [of_decide_eq_true hb]; rfl⟩
  case jumpDirect =>
    obtain ⟨rfl, rfl, hb, rfl⟩ := immediateOperand_cases ho
    subst ha
    exact ⟨.bal _, rfl, by rw [of_decide_eq_true hb]; rfl⟩
  case meq =>
    obtain ⟨b, c, rfl, rfl, rfl, rfl⟩ := registerOperands_cases ho
    obtain ⟨a, rfl⟩ := reg_of_lt ha
    exact ⟨.movz a b c, rfl, rfl⟩
  case mne =>
    obtain ⟨b, c, rfl, rfl, rfl, rfl⟩ := registerOperands_cases ho
    obtain ⟨a, rfl⟩ := reg_of_lt ha
    exact ⟨.movn a b c, rfl, rfl⟩
  case sext =>
    obtain ⟨b, rfl, rfl, rfl, hc⟩ := registerImmediate_cases ho
    obtain ⟨a, rfl⟩ := reg_of_lt ha
    rcases of_decide_eq_true hc with rfl | rfl
    · exact ⟨.seb a b, rfl, rfl⟩
    · exact ⟨.seh a b, rfl, rfl⟩
  case wsbh =>
    obtain ⟨b, rfl, rfl, rfl, hc⟩ := registerImmediate_cases ho
    obtain rfl := of_decide_eq_true hc
    obtain ⟨a, rfl⟩ := reg_of_lt ha
    exact ⟨.wsbh a b, rfl, rfl⟩
  case ext =>
    obtain ⟨b, rfl, rfl, rfl, hc⟩ := registerImmediate_cases ho
    obtain ⟨a, rfl⟩ := reg_of_lt ha
    exact ⟨.ext a b _ _, rfl, by rw [fieldBounds_split c (of_decide_eq_true hc)]; rfl⟩
  case ins =>
    obtain ⟨b, rfl, rfl, rfl, hc⟩ := registerImmediate_cases ho
    obtain ⟨a, rfl⟩ := reg_of_lt ha
    exact ⟨.ins a b _ _, rfl, by rw [fieldBounds_split c (of_decide_eq_true hc)]; rfl⟩
  case teq =>
    obtain ⟨b, rfl, rfl, rfl, hc⟩ := registerImmediate_cases ho
    obtain rfl := of_decide_eq_true hc
    obtain ⟨a, rfl⟩ := reg_of_lt ha
    exact ⟨.teq a b 0, rfl, rfl⟩
  case syscall =>
    obtain ⟨-, -, -, -, rfl, rfl⟩ := registerOperands_cases ho.1
    obtain ⟨rfl, rfl⟩ := ho.2
    subst ha
    exact ⟨.syscall 0, rfl, rfl⟩

end Sys2Proof
end

