-- ==== Sys2Proof/Tests/Slice0.lean ====
section
/-! SUPPORT. Tests of one step each, expected results from spec/95_test_vectors.md; the ill-formed terms WellFormed refuses;
words written out from the spec's encodings; and, for every obligation with hypotheses, a witness that meets them. -/

set_option maxRecDepth 8000

namespace Sys2Proof.Tests

open Sys2Proof Sys2Proof.Machine

/-- The state of 95_test_vectors, "Conventions": the listed registers, LO and HI, and store words. -/
def machine (regs : List (Nat × Word)) (mem : List (Nat × Word)) : State :=
  { State.reset with regs := Vector.ofFn fun i => (Assoc.get regs i.val).getD 0, mem := imageMemory mem }

/-- The same with `ADMIT_MTHI_MTLO`. -/
def admitting (s : State) : State := { s with params := { s.params with admitMthiMtlo := true } }

/-- The same with `LOW_ADDRESS_POLICY = alias`. -/
def aliasing (s : State) : State := { s with params := { s.params with lowAddressPolicy := .aliased } }

/-- One step on a word placed at the pc. -/
def run (w : Nat) (s : State) : Result := step (s.withFetchWord 32 w)

/-- The value of a cell in the next state. -/
def after (r : Result) (k : Nat) : Option Word :=
  match r with
  | .next t => some (t.cell k)
  | .fault _ => none
  | .refused _ => none

/-- The `npc` of the next state. -/
def npcAfter (r : Result) : Option Word :=
  match r with
  | .next t => some t.npc
  | .fault _ => none
  | .refused _ => none

/-- The machine answers a next state. -/
def completes (r : Result) : Bool :=
  match r with
  | .next _ => true
  | .fault _ => false
  | .refused _ => false

/-- The fault, where there is one. -/
def faultOf (r : Result) : Option Fault :=
  match r with
  | .next _ => none
  | .fault e => some e
  | .refused _ => none

/-- The refusal, where there is one. -/
def refusalOf (r : Result) : Option Refusal :=
  match r with
  | .next _ => none
  | .fault _ => none
  | .refused e => some e

theorem completes_iff (r : Result) (h : completes r = true) : ∃ t, r = .next t := by
  cases r with
  | next t => exact ⟨t, rfl⟩
  | fault e => cases h
  | refused e => cases h

/-! ### WellFormed refuses an ill-formed term for each check -/

/-- CLZ and CLO with `rt ≠ rd` (30_encoding R129). -/
theorem test_wf_count_fields : (Instr.clz 3 2 2).wf = false ∧ (Instr.clo 0 2 31).wf = false ∧ (Instr.clz 3 2 3).wf = true := by
  decide

/-- A record like the one of `add 3, 1, 2`. -/
def sample (op : Opcode) (a : Nat) (b c : Word) (immB immC : Bool) : Record :=
  { opcode := op, a := a, b := b, c := c, immB := immB, immC := immC, raw := none }

theorem test_wf_record : (sample .add 3 1 2 false false).wf = true := by decide
/-- `op_a` outside the range of the opcode's row. -/
theorem test_wf_a_range : (sample .add 32 1 2 false false).wf = false ∧ (sample .mult 3 1 2 false false).wf = false := by decide
/-- Flags no row of the opcode has. -/
theorem test_wf_flags : (sample .lw 3 1 2 false false).wf = false ∧ (sample .teq 3 1 2 true true).wf = false := by decide
/-- Immediates no word gives the opcode: SEXT, EXT, SYSCALL, TEQ, a branch, a load and a jump. -/
theorem test_wf_values : (sample .sext 3 1 2 false true).wf = false ∧ (sample .ext 3 1 1024 false true).wf = false ∧
    (sample .syscall 2 4 6 false false).wf = false ∧ (sample .teq 3 1 1 false true).wf = false ∧
    (sample .blez 3 1 4 false true).wf = false ∧ (sample .beq 3 1 2 false true).wf = false ∧
    (sample .lw 3 1 0x8000 false true).wf = false ∧ (sample .jumpi 0 0x10000000 0 true true).wf = false ∧
    (sample .jumpDirect 31 2 0 true true).wf = false := by decide
/-- ALU and MUL operands no row of 30_encoding R128 has: SUB, NOR and MUL of an immediate, CLZ and CLO of another c than 0 or
of an immediate, immediates and shift amounts out of range; beside LUI, the widest ones a row has. -/
theorem test_wf_alu_forms : (sample .sub 3 1 2 false true).wf = false ∧ (sample .nor 3 1 2 false true).wf = false ∧
    (sample .mul 3 1 2 false true).wf = false ∧ (sample .clz 3 1 2 false false).wf = false ∧
    (sample .clo 3 1 2 false true).wf = false ∧ (sample .clz 3 1 0 true true).wf = false ∧
    (sample .add 3 1 0x8000 false true).wf = false ∧ (sample .and 3 1 0xFFFFFFFF false true).wf = false ∧
    (sample .sra 3 1 32 false true).wf = false ∧ (sample .sll 3 0x10000 16 true true).wf = false ∧
    (sample .slt 3 1 0xFFFF8000 false true).wf = true ∧ (sample .xor 3 1 0xFFFF false true).wf = true ∧
    (sample .ror 3 1 31 false true).wf = true ∧ (sample .sll 3 0xFFFF 16 true true).wf = true := by decide
/-- A store reads rt after it writes the word (42_loadstore R297): where both are cell 4, the record left is A's, the value
the one written. -/
theorem test_store_order : (match run 0xAC240000 (aliasing (machine [(1, 4), (4, 7)] [])) with
    | .next t => decide (t.record 4 = { value := 7, shard := t.currentShard, timestamp := 3 })
    | _ => false) = true := by decide
/-- A register operand beyond 31, where only MFHI and MFLO may name one (10_state R34). -/
theorem test_wf_registers : (sample .add 3 34 2 false false).wf = false ∧ (sample .sub 3 33 32 false false).wf = false ∧
    (sample .lw 3 32 0 false true).wf = false ∧ (sample .mult 32 1 33 false false).wf = false ∧
    (sample .add 3 33 0 false true).wf = true ∧ (sample .add 3 33 1 false true).wf = false := by decide
/-- BREAK stops by opcode, whatever its operands (60_exceptions R403, item 2). -/
theorem test_break_record : faultOf (execRecord (sample .brk 99 99 99 false false) (machine [] [])) = some .breakpoint := by decide
/-- UNIMPL without its raw word. -/
theorem test_wf_raw : (sample .unimpl 0 0 0 false false).wf = false := by decide

/-! ### Decoding: every constructor, from a word of 95_test_vectors and 30_encoding -/

theorem test_decode_alu_register :
    decode 0x00221820 = .instr (.add 3 1 2) ∧ decode 0x00221821 = .instr (.addu 3 1 2) ∧
    decode 0x00221822 = .instr (.sub 3 1 2) ∧ decode 0x00221823 = .instr (.subu 3 1 2) ∧
    decode 0x00221824 = .instr (.and 3 1 2) ∧ decode 0x00221825 = .instr (.or 3 1 2) ∧
    decode 0x00221826 = .instr (.xor 3 1 2) ∧ decode 0x00201827 = .instr (.nor 3 1 0) ∧
    decode 0x0022182A = .instr (.slt 3 1 2) ∧ decode 0x0022182B = .instr (.sltu 3 1 2) := by decide

theorem test_decode_alu_immediate :
    decode 0x2022FFFF = .instr (.addi 2 1 0xFFFF) ∧ decode 0x24227FFF = .instr (.addiu 2 1 0x7FFF) ∧
    decode 0x2822FFFF = .instr (.slti 2 1 0xFFFF) ∧ decode 0x2C22FFFF = .instr (.sltiu 2 1 0xFFFF) ∧
    decode 0x3022FFFF = .instr (.andi 2 1 0xFFFF) ∧ decode 0x34228000 = .instr (.ori 2 1 0x8000) ∧
    decode 0x3822FFFF = .instr (.xori 2 1 0xFFFF) ∧ decode 0x3C028001 = .instr (.lui 2 0x8001) := by decide

theorem test_decode_shifts :
    decode 0x00021900 = .instr (.sll 3 2 4) ∧ decode 0x00021FC2 = .instr (.srl 3 2 31) ∧
    decode 0x00221A02 = .instr (.rotr 3 2 8) ∧ decode 0x00021903 = .instr (.sra 3 2 4) ∧
    decode 0x00221804 = .instr (.sllv 3 2 1) ∧ decode 0x00221806 = .instr (.srlv 3 2 1) ∧
    decode 0x00221846 = .instr (.rotrv 3 2 1) ∧ decode 0x00221807 = .instr (.srav 3 2 1) := by decide

theorem test_decode_counts_moves_noops :
    decode 0x70431820 = .instr (.clz 3 2 3) ∧ decode 0x70431821 = .instr (.clo 3 2 3) ∧
    decode 0x00001810 = .instr (.mfhi 3) ∧ decode 0x00001812 = .instr (.mflo 3) ∧
    decode 0x00200011 = .instr (.mthi 1) ∧ decode 0x00200013 = .instr (.mtlo 1) ∧
    decode 0x0000000F = .instr (.sync 0) ∧ decode 0xCC200004 = .instr (.pref 0 1 4) ∧
    decode 0x043F0000 = .instr (.synci 1 0) := by decide

theorem test_decode_muldiv :
    decode 0x70221802 = .instr (.mul 3 1 2) ∧ decode 0x00220018 = .instr (.mult 1 2) ∧
    decode 0x00220019 = .instr (.multu 1 2) ∧ decode 0x0022001A = .instr (.div 1 2) ∧
    decode 0x0022001B = .instr (.divu 1 2) ∧ decode 0x70220000 = .instr (.madd 1 2) ∧
    decode 0x70220001 = .instr (.maddu 1 2) ∧ decode 0x70220004 = .instr (.msub 1 2) ∧
    decode 0x70220005 = .instr (.msubu 1 2) := by decide

theorem test_decode_loads :
    decode 0x80360001 = .instr (.lb 22 1 1) ∧ decode 0x84220002 = .instr (.lh 2 1 2) ∧
    decode 0x88220001 = .instr (.lwl 2 1 1) ∧ decode 0x8C22FFFC = .instr (.lw 2 1 0xFFFC) ∧
    decode 0x90220001 = .instr (.lbu 2 1 1) ∧ decode 0x94220000 = .instr (.lhu 2 1 0) ∧
    decode 0x98220003 = .instr (.lwr 2 1 3) ∧ decode 0xC0220000 = .instr (.ll 2 1 0) := by decide

theorem test_decode_stores :
    decode 0xA0220001 = .instr (.sb 2 1 1) ∧ decode 0xA4220002 = .instr (.sh 2 1 2) ∧
    decode 0xA8220003 = .instr (.swl 2 1 3) ∧ decode 0xAC220000 = .instr (.sw 2 1 0) ∧
    decode 0xB8220001 = .instr (.swr 2 1 1) ∧ decode 0xE0220000 = .instr (.sc 2 1 0) := by decide

theorem test_decode_branches :
    decode 0x10220003 = .instr (.beq 1 2 3) ∧ decode 0x14220003 = .instr (.bne 1 2 3) ∧
    decode 0x18200003 = .instr (.blez 1 3) ∧ decode 0x1C200003 = .instr (.bgtz 1 3) ∧
    decode 0x04200003 = .instr (.bltz 1 3) ∧ decode 0x0421FFFF = .instr (.bgez 1 0xFFFF) := by decide

theorem test_decode_jumps :
    decode 0x08100008 = .instr (.j 0x100008) ∧ decode 0x0C100008 = .instr (.jal 0x100008) ∧
    decode 0x03E00008 = .instr (.jr 31) ∧ decode 0x0320F809 = .instr (.jalr 31 25) ∧
    decode 0x04110002 = .instr (.bal 2) := by decide

theorem test_decode_misc_system :
    decode 0x0022180A = .instr (.movz 3 1 2) ∧ decode 0x0022180B = .instr (.movn 3 1 2) ∧
    decode 0x7C021C20 = .instr (.seb 3 2) ∧ decode 0x7C021E20 = .instr (.seh 3 2) ∧
    decode 0x7C0218A0 = .instr (.wsbh 3 2) ∧ decode 0x7C433900 = .instr (.ext 3 2 7 4) ∧
    decode 0x7C437A04 = .instr (.ins 3 2 15 8) ∧ decode 0x00220034 = .instr (.teq 1 2 0) ∧
    decode 0x0000000C = .instr (.syscall 0) ∧ decode 0x0000000D = .instr (.brk 0) := by decide

/-- Words with a nonzero must-be-zero field, and the UNIMPL space (30_encoding R129, R131). -/
theorem test_decode_unimpl : decode 0x00A10800 = .unimpl 0x00A10800 ∧ decode 0x00221860 = .unimpl 0x00221860 ∧
    decode 0x70421820 = .unimpl 0x70421820 ∧ decode 0x46000000 = .unimpl 0x46000000 := by decide

theorem test_encode : encode (.ins 3 2 15 8) = 0x7C437A04 ∧ encode (.jalr 31 25) = 0x0320F809 ∧
    encode (.clz 3 2 3) = 0x70431820 ∧ encode (.bgez 1 0xFFFF) = 0x0421FFFF := by decide

/-- The host's question: the table word of ADD with its operand bits zero. -/
theorem test_table_word : decodeTableWord 32 0x20 = some (.add 0 0 0) ∧ decodeTableWord 32 0x46000000 = none := by decide

/-! ### Results (95_test_vectors parts 1 to 3) -/

/-- `add $3, $1, $2` (R201). -/
theorem test_add :
    after (run 0x00221820 (machine [(1, 0x7FFFFFFF), (2, 1)] [])) 3 = some 0x80000000 := by decide

/-- `addu $3, $1, $2` (R202). -/
theorem test_addu :
    after (run 0x00221821 (machine [(1, 0xFFFFFFFF), (2, 2)] [])) 3 = some 1 := by decide

/-- `addi $2, $1, -1` (R203). -/
theorem test_addi :
    after (run 0x2022FFFF (machine [(1, 0)] [])) 2 = some 0xFFFFFFFF := by decide

/-- `addiu $2, $1, 0x7FFF` (R204). -/
theorem test_addiu_a :
    after (run 0x24227FFF (machine [(1, 0x7FFFFFFF)] [])) 2 = some 0x80007FFE := by decide

/-- `addiu $29, $29, -16` (R204). -/
theorem test_addiu_b :
    after (run 0x27BDFFF0 (machine [(29, 0x7FFFF000)] [])) 29 = some 0x7FFFEFF0 := by decide

/-- `sub $3, $1, $2` (R205). -/
theorem test_sub :
    after (run 0x00221822 (machine [(1, 0x80000000), (2, 1)] [])) 3 = some 0x7FFFFFFF := by decide

/-- `subu $3, $0, $2` (R206). -/
theorem test_subu :
    after (run 0x00021823 (machine [(2, 1)] [])) 3 = some 0xFFFFFFFF := by decide

/-- `and $3, $1, $2` (R207). -/
theorem test_and :
    after (run 0x00221824 (machine [(1, 0xFF00FF00), (2, 0x0FF00FF0)] [])) 3 = some 0x0F000F00 := by decide

/-- `andi $2, $1, 0xFFFF` (R208). -/
theorem test_andi :
    after (run 0x3022FFFF (machine [(1, 0x12345678)] [])) 2 = some 0x00005678 := by decide

/-- `or $3, $1, $2` (R209). -/
theorem test_or :
    after (run 0x00221825 (machine [(1, 0xFF00FF00), (2, 0x0FF00FF0)] [])) 3 = some 0xFFF0FFF0 := by decide

/-- `ori $2, $1, 0x8000` (R210). -/
theorem test_ori :
    after (run 0x34228000 (machine [(1, 0x12340000)] [])) 2 = some 0x12348000 := by decide

/-- `xor $3, $1, $2` (R211). -/
theorem test_xor :
    after (run 0x00221826 (machine [(1, 0xFF00FF00), (2, 0x0FF00FF0)] [])) 3 = some 0xF0F0F0F0 := by decide

/-- `xori $2, $1, 0xFFFF` (R212). -/
theorem test_xori :
    after (run 0x3822FFFF (machine [(1, 0x12345678)] [])) 2 = some 0x1234A987 := by decide

/-- `nor $3, $1, $0` (R213). -/
theorem test_nor :
    after (run 0x00201827 (machine [(1, 0x0000FFFF)] [])) 3 = some 0xFFFF0000 := by decide

/-- `slt $3, $1, $2` (R214). -/
theorem test_slt_a :
    after (run 0x0022182A (machine [(1, 0xFFFFFFFF), (2, 0)] [])) 3 = some 1 := by decide

/-- `slt $3, $1, $2` (R214). -/
theorem test_slt_b :
    after (run 0x0022182A (machine [(1, 0x80000000), (2, 0x7FFFFFFF)] [])) 3 = some 1 := by decide

/-- `slti $2, $1, -1` (R215). -/
theorem test_slti :
    after (run 0x2822FFFF (machine [(1, 0x80000000)] [])) 2 = some 1 := by decide

/-- `sltu $3, $1, $2` (R216). -/
theorem test_sltu :
    after (run 0x0022182B (machine [(1, 0xFFFFFFFF), (2, 0)] [])) 3 = some 0 := by decide

/-- `sltiu $2, $1, -1` (R217). -/
theorem test_sltiu_a :
    after (run 0x2C22FFFF (machine [(1, 5)] [])) 2 = some 1 := by decide

/-- `sltiu $2, $1, -1` (R217). -/
theorem test_sltiu_b :
    after (run 0x2C22FFFF (machine [(1, 0xFFFFFFFF)] [])) 2 = some 0 := by decide

/-- `sll $3, $2, 4` (R218). -/
theorem test_sll :
    after (run 0x00021900 (machine [(2, 0x87654321)] [])) 3 = some 0x76543210 := by decide

/-- `srl $3, $2, 4` (R219). -/
theorem test_srl :
    after (run 0x00021902 (machine [(2, 0x87654321)] [])) 3 = some 0x08765432 := by decide

/-- `sra $3, $2, 4` (R220). -/
theorem test_sra :
    after (run 0x00021903 (machine [(2, 0x87654321)] [])) 3 = some 0xF8765432 := by decide

/-- `sllv $3, $2, $1` (R221). -/
theorem test_sllv :
    after (run 0x00221804 (machine [(1, 0x00000024), (2, 0x87654321)] [])) 3 = some 0x76543210 := by decide

/-- `srlv $3, $2, $1` (R222). -/
theorem test_srlv :
    after (run 0x00221806 (machine [(1, 0x00000024), (2, 0x87654321)] [])) 3 = some 0x08765432 := by decide

/-- `srav $3, $2, $1` (R223). -/
theorem test_srav :
    after (run 0x00221807 (machine [(1, 0x00000024), (2, 0x87654321)] [])) 3 = some 0xF8765432 := by decide

/-- `rotr $3, $2, 8` (R224). -/
theorem test_rotr_a :
    after (run 0x00221A02 (machine [(2, 0x12345678)] [])) 3 = some 0x78123456 := by decide

/-- `rotr $3, $2, 0` (R224). -/
theorem test_rotr_b :
    after (run 0x00221802 (machine [(2, 0x12345678)] [])) 3 = some 0x12345678 := by decide

/-- `rotrv $3, $2, $1` (R225). -/
theorem test_rotrv_a :
    after (run 0x00221846 (machine [(1, 0x00000028), (2, 0x12345678)] [])) 3 = some 0x78123456 := by decide

/-- `rotrv $3, $2, $1` (R225). -/
theorem test_rotrv_b :
    after (run 0x00221846 (machine [(1, 0x00000020), (2, 0x12345678)] [])) 3 = some 0x12345678 := by decide

/-- `lui $2, 0x8001` (R226). -/
theorem test_lui :
    after (run 0x3C028001 (machine [] [])) 2 = some 0x80010000 := by decide

/-- `clz $3, $2` (R227). -/
theorem test_clz_a :
    after (run 0x70431820 (machine [(2, 0x00010000)] [])) 3 = some 0x0000000F := by decide

/-- `clz $3, $2` (R227). -/
theorem test_clz_b :
    after (run 0x70431820 (machine [(2, 0)] [])) 3 = some 0x00000020 := by decide

/-- `clo $3, $2` (R228). -/
theorem test_clo_a :
    after (run 0x70431821 (machine [(2, 0xFFF00000)] [])) 3 = some 0x0000000C := by decide

/-- `clo $3, $2` (R228). -/
theorem test_clo_b :
    after (run 0x70431821 (machine [(2, 0xFFFFFFFF)] [])) 3 = some 0x00000020 := by decide

/-- `mfhi $3` (R229). -/
theorem test_mfhi :
    after (run 0x00001810 (machine [(33, 0xDEADBEEF)] [])) 3 = some 0xDEADBEEF := by decide

/-- `mflo $3` (R230). -/
theorem test_mflo :
    after (run 0x00001812 (machine [(32, 0xCAFEF00D)] [])) 3 = some 0xCAFEF00D := by decide

/-- `mul $3, $1, $2` (R251). -/
theorem test_mul :
    after (run 0x70221802 (machine [(1, 0xFFFFFFFF), (2, 0xFFFFFFFF), (33, 0), (32, 0)] [])) 3 = some 1 := by decide

/-- `mult $1, $2` (R252). -/
theorem test_mult_a :
    after (run 0x00220018 (machine [(1, 0xFFFFFFFF), (2, 2)] [])) 32 = some 0xFFFFFFFE ∧ after (run 0x00220018 (machine [(1, 0xFFFFFFFF), (2, 2)] [])) 33 = some 0xFFFFFFFF := by decide

/-- `mult $1, $2` (R252). -/
theorem test_mult_b :
    after (run 0x00220018 (machine [(1, 0x80000000), (2, 0x80000000)] [])) 32 = some 0 ∧ after (run 0x00220018 (machine [(1, 0x80000000), (2, 0x80000000)] [])) 33 = some 0x40000000 := by decide

/-- `multu $1, $2` (R253). -/
theorem test_multu :
    after (run 0x00220019 (machine [(1, 0xFFFFFFFF), (2, 0xFFFFFFFF)] [])) 32 = some 1 ∧ after (run 0x00220019 (machine [(1, 0xFFFFFFFF), (2, 0xFFFFFFFF)] [])) 33 = some 0xFFFFFFFE := by decide

/-- `div $1, $2` (R254). -/
theorem test_div_a :
    after (run 0x0022001A (machine [(1, 0xFFFFFFF9), (2, 2)] [])) 32 = some 0xFFFFFFFD ∧ after (run 0x0022001A (machine [(1, 0xFFFFFFF9), (2, 2)] [])) 33 = some 0xFFFFFFFF := by decide

/-- `div $1, $2` (R254). -/
theorem test_div_b :
    after (run 0x0022001A (machine [(1, 0x80000000), (2, 0xFFFFFFFF)] [])) 32 = some 0x80000000 ∧ after (run 0x0022001A (machine [(1, 0x80000000), (2, 0xFFFFFFFF)] [])) 33 = some 0 := by decide

/-- `divu $1, $2` (R255). -/
theorem test_divu_a :
    after (run 0x0022001B (machine [(1, 0xFFFFFFF9), (2, 2)] [])) 32 = some 0x7FFFFFFC ∧ after (run 0x0022001B (machine [(1, 0xFFFFFFF9), (2, 2)] [])) 33 = some 1 := by decide

/-- `divu $1, $2` (R255). -/
theorem test_divu_b :
    after (run 0x0022001B (machine [(1, 0xFFFFFFFF), (2, 0)] [])) 32 = some 0xFFFFFFFF ∧ after (run 0x0022001B (machine [(1, 0xFFFFFFFF), (2, 0)] [])) 33 = some 0xFFFFFFFF := by decide

/-- `madd $1, $2` (R258). -/
theorem test_madd :
    after (run 0x70220000 (machine [(1, 0xFFFFFFFF), (2, 3), (33, 0), (32, 1)] [])) 32 = some 0xFFFFFFFE ∧ after (run 0x70220000 (machine [(1, 0xFFFFFFFF), (2, 3), (33, 0), (32, 1)] [])) 33 = some 0xFFFFFFFF := by decide

/-- `maddu $1, $2` (R259). -/
theorem test_maddu :
    after (run 0x70220001 (machine [(1, 0xFFFFFFFF), (2, 0xFFFFFFFF), (33, 0xFFFFFFFF), (32, 0xFFFFFFFF)] [])) 32 = some 0 ∧ after (run 0x70220001 (machine [(1, 0xFFFFFFFF), (2, 0xFFFFFFFF), (33, 0xFFFFFFFF), (32, 0xFFFFFFFF)] [])) 33 = some 0xFFFFFFFE := by decide

/-- `msub $1, $2` (R260). -/
theorem test_msub :
    after (run 0x70220004 (machine [(1, 2), (2, 3), (33, 0), (32, 5)] [])) 32 = some 0xFFFFFFFF ∧ after (run 0x70220004 (machine [(1, 2), (2, 3), (33, 0), (32, 5)] [])) 33 = some 0xFFFFFFFF := by decide

/-- `msubu $1, $2` (R261). -/
theorem test_msubu :
    after (run 0x70220005 (machine [(1, 0xFFFFFFFF), (2, 2), (33, 0), (32, 0)] [])) 32 = some 2 ∧ after (run 0x70220005 (machine [(1, 0xFFFFFFFF), (2, 2), (33, 0), (32, 0)] [])) 33 = some 0xFFFFFFFE := by decide

/-- `mthi $1` (`ADMIT_MTHI_MTLO = true`)` (R262). -/
theorem test_mthi :
    after (run 0x00200011 (admitting (machine [(1, 0x00001234)] []))) 33 = some 0x00001234 := by decide

/-- `mtlo $1` (`ADMIT_MTHI_MTLO = true`)` (R263). -/
theorem test_mtlo :
    after (run 0x00200013 (admitting (machine [(1, 0x00005678)] []))) 32 = some 0x00005678 := by decide

/-- `movz $3, $1, $2` (R360). -/
theorem test_movz_a :
    after (run 0x0022180A (machine [(1, 0x11111111), (2, 0), (3, 0x33333333)] [])) 3 = some 0x11111111 := by decide

/-- `movz $3, $1, $2` (R360). -/
theorem test_movz_b :
    after (run 0x0022180A (machine [(1, 0x11111111), (2, 5), (3, 0x33333333)] [])) 3 = some 0x33333333 := by decide

/-- `movn $3, $1, $2` (R361). -/
theorem test_movn :
    after (run 0x0022180B (machine [(1, 0x11111111), (2, 5)] [])) 3 = some 0x11111111 := by decide

/-- `seb $3, $2` (R362). -/
theorem test_seb_a :
    after (run 0x7C021C20 (machine [(2, 0x12345680)] [])) 3 = some 0xFFFFFF80 := by decide

/-- `seb $3, $2` (R362). -/
theorem test_seb_b :
    after (run 0x7C021C20 (machine [(2, 0x0000007F)] [])) 3 = some 0x0000007F := by decide

/-- `seh $3, $2` (R363). -/
theorem test_seh :
    after (run 0x7C021E20 (machine [(2, 0x12348000)] [])) 3 = some 0xFFFF8000 := by decide

/-- `wsbh $3, $2` (R364). -/
theorem test_wsbh :
    after (run 0x7C0218A0 (machine [(2, 0x11223344)] [])) 3 = some 0x22114433 := by decide

/-- `ext $3, $2, 4, 8` (R365). -/
theorem test_ext_a :
    after (run 0x7C433900 (machine [(2, 0x12345678)] [])) 3 = some 0x00000067 := by decide

/-- `ext $3, $2, 31, 1` (R365). -/
theorem test_ext_b :
    after (run 0x7C4307C0 (machine [(2, 0x80000001)] [])) 3 = some 1 := by decide

/-- `ins $3, $2, 8, 8` (R366). -/
theorem test_ins_a :
    after (run 0x7C437A04 (machine [(2, 0x000000AB), (3, 0x11223344)] [])) 3 = some 0x1122AB44 := by decide

/-- `ins $3, $2, 31, 1` (R366). -/
theorem test_ins_b :
    after (run 0x7C43FFC4 (machine [(2, 1), (3, 0)] [])) 3 = some 0x80000000 := by decide

/-- `lb $22, 1($1)` (R283). -/
theorem test_lb_a :
    after (run 0x80360001 (machine [(1, 0x00500000)] [(0x00500000, 0x12348765)])) 22 = some 0xFFFFFF87 := by decide

/-- `lb $2, 3($1)`, word 0x80000000` (R283). -/
theorem test_lb_b :
    after (run 0x80220003 (machine [(1, 0x00500000)] [(0x00500000, 0x80000000)])) 2 = some 0xFFFFFF80 := by decide

/-- `lbu $2, 1($1)` (R284). -/
theorem test_lbu :
    after (run 0x90220001 (machine [(1, 0x00500000)] [(0x00500000, 0x12348765)])) 2 = some 0x00000087 := by decide

/-- `lh $2, 0($1)` (R285). -/
theorem test_lh_a :
    after (run 0x84220000 (machine [(1, 0x00500000)] [(0x00500000, 0x12348765)])) 2 = some 0xFFFF8765 := by decide

/-- `lh $2, 3($1)` (R285). -/
theorem test_lh_b :
    after (run 0x84220003 (machine [(1, 0x00500000)] [(0x00500000, 0x12348765)])) 2 = some 0x00001234 := by decide

/-- `lhu $2, 0($1)` (R286). -/
theorem test_lhu :
    after (run 0x94220000 (machine [(1, 0x00500000)] [(0x00500000, 0x12348765)])) 2 = some 0x00008765 := by decide

/-- `lw $2, 3($1)` (R287). -/
theorem test_lw_a :
    after (run 0x8C220003 (machine [(1, 0x00500000)] [(0x00500000, 0x12348765)])) 2 = some 0x12348765 := by decide

/-- `lw $2, 0($1)` with x1 = 0x00600000, untouched` (R287). -/
theorem test_lw_b :
    after (run 0x8C220000 (machine [(1, 0x00600000)] [(0x00500000, 0x12348765)])) 2 = some 0 := by decide

/-- `lwl $2, 0($1)`, word 0x12345678` (R288). -/
theorem test_lwl_a :
    after (run 0x88220000 (machine [(1, 0x00500000), (2, 0xAABBCCDD)] [(0x00500000, 0x12345678)])) 2 = some 0x78BBCCDD := by decide

/-- `lwl $2, 1($1)` (R288). -/
theorem test_lwl_b :
    after (run 0x88220001 (machine [(1, 0x00500000), (2, 0xAABBCCDD)] [(0x00500000, 0x12348765)])) 2 = some 0x8765CCDD := by decide

/-- `lwr $2, 1($1)` (R289). -/
theorem test_lwr_a :
    after (run 0x98220001 (machine [(1, 0x00500000), (2, 0xAABBCCDD)] [(0x00500000, 0x12348765)])) 2 = some 0xAA123487 := by decide

/-- `lwr $2, 3($1)`, word 0x12345678` (R289). -/
theorem test_lwr_b :
    after (run 0x98220003 (machine [(1, 0x00500000), (2, 0xAABBCCDD)] [(0x00500000, 0x12345678)])) 2 = some 0xAABBCC12 := by decide

/-- `ll $2, 0($1)` (R290). -/
theorem test_ll :
    after (run 0xC0220000 (machine [(1, 0x00500000)] [(0x00500000, 0x12348765)])) 2 = some 0x12348765 := by decide

/-- `sb $2, 1($1)` (R291). -/
theorem test_sb :
    after (run 0xA0220001 (machine [(1, 0x00500000), (2, 0xAABBCCDD)] [(0x00500000, 0x12348765)])) 0x00500000 = some 0x1234DD65 := by decide

/-- `sh $2, 2($1)` (R292). -/
theorem test_sh_a :
    after (run 0xA4220002 (machine [(1, 0x00500000), (2, 0xAABBCCDD)] [(0x00500000, 0x12348765)])) 0x00500000 = some 0xCCDD8765 := by decide

/-- `sh $2, 3($1)` (R292). -/
theorem test_sh_b :
    after (run 0xA4220003 (machine [(1, 0x00500000), (2, 0xAABBCCDD)] [(0x00500000, 0x12348765)])) 0x00500000 = some 0xCCDD8765 := by decide

/-- `sw $2, 2($1)` (R293). -/
theorem test_sw :
    after (run 0xAC220002 (machine [(1, 0x00500000), (2, 0xAABBCCDD)] [(0x00500000, 0x12348765)])) 0x00500000 = some 0xAABBCCDD := by decide

/-- `swl $2, 1($1)` (R294). -/
theorem test_swl :
    after (run 0xA8220001 (machine [(1, 0x00500000), (2, 0xAABBCCDD)] [(0x00500000, 0x12348765)])) 0x00500000 = some 0x1234AABB := by decide

/-- `swr $2, 1($1)` (R295). -/
theorem test_swr :
    after (run 0xB8220001 (machine [(1, 0x00500000), (2, 0xAABBCCDD)] [(0x00500000, 0x12348765)])) 0x00500000 = some 0xBBCCDD65 := by decide

/-- `sc $2, 0($1)` (R296). -/
theorem test_sc :
    after (run 0xE0220000 (machine [(1, 0x00500000), (2, 0xAABBCCDD)] [(0x00500000, 0x12348765)])) 0x00500000 = some 0xAABBCCDD ∧ after (run 0xE0220000 (machine [(1, 0x00500000), (2, 0xAABBCCDD)] [(0x00500000, 0x12348765)])) 2 = some 1 := by decide

/-- `beq $1, $2, 3` (R321). -/
theorem test_beq_a :
    npcAfter (run 0x10220003 (machine [(1, 7), (2, 7)] [])) = some 0x00400010 := by decide

/-- `beq $1, $2, 3` (R321). -/
theorem test_beq_b :
    npcAfter (run 0x10220003 (machine [(1, 1), (2, 2)] [])) = some 0x00400008 := by decide

/-- `bne $1, $2, 3` (R322). -/
theorem test_bne :
    npcAfter (run 0x14220003 (machine [(1, 1), (2, 2)] [])) = some 0x00400010 := by decide

/-- `blez $1, 3` (R323). -/
theorem test_blez_a :
    npcAfter (run 0x18200003 (machine [(1, 0)] [])) = some 0x00400010 := by decide

/-- `blez $1, 3` (R323). -/
theorem test_blez_b :
    npcAfter (run 0x18200003 (machine [(1, 1)] [])) = some 0x00400008 := by decide

/-- `bgtz $1, 3` (R324). -/
theorem test_bgtz_a :
    npcAfter (run 0x1C200003 (machine [(1, 0xFFFFFFFF)] [])) = some 0x00400008 := by decide

/-- `bgtz $1, 3` (R324). -/
theorem test_bgtz_b :
    npcAfter (run 0x1C200003 (machine [(1, 0x7FFFFFFF)] [])) = some 0x00400010 := by decide

/-- `bltz $1, 3` (R325). -/
theorem test_bltz_a :
    npcAfter (run 0x04200003 (machine [(1, 0xFFFFFFFF)] [])) = some 0x00400010 := by decide

/-- `bltz $1, 3` (R325). -/
theorem test_bltz_b :
    npcAfter (run 0x04200003 (machine [(1, 0)] [])) = some 0x00400008 := by decide

/-- `bgez $1, -1` (R326). -/
theorem test_bgez_a :
    npcAfter (run 0x0421FFFF (machine [(1, 0)] [])) = some 0x00400000 := by decide

/-- `bgez $1, -1` (R326). -/
theorem test_bgez_b :
    npcAfter (run 0x0421FFFF (machine [(1, 0x80000000)] [])) = some 0x00400008 := by decide

/-- `j 0x100008` (R341). -/
theorem test_j :
    npcAfter (run 0x08100008 (machine [] [])) = some 0x00400020 := by decide

/-- `jal 0x100008` at pc 0x00400010` (R342). -/
theorem test_jal :
    after (run 0x0C100008 { machine [] [] with pcBase := 0x00400010, pc := 0x00400010, npc := 0x00400014 }) 31 = some 0x00400018 ∧ npcAfter (run 0x0C100008 { machine [] [] with pcBase := 0x00400010, pc := 0x00400010, npc := 0x00400014 }) = some 0x00400020 := by decide

/-- `jr $31` (R343). -/
theorem test_jr :
    npcAfter (run 0x03E00008 (machine [(31, 0x00400100)] [])) = some 0x00400100 := by decide

/-- `jalr $31, $25` (R344). -/
theorem test_jalr_a :
    after (run 0x0320F809 (machine [(25, 0x00400200)] [])) 31 = some 0x00400008 ∧ npcAfter (run 0x0320F809 (machine [(25, 0x00400200)] [])) = some 0x00400200 := by decide

/-- `jalr $25, $25` (R344). -/
theorem test_jalr_b :
    after (run 0x0320C809 (machine [(25, 0x00400200)] [])) 25 = some 0x00400008 ∧ npcAfter (run 0x0320C809 (machine [(25, 0x00400200)] [])) = some 0x00400200 := by decide

/-- `bal 2` (R345). -/
theorem test_bal :
    after (run 0x04110002 (machine [] [])) 31 = some 0x00400008 ∧ npcAfter (run 0x04110002 (machine [] [])) = some 0x0040000C := by decide

/-- `sync`, `pref`, `synci` change nothing but the pc (R231, R232, R233). -/
theorem test_noops : after (run 0x0000000F (machine [(1, 7)] [])) 1 = some 7 ∧
    npcAfter (run 0xCC200004 (machine [] [])) = some 0x00400008 ∧
    npcAfter (run 0x043F0000 (machine [] [])) = some 0x00400008 := by decide

/-- `addiu $0, $0, 5`: register 0 stays 0 and its record is `(0, 1, 3)` (part 1.7). -/
theorem test_register_zero : (match run 0x24000005 (machine [] []) with
    | .next t => decide (t.record 0 = { value := 0, shard := 1, timestamp := 3 })
    | .fault _ => false
    | .refused _ => false) = true := by decide

/-- The records of one `lw` (part 2.3). -/
theorem test_lw_records : (match run 0x8C220000 (machine [(1, 0x00500000)] [(0x00500000, 0x12348765)]) with
    | .next t => decide ((t.record 1).timestamp = 2 ∧ (t.record 0x00500000).timestamp = 0 ∧ (t.record 2).timestamp = 3)
    | .fault _ => false
    | .refused _ => false) = true := by decide

/-- An unaligned word by `lwr $2, 1($1)`, then `lwl $2, 4($1)` on its result (R288's corner case). -/
theorem test_lwr_lwl : after (match run 0x98220001 (machine [(1, 0x00500000)]
      [(0x00500000, 0x44332211), (0x00500004, 0x88776655)]) with
    | .next t => exec (.lwl 2 1 4) t
    | .fault e => .fault e
    | .refused e => .refused e) 2 = some 0x55443322 := by decide

theorem test_teq : npcAfter (run 0x00220034 (machine [(1, 1), (2, 2)] [])) = some 0x00400008 ∧
    faultOf (run 0x00220034 (machine [(1, 5), (2, 5)] [])) = some (.trap 0x00400000) := by decide
theorem test_break : faultOf (run 0x0000000D (machine [] [])) = some .breakpoint := by decide
theorem test_unimpl : faultOf (run 0x46000000 (machine [] [])) = some (.unsupportedInstruction 0x46000000) := by decide
theorem test_mthi_not_admitted : faultOf (run 0x00200011 (machine [(1, 5)] [])) = some (.unsupportedInstruction 0x00200011) := by
  decide
theorem test_low_address : faultOf (run 0x8C020023 (machine [] [])) = some (.invalidMemoryAccess .lw 0x23) ∧
    after (run 0x8C020024 (machine [] [])) 2 = some 0 := by decide
theorem test_alias : after (run 0x8C020004 (aliasing (machine [(4, 0x77)] []))) 2 = some 0x77 := by decide
theorem test_ext_refused : refusalOf (run 0x7C433F00 (machine [] [])) = some .unpredictableExt := by decide
theorem test_ins_refused : refusalOf (run 0x7C433A04 (machine [] [])) = some .unpredictableIns := by decide
theorem test_jumpi_refused :
    refusalOf (run 0x08000004 { machine [] [] with pcBase := 0x10000000, pc := 0x10000000, npc := 0x10000004 }) =
      some .jumpiHighSegment := by decide

/-- The host of part 2.7: code 0x10 gives `ret = 7`, with 20 extra cycles. -/
def served : State :=
  { machine [(2, 0x10), (4, 3), (5, 4)] [] with
    params := { Params.default with maxSyscallCycles := 20 }
    hostAnswers := [(0x10, { Response.empty with ret := some 7, extra := 20 })] }

theorem test_syscall : after (run 0xC served) 2 = some 7 ∧ (match run 0xC served with
    | .next t => decide (t.clk = 25 ∧ t.globalClk = 1)
    | .fault _ => false
    | .refused _ => false) = true := by decide
theorem test_syscall_unserved : faultOf (run 0xC (machine [(2, 0x10)] [])) = some (.unsupportedSyscall 0x10) := by decide

/-- MOD and MODU exist as records only (part 2.2). -/
theorem test_mod_modu :
    after (execRecord (sample .mod 3 1 2 false false) (machine [(1, 0xFFFFFFF9), (2, 2)] [])) 3 = some 0xFFFFFFFF ∧
    after (execRecord (sample .modu 3 1 2 false false) (machine [(1, 0xFFFFFFF9), (2, 2)] [])) 3 = some 1 := by decide

/-- State.reset is the launch with the choices of assumption log 1, 2, 4 and 5. -/
theorem test_reset_is_launch : launch .default = .next State.reset := by rfl

/-! ### Witnesses: what meets the hypotheses of each obligation, at the boundary of each clause -/

/-- The plain state the witnesses start from. -/
abbrev base : State := machine [(1, 0x00500000), (2, 3)] []

theorem witness_DecodeEncodeRoundTrip : (Instr.clz 3 2 3).wf = true ∧ decode 0x46000000 = .unimpl 0x46000000 ∧
    (Instr.add 3 1 2).wf = true ∧ (Instr.add 3 1 2).record false = (Instr.add 3 1 2).record false := by decide
theorem witness_DecodedWordIsItsEncoding : decode 0x70431820 = .instr (.clz 3 2 3) := by decide
theorem witness_DecoderAgreesWithOpcodeTable : decode 0x46000000 = .unimpl 0x46000000 ∧
    (0x00221820 : Word) &&& 0xFC0007FF = 0x00000020 ∧
    (OpcodeRow.mk "ADD" 0xFC0007FF 0x00000020) ∈ opcodeRowsAlu := by decide
theorem witness_ListedEncodingsAreUnimpl : Word.opcode 0x40000000 = 0x10 ∧ Word.opcode 0xBC000000 = 0x2F ∧
    (Word.opcode 0x04100000 = 0x01 ∧ Word.rt 0x04100000 = 0x10) ∧
    (Word.opcode 0x04310000 = 0x01 ∧ Word.rt 0x04310000 = 0x11 ∧ Word.rs 0x04310000 ≠ 0) ∧
    (Word.opcode 0x00000001 = 0 ∧ Word.funct 0x00000001 = 0x01) ∧
    (Word.opcode 0x7000003F = 0x1C ∧ Word.funct 0x7000003F = 0x3F) ∧
    (Word.opcode 0x7C00003B = 0x1F ∧ Word.funct 0x7C00003B = 0x3B) := by decide
theorem witness_DecodedAluTable : (∀ op ∈ [Opcode.add, .sub, .and, .or, .xor, .nor, .slt, .sltu, .sll, .srl, .sra, .ror],
      (sample op 31 31 0 false false).wf = true) ∧
    (∀ op ∈ [Opcode.add, .and, .or, .xor, .slt, .sltu, .sll, .srl, .sra, .ror], (sample op 0 31 31 false true).wf = true) ∧
    (sample .sll 31 0xFFFF 16 true true).wf = true ∧
    (sample .clz 31 1 0 false true).wf = true ∧ (sample .clo 0 31 0 false true).wf = true := by decide
theorem witness_SignedDivideResults : (machine [(1, 7)] []).cell 2 = 0 ∧
    ((machine [(1, 0x80000000), (2, 0xFFFFFFFF)] []).cell 1 = 0x80000000 ∧
      (machine [(1, 0x80000000), (2, 0xFFFFFFFF)] []).cell 2 = 0xFFFFFFFF) ∧
    ((machine [(1, 7), (2, 1)] []).cell 2 ≠ 0 ∧ ¬ ((machine [(1, 7), (2, 1)] []).cell 1 = 0x80000000)) := by decide
theorem witness_UnsignedDivideResults : (machine [] []).cell 2 = 0 ∧ (machine [(2, 0xFFFFFFFF)] []).cell 2 ≠ 0 := by decide
theorem witness_MovesToHiLo : (admitting base).params.admitMthiMtlo = true ∧ base.params.admitMthiMtlo = false := by decide
theorem witness_RemainderRecords : (sample .mod 3 1 2 false false).wf = true ∧ (sample .modu 31 31 0 false true).wf = true ∧
    (sample .mod 0 0x80000000 0xFFFFFFFF true true).wf = true ∧ base.src (srcC (sample .mod 3 1 0 false true)) = 0 ∧
    base.src (srcC (sample .mod 3 1 2 false false)) ≠ 0 := by decide
theorem witness_WordsAreLittleEndian : 34 ≤ 36 ∧ 3 < 4 ∧ 1 < 2 := by decide
theorem witness_LoadResults : Admitted (machine [(1, 36)] []) 1 0 ∧ Admitted base 1 0xFFFF ∧
    Admitted (aliasing (machine [(1, 35)] [])) 1 0 := by decide
theorem witness_MergeLoadResults : Admitted (machine [(1, 39)] []) 1 0 ∧ Admitted (aliasing base) 0 0 := by decide
theorem witness_LwrThenLwlLoadsUnalignedWord : (2 : Reg) ≠ 0 ∧ (2 : Reg) ≠ 1 ∧
    (2 : BitVec 16).signExtend 32 = (0xFFFF : BitVec 16).signExtend 32 + 3#32 ∧
    36 ≤ (addressOf (machine [(1, 37)] []) 1 0xFFFF).toNat ∧
    (addressOf (machine [(1, 37)] []) 1 0xFFFF).toNat + 3 < 2 ^ 32 := by decide
theorem witness_StoreResults : DataAccess (machine [(1, 36)] []) 1 0 ∧ DataAccess (machine [] []) 0 0xFFFF := by decide
theorem witness_MergeStoreResults : DataAccess (machine [(1, 39)] []) 1 0 ∧ DataAccess (machine [] []) 0 0xFFFC := by decide
theorem witness_StoreConditionalAlwaysSucceeds : DataAccess (machine [(1, 38)] []) 1 0 := by decide
theorem witness_LowAddressesFault : (machine [(1, 35)] []).params.lowAddressPolicy = .fault ∧
    wordKey (addressOf (machine [(1, 35)] []) 1 0) ≤ 32 ∧ wordKey (addressOf (machine [] []) 0 0) ≤ 32 := by decide
theorem witness_LowStoresAliasRegisters : (aliasing (machine [(1, 35)] [])).params.lowAddressPolicy = .aliased ∧
    wordKey (addressOf (aliasing (machine [(1, 35)] [])) 1 0) ≤ 32 ∧
    wordKey (addressOf (aliasing (machine [] [])) 0 0) ≤ 32 := by decide
theorem witness_ImmediateJumps : base.npc.toNat < 2 ^ 28 ∧
    ({ base with npc := 0x0FFFFFFC } : State).npc.toNat < 2 ^ 28 ∧
    2 ^ 28 ≤ ({ base with npc := 0x10000000 } : State).npc.toNat ∧ base.params.jumpiHighSegment = .refuse ∧
    ({ base.params with jumpiHighSegment := .mips32 } : Params).jumpiHighSegment = .mips32 := by decide
theorem witness_PcAndClockAdvance : completes (exec (.beq 0 0 1) base) = true ∧ completes (exec (.add 3 1 2) base) = true ∧
    completes (exec (.syscall 0) served) = true := by decide
/-- A taken branch to 0x00400010 with a branch, and with a SYSCALL, in its delay slot. -/
def slotted (w : Word) : State := { served with program := [.word 0x10000003, .word w, .word 0, .word 0, .word 0] }

/-- The next state of a step, the state itself where there is none. -/
def next (s : State) : State :=
  match step s with
  | .next t => t
  | .fault _ => s
  | .refused _ => s

theorem witness_DelaySlotThenTarget : (Instr.beq 0 0 3).isTransfer = true ∧
    (slotted 0x10000002).fetch = .slot (.word 0x10000003) ∧ decode 0x10000003 = .instr (.beq 0 0 3) ∧
    completes (step (slotted 0x10000002)) = true ∧ (next (slotted 0x10000002)).done = false ∧
    ((slotted 0x10000002).npc.toNat - (slotted 0x10000002).pcBase.toNat) % 4 = 0 ∧
    (slotted 0x10000002).program[((slotted 0x10000002).npc.toNat - (slotted 0x10000002).pcBase.toNat) / 4]? =
      some (.word 0x10000002) ∧ decode 0x10000002 = .instr (.beq 0 0 2) := by decide
theorem witness_DelaySlotThenTarget_steps : completes (step (next (slotted 0x10000002))) = true := by decide
theorem witness_DelaySlotThenTarget_syscall : completes (step (slotted 0x0000000C)) = true ∧
    decode 0x0000000C = .instr (.syscall 0) ∧
    (match (next (slotted 0x0000000C)).hostAnswer 0x10 3 with
      | some (resp, _) => decide (resp.jump = none)
      | none => false) = true := by decide
/-- R328: the branch in the slot is based on the first one's target. -/
theorem test_branch_in_slot : (next (next (slotted 0x10000002))).pc = 0x00400010 ∧
    (next (next (slotted 0x10000002))).npc = 0x00400018 := by decide
theorem witness_ExtractField : (0 : BitVec 5).toNat + (31 : BitVec 5).toNat ≤ 31 ∧
    31 < (1 : BitVec 5).toNat + (31 : BitVec 5).toNat := by decide
theorem witness_InsertField : (31 : BitVec 5).toNat ≤ (31 : BitVec 5).toNat ∧ (0 : BitVec 5).toNat < (1 : BitVec 5).toNat := by
  decide
theorem witness_TrapIfEqual : base.cell 3 = base.cell 4 ∧ base.cell 1 ≠ base.cell 2 := by decide

/-- A port that writes a word, returns, costs and jumps, and one that halts with 0. -/
def port (r : Response) : State :=
  { machine [(2, 0x10), (4, 3)] [] with
    params := { Params.default with maxSyscallCycles := 20, syscallCodes := [(.halt, 0x1000)] }
    hostAnswers := [(0x10, r)] }

/-- The largest response the hypotheses of SyscallCompletes allow. -/
def fullResponse : Response :=
  { ret := some 7, accesses := [.read 29, .write 36 1, .read 36, .write 0xFFFFFFFC 2], extra := 20, halt := some 0, jump := some (0, 4), fault := none }

theorem witness_SyscallCompletes :
    (port fullResponse).hostAnswer ((port fullResponse).cell 2) ((port fullResponse).cell 4) = some (fullResponse, []) ∧
    fullResponse.fault = none ∧ fullResponse.writesData = true ∧ fullResponse.readsCells = true ∧
    fullResponse.extra.toNat ≤ (port fullResponse).params.maxSyscallCycles.toNat ∧ fullResponse.halt = some 0 := by decide
theorem witness_SyscallStops :
    (machine [(2, 0x11)] []).hostAnswer 0x11 0 = none ∧
    (port { Response.empty with fault := some .unimplemented }).hostAnswer 0x10 3 =
      some ({ Response.empty with fault := some .unimplemented }, []) ∧
    (port { Response.empty with accesses := [.write 35 0] }).hostAnswer 0x10 3 =
      some ({ Response.empty with accesses := [.write 35 0] }, []) ∧
    ({ Response.empty with accesses := [.write 35 0] } : Response).writesData = false ∧
    (port { Response.empty with accesses := [.write 36 0, .read 34] }).hostAnswer 0x10 3 =
      some ({ Response.empty with accesses := [.write 36 0, .read 34] }, []) ∧
    ({ Response.empty with accesses := [.write 36 0, .read 34] } : Response).writesData = true ∧
    ({ Response.empty with accesses := [.write 36 0, .read 34] } : Response).readsCells = false ∧
    (port { Response.empty with extra := 21 }).params.maxSyscallCycles.toNat < (21 : Word).toNat ∧
    (port { Response.empty with halt := some 1 }).hostAnswer 0x10 3 = some ({ Response.empty with halt := some 1 }, []) := by
  decide
/-- A HALT with `A0 = a0`, the port holding `r` for its code, or nothing. -/
def halting (a0 : Word) (r : Option Response) : State :=
  { machine [(2, 0x1000), (4, a0)] [] with
    params := { Params.default with maxSyscallCycles := 20, syscallCodes := [(.halt, 0x1000)] }
    hostAnswers := match r with
      | some r => [(0x1000, r)]
      | none => [] }

theorem witness_HaltEndsTheRun : (∀ s ∈ [halting 0 none, halting 1 none, halting 0 (some fullResponse)],
      haltCode s.params.syscallCodes = some (s.cell 2)) ∧
    takeAnswer (halting 0 none).hostAnswers 0x1000 = none ∧ (halting 0 none).cell 4 = 0 ∧ (halting 1 none).cell 4 ≠ 0 ∧
    takeAnswer (halting 0 (some fullResponse)).hostAnswers 0x1000 = some (fullResponse, []) ∧
    fullResponse.fault = none ∧ fullResponse.extra.toNat ≤ (halting 0 none).params.maxSyscallCycles.toNat ∧
    ({ Response.empty with fault := some .endInUnconstrained } : Response).fault ≠ none := by decide
/-- R383: ending a run while unconstrained, which the port answers with the fault. -/
theorem test_halt_unconstrained :
    faultOf (run 0xC (halting 0 (some { Response.empty with fault := some .endInUnconstrained }))) =
      some .endInUnconstrained := by decide
/-- A handler's reads count in `local_mem`, one each (20_memory R89), beside the reads of A1 and A0 and the write of V0. -/
theorem test_handler_reads : (match run 0xC (port { Response.empty with accesses := [.read 36, .read 36] }) with
    | .next t => t.localMem
    | .fault _ => 0
    | .refused _ => 0) = 5 := by decide

/-- A program of one `add`, one record and one UNIMPL word. -/
def programmed : State :=
  { base with program := [.word 0x00221820, .record (sample .mod 3 1 2 false false), .word 0x46000000] }

theorem witness_UnimplFaultsWhenExecuted :
    ({ programmed with pc := 0x00400008 } : State).fetch = .slot (.word 0x46000000) ∧
    decode 0x46000000 = .unimpl 0x46000000 ∧
    ({ programmed with program := [.record (Record.unimpl 0x46000000)] } : State).fetch =
      .slot (.record (Record.unimpl 0x46000000)) ∧
    (Record.unimpl 0x46000000).opcode = .unimpl ∧ (Record.unimpl 0x46000000).raw = some 0x46000000 := by decide
theorem witness_StepRunsDecodedInstruction : programmed.done = false ∧
    programmed.program[(programmed.pc.toNat - programmed.pcBase.toNat) / 4]? = some (.word 0x00221820) ∧
    decode 0x00221820 = .instr (.add 3 1 2) ∧ ({ programmed with pc := 0x00400004 } : State).done = false ∧
    programmed.program[1]? = some (.record (sample .mod 3 1 2 false false)) := by decide
theorem witness_DoneAndMisalignedFetch : ({ programmed with pc := 0 } : State).done = true ∧
    ({ programmed with pc := 0x0040000C } : State).done = true ∧ ({ programmed with exited := true } : State).done = true ∧
    ({ programmed with pc := 0x0040000B } : State).done = false ∧ ({ programmed with pc := 0x00400008 } : State).done = false := by
  decide

/-- The programmed state with a cycle limit of `m`. -/
def limited (m : BitVec 64) : State :=
  { programmed with params := { programmed.params with maxCycles := some m } }

theorem witness_CycleLimit : (limited 1).done = false ∧ (limited 1).fetch = .slot (.word 0x00221820) ∧
    (match exec (.add 3 1 2) (limited 1) with
      | .next t => decide (t.params.maxCycles = some 1 ∧ 1 ≤ t.globalClk)
      | .fault _ => false
      | .refused _ => false) = true ∧
    (match exec (.add 3 1 2) (limited 2) with
      | .next t => decide (t.params.maxCycles = some 2 ∧ t.globalClk < 2)
      | .fault _ => false
      | .refused _ => false) = true ∧ programmed.params.maxCycles = none := by decide
theorem witness_ShardBoundary : base.params.maxCycles = none ∧ (limited 1).globalClk < 1 ∧
    (base.nextIsDelayslot = false ∧ ({ base with shardOracle := [true] } : State).shardOracle.head? = some true) ∧
    ({ base with clk := 0xFFFFFFFF } : State).params.shardSize ≤ 0xFFFFFFFF + base.params.maxSyscallCycles ∧
    ¬ base.params.shardSize ≤ base.clk + base.params.maxSyscallCycles := by decide
theorem witness_BranchAndDelaySlotShareShard :
    (match run 0x10000001 { base with shardOracle := [true] } with
      | .next t => t.nextIsDelayslot
      | .fault _ => false
      | .refused _ => false) = true := by decide
theorem witness_RegisterZero : completes (exec (.addiu 0 0 5) base) = true ∧ base.regs[0] = 0 := by decide
theorem witness_ReadAccessRecord : (36 : Nat) ≠ 32 ∧ Position.a ≠ Position.memory := by decide
theorem witness_WriteAccessRecord : validKey 0 ∧ validKey 33 ∧ validKey 36 ∧ validKey 0xFFFFFFFC ∧ (33 : Nat) ≠ 36 ∧
    Position.c ≠ Position.b := by decide
theorem witness_PositionTable : base.mode = .trace ∧ completes (exec (.jalr 0 1) base) = true ∧
    completes (exec (.mult 1 2) base) = true ∧ completes (exec (.syscall 0) served) = true ∧
    (Instr.mult 1 2).positions.hi = .write ∧
    base.timestamp .hi = base.timestamp .hi := by decide
theorem witness_EventsMatchCycles : completes (step programmed) = true ∧ programmed.done = false ∧
    programmed.mode = .trace ∧ ({ programmed with mode := .simple } : State).mode ≠ .trace := by decide

/-- The default launch with another program base. -/
def launchAt (pcBase : Word) : Launch := { Launch.default with pcBase := pcBase }

theorem witness_LaunchState : (launchAt 2).premise = false ∧ (launchAt 0).premise = false ∧
    ({ Launch.default with image := [(0, 1)] } : Launch).premise = false ∧
    ({ launchAt 0xFFFFFFFC with program := [.word 0, .word 0] } : Launch).premise = false ∧
    ({ launchAt 0xFFFFFFFC with program := [.word 0] } : Launch).premise = true ∧ validKey 0 ∧ validKey 36 := by decide
theorem witness_InvariantAtLaunch : completes (launch { Launch.default with image := [(4, 7), (36, 9)] }) = true := by decide
theorem reset_inv : Inv State.reset :=
  { memory := State.reset_wf, zero := by decide, touchedSorted := List.Pairwise.nil, touchedKeys := by simp [State.reset]
    localSorted := List.Pairwise.nil, localTouched := by simp [State.reset], localFinal := by simp [State.reset]
    exitCode := rfl }

/-- A state in mid-shard: register 1 has been read, and a word stored. -/
def midShard : State :=
  { programmed with
    mem := [(36, 5)]
    touched := [(1, { seed := 0, shard := 1, timestamp := 2 }), (36, { seed := 5, shard := 0, timestamp := 0 })]
    localAccess := [(1, { initial := { value := 0, shard := 0, timestamp := 0 }
                          final := { value := 0x00500000, shard := 1, timestamp := 2 } })] }

theorem witness_StepKeepsInvariant : Inv midShard ∧ completes (step midShard) = true :=
  ⟨{ memory := by decide, zero := by decide, touchedSorted := by decide, touchedKeys := by decide
     localSorted := by decide, localTouched := by decide, localFinal := by decide, exitCode := by decide }, by decide⟩
theorem witness_ProgramIsImmutable : completes (step programmed) = true ∧ programmed.done = false := by decide
theorem witness_OnlyMultiplicativeWritesHiLo : (Instr.sw 2 1 0).writesHiLo = false ∧
    base.params.lowAddressPolicy = .fault ∧ completes (exec (.sw 2 1 0) base) = true ∧
    completes (exec (.syscall 0) served) = true := by decide
theorem witness_OnlyStoresChangeMemory : (Instr.lw 2 1 0).isSyscall = false ∧ (Instr.lw 2 1 0).isStore = false ∧
    completes (exec (.lw 2 1 0) base) = true := by decide
theorem witness_RecordingIsInvisible :
    programmed.arch = ({ programmed with clk := 40, mode := .simple, currentShard := 9, localMem := 3 } : State).arch := by
  decide

end Sys2Proof.Tests
end

section
/-! SUPPORT. The invariant `Inv` of Safety: it holds at reset and at every launch, and every step keeps it. An access keeps
it because the record it notes is the one its cell then holds, and no other cell of the store changes. -/

namespace Sys2Proof.Machine

/-! ### Sorted maps and records -/

/-- An entry after a `put` is the new one or an old one at another key. -/
theorem Assoc.mem_put_cases {α : Type} {m : List (Nat × α)} (hs : Assoc.sorted m) {k : Nat} {v : α} {e : Nat × α}
    (he : e ∈ Assoc.put m k v) : e = (k, v) ∨ (e ∈ m ∧ e.1 ≠ k) := by
  have hget := Assoc.get_of_mem (Assoc.sorted_put hs k v) he
  rw [Assoc.get_put] at hget
  split at hget
  · next hk => exact .inl (Prod.ext hk (Option.some.inj hget).symm)
  · next hk => exact .inr ⟨Assoc.mem_of_get hget, hk⟩

/-- A cell's record reads from its stamp and its value only. -/
theorem State.record_congr {s t : State} {k : Nat} (ht : t.touched = s.touched) (hc : t.cell k = s.cell k) :
    t.record k = s.record k := by
  simp only [State.record, ht, hc]

@[simp] theorem State.record_value (s : State) (k : Nat) : (s.record k).value = s.cell k := by
  unfold State.record
  split <;> rfl

/-- The noted cell holds its value under the stamp of the new record. -/
theorem State.record_note_same (s : State) (h : Bool) (k : Nat) (old new : MemoryRecord) :
    (s.note h k old new).record k = { new with value := s.cell k } := by
  simp only [State.record, State.note_cell]
  simp [State.note]

theorem State.record_note_other (s : State) (h : Bool) {k j : Nat} (old new : MemoryRecord) (hj : j ≠ k) :
    (s.note h k old new).record j = s.record j := by
  simp only [State.record, State.note_cell]
  simp [State.note, hj]

/-! ### The invariant through an access -/

/-- `t` is `s` but for the value of the store's cell at `k`; its memory stays canonical and register 0 stays 0. -/
structure ChangesCell (k : Nat) (s t : State) : Prop where
  memory : Memory.wf s.mem → Memory.wf t.mem
  zero : s.regs[0] = 0 → t.regs[0] = 0
  cells : ∀ j, validKey j → j ≠ k → t.cell j = s.cell j
  touched : t.touched = s.touched
  localAccess : t.localAccess = s.localAccess
  currentShard : t.currentShard = s.currentShard
  exitCode : t.exitCode = s.exitCode

theorem ChangesCell.refl (k : Nat) (s : State) : ChangesCell k s s :=
  ⟨id, id, fun _ _ _ => rfl, rfl, rfl, rfl, rfl⟩

theorem ChangesCell.setCell {k : Nat} (hk : validKey k) (s : State) (v : Word) : ChangesCell k s (s.setCell k v) where
  memory h := wf_setData h hk v
  zero h := setReg_zero s.regs k v h
  cells _ hj hne := State.cell_setCell_other s v hk hj hne
  touched := rfl
  localAccess := rfl
  currentShard := rfl
  exitCode := rfl

/-- An access that changes at most the cell at `k` and notes the record this cell then holds keeps the invariant. -/
theorem Inv.note {s t : State} (hs : Inv s) {k : Nat} (hk : validKey k) (ht : ChangesCell k s t) (h : Bool)
    (old : MemoryRecord) {new : MemoryRecord} (hv : new.value = t.cell k) (hsh : new.shard = t.currentShard) :
    Inv (t.note h k old new) where
  memory := ht.memory hs.memory
  zero := ht.zero hs.zero
  touchedSorted := Assoc.sorted_put (ht.touched ▸ hs.touchedSorted) k _
  touchedKeys e he := by
    rcases Assoc.mem_put he with rfl | he
    · exact hk
    · exact hs.touchedKeys e (ht.touched ▸ he)
  localSorted := Assoc.sorted_put (ht.localAccess ▸ hs.localSorted) k _
  localTouched e he := by
    show (Assoc.get (Assoc.put t.touched k _) e.1).isSome = true
    rw [Assoc.get_put]
    split
    · rfl
    · next hne =>
      have hmem := (Assoc.mem_put he).resolve_left fun heq => hne (congrArg Prod.fst heq)
      exact ht.touched ▸ hs.localTouched e (ht.localAccess ▸ hmem)
  localFinal e he := by
    rcases Assoc.mem_put_cases (ht.localAccess ▸ hs.localSorted) he with rfl | ⟨hmem, hne⟩
    · exact ⟨by rw [State.record_note_same, ← hv], hsh⟩
    · have hmem : e ∈ s.localAccess := ht.localAccess ▸ hmem
      obtain ⟨v, hget⟩ := Option.isSome_iff_exists.1 (hs.localTouched e hmem)
      have hkey : validKey e.1 := hs.touchedKeys _ (Assoc.mem_of_get hget)
      obtain ⟨hfinal, hshard⟩ := hs.localFinal e hmem
      rw [State.record_note_other _ _ _ _ hne, State.record_congr ht.touched (ht.cells _ hkey hne)]
      exact ⟨hfinal, hshard.trans ht.currentShard.symm⟩
  exitCode := ht.exitCode.trans hs.exitCode

/-- The invariant speaks of the store, its records, the shard and the exit code only. -/
theorem Inv.congr {s t : State} (hs : Inv s) (hr : t.regs = s.regs) (hm : t.mem = s.mem) (ht : t.touched = s.touched)
    (hl : t.localAccess = s.localAccess) (hc : t.currentShard = s.currentShard) (he : t.exitCode = 0) : Inv t where
  memory := hm ▸ hs.memory
  zero := hr ▸ hs.zero
  touchedSorted := ht ▸ hs.touchedSorted
  touchedKeys := ht ▸ hs.touchedKeys
  localSorted := hl ▸ hs.localSorted
  localTouched := by rw [hl, ht]; exact hs.localTouched
  localFinal e h := by
    rw [hc, State.record_congr ht (State.cell_congr hr hm e.1)]
    exact hs.localFinal e (hl ▸ h)
  exitCode := he

theorem Inv.withDraws {s : State} (hs : Inv s) (n : Nat) : Inv { s with draws := n } :=
  hs.congr rfl rfl rfl rfl rfl hs.exitCode

theorem Inv.retire {x : Cycle} (hx : Inv x.st) (q : Retire) : Inv (x.retire q) :=
  hx.congr rfl rfl rfl rfl rfl hx.exitCode

/-- The invariant of a state whose shard has recorded no access yet. -/
theorem Inv.of_no_access {s : State} (hm : Memory.wf s.mem) (hz : s.regs[0] = 0) (hs : Assoc.sorted s.touched)
    (hk : ∀ e ∈ s.touched, validKey e.1) (hl : s.localAccess = []) (he : s.exitCode = 0) : Inv s where
  memory := hm
  zero := hz
  touchedSorted := hs
  touchedKeys := hk
  localSorted := by simp [hl]
  localTouched := by simp [hl]
  localFinal := by simp [hl]
  exitCode := he

/-! ### The invariant through a cycle -/

/-- Every cycle an instruction passes through keeps the invariant. -/
theorem Reaches.inv {s : State} {x : Cycle} (hx : Reaches s x) (hs : Inv s) : Inv x.st := by
  induction hx with
  | start => exact hs
  | @read x p k _ hk ih => exact ih.note hk (.refl k _) _ _ (x.st.record_value k) rfl
  | @write x p k v _ hk ih =>
    exact ih.note hk (.setCell hk _ v) _ _ (State.cell_setCell_same x.st k v).symm rfl
  | @hostRead x k _ hk ih =>
    refine (ih.note hk (.refl _ _) true _ ?_ ?_).withDraws _
    · exact x.st.record_value k.toNat
    · rfl
  | @hostWrite x e _ hk ih =>
    exact (ih.note hk (.setCell hk _ e.2) true _ (State.cell_setCell_same x.st e.1.toNat e.2).symm rfl).withDraws _
  | port answers exited code _ hc ih =>
    exact ih.congr rfl rfl rfl rfl rfl (hc.elim id fun h => h.trans ih.exitCode)

theorem Inv.shardCheck {s : State} (hs : Inv s) : Inv s.shardCheck := by
  unfold State.shardCheck
  dsimp only
  split
  · exact .of_no_access hs.memory hs.zero hs.touchedSorted hs.touchedKeys rfl hs.exitCode
  · exact hs.congr rfl rfl rfl rfl rfl hs.exitCode

/-- Settles O56: by induction over the accesses of the cycle, then through its end and the shard check. -/
theorem stepKeepsInvariant : Obligations.StepKeepsInvariant := by
  intro s t hs h
  rcases step_cases h with ⟨-, rfl⟩ | ⟨-, u, x, q, hx, rfl, -, -, -, rfl⟩
  · exact hs
  · exact ((hx.inv hs).retire q).shardCheck

/-! ### The invariant at the start -/

/-- A launch that is accepted answers the launch state, and no nonzero image value stands at key 0 (70_reset R440). -/
theorem launch_next {l : Launch} {s : State} (h : launch l = .next s) : s = l.state ∧ l.imageWord 0 = 0 := by
  unfold launch at h
  split at h
  · next hp =>
    cases h
    exact ⟨rfl, (of_decide_eq_true hp).2.2.2⟩
  · exact nomatch h

/-- Settles O55: nothing is touched at the start, the image is canonical memory, and its word at key 0 is 0. -/
theorem invariantAtLaunch : Obligations.InvariantAtLaunch := by
  refine ⟨.of_no_access State.reset_wf (by decide) .nil (fun _ h => nomatch h) rfl rfl, fun l s h => ?_⟩
  obtain ⟨rfl, hzero⟩ := launch_next h
  refine .of_no_access (wf_imageMemory l.image) ?_ .nil (fun _ h => nomatch h) rfl rfl
  simpa [Launch.state] using hzero

/-! ### Register 0 -/

/-- The slot of a write's position holds its write record, with the stored value. -/
theorem Cycle.write_at_same (x : Cycle) (pos : Position) (k : Nat) (v : Word) :
    ∃ r : WriteRecord, (x.write pos k v).acc.at pos = some (.write r) ∧ r.value = storedValue k v := by
  cases pos <;> exact ⟨_, rfl, rfl⟩

/-- No access makes the entry of register 0 anything but 0. -/
theorem Reaches.regs_zero {s : State} {x : Cycle} (hx : Reaches s x) (hs : s.regs[0] = 0) : x.st.regs[0] = 0 := by
  induction hx with
  | start => exact hs
  | read _ _ _ ih => exact ih
  | write p v _ _ ih => exact setReg_zero _ _ v ih
  | hostRead _ _ _ ih => exact ih
  | hostWrite e _ _ ih => exact setReg_zero _ _ e.2 ih
  | port _ _ _ _ _ ih => exact ih

/-- Settles O48: a write stores 0 at key 0, and whatever completes is a sequence of accesses. -/
theorem registerZero : Obligations.RegisterZero := by
  refine ⟨State.cell_zero, fun x pos v => ?_, fun i s t h hs => ?_⟩
  · obtain ⟨r, hacc, hval⟩ := x.write_at_same pos 0 v
    exact ⟨r, hacc, hval, by rw [Cycle.write_regs, setReg_get _ _ _ _ (by decide)]; rfl⟩
  · obtain ⟨x, q, hx, rfl, -⟩ := exec_completes i s t h
    exact hx.regs_zero hs

end Sys2Proof.Machine
end

section
/-! SUPPORT. Noninterference (10_state R48, R49; 70_reset R467): `State.arch` of a next state is a function of `State.arch`
of the state before. Each shape of instruction, each form and record, the fetch and the end of the cycle read the
architectural part only. -/

namespace Sys2Proof.Machine

/-! ### The architectural part after an update -/

/-- What setting the cell at `k` does to the architectural part. -/
def Arch.setCell (a : Arch) (k : Nat) (v : Word) : Arch :=
  { a with regs := setReg a.regs k v, mem := setData a.mem k v }

/-- What the end of a cycle does to the architectural part: neither the opcode, the operands nor the extra cycles count. -/
def Arch.advance (a : Arch) (nnpc : Word) (jump : Option (Word × Word)) : Arch :=
  { a with
    pc := (jump.map Prod.fst).getD a.npc
    npc := (jump.map Prod.snd).getD nnpc
    globalClk := a.globalClk + 1 }

@[simp] theorem Cycle.read_arch (x : Cycle) (p : Position) (k : Nat) : (x.read p k).st.arch = x.st.arch := rfl
@[simp] theorem Cycle.readSrc_arch (x : Cycle) (p : Position) (o : Src) : (x.readSrc p o).st.arch = x.st.arch := by
  cases o <;> rfl
@[simp] theorem Cycle.write_arch (x : Cycle) (p : Position) (k : Nat) (v : Word) :
    (x.write p k v).st.arch = x.st.arch.setCell k v := rfl
@[simp] theorem Cycle.link_arch (x : Cycle) (a : Nat) :
    (x.link a).st.arch = if a = 0 then x.st.arch else x.st.arch.setCell a (x.st.npc + 4) := by
  unfold Cycle.link
  split <;> rfl
@[simp] theorem Cycle.hostRead_arch (x : Cycle) (k : Word) : (x.hostRead k).st.arch = x.st.arch := rfl
@[simp] theorem Cycle.hostWrite_arch (x : Cycle) (e : Word × Word) :
    (x.hostWrite e).st.arch = x.st.arch.setCell e.1.toNat e.2 := rfl
@[simp] theorem Cycle.retire_arch (x : Cycle) (r : Retire) : (x.retire r).arch = x.st.arch.advance r.nnpc r.jump := rfl
@[simp] theorem State.shardCheck_arch (s : State) : s.shardCheck.arch = s.arch := by
  unfold State.shardCheck
  dsimp only
  split <;> rfl

/-! ### What the architectural part determines -/

section
variable {s s' : State} (h : s.arch = s'.arch)
include h

theorem cell_of_arch (k : Nat) : s.cell k = s'.cell k :=
  State.cell_congr (congrArg Arch.regs h) (congrArg Arch.mem h) k

theorem src_of_arch (o : Src) : s.src o = s'.src o := by
  cases o with
  | reg k => exact cell_of_arch h k
  | imm v => rfl

theorem pc_of_arch : s.pc = s'.pc := congrArg Arch.pc h
theorem npc_of_arch : s.npc = s'.npc := congrArg Arch.npc h

theorem effectiveAddress_of_arch (base : Nat) (off : Word) :
    s.effectiveAddress base off = s'.effectiveAddress base off := by
  simp only [State.effectiveAddress, cell_of_arch h]

theorem lowAddressFaults_of_arch (ea : Word) : s.lowAddressFaults ea = s'.lowAddressFaults ea := by
  have hp : s.params.lowAddressPolicy = s'.params.lowAddressPolicy := congrArg Arch.lowAddressPolicy h
  simp only [State.lowAddressFaults, hp]

theorem hostAnswer_of_arch (code arg1 : Word) : s.hostAnswer code arg1 = s'.hostAnswer code arg1 := by
  have hc : s.params.syscallCodes = s'.params.syscallCodes := congrArg Arch.syscallCodes h
  have ha : s.hostAnswers = s'.hostAnswers := congrArg Arch.hostAnswers h
  simp only [State.hostAnswer, hc, ha]

theorem program_of_arch : s.program = s'.program := congrArg Arch.program h
theorem pcBase_of_arch : s.pcBase = s'.pcBase := congrArg Arch.pcBase h

theorem done_of_arch : s.done = s'.done := by
  have he : s.exited = s'.exited := congrArg Arch.exited h
  refine decide_eq_decide.2 ?_
  rw [pc_of_arch h, he, pcBase_of_arch h, State.programEnd, pcBase_of_arch h, program_of_arch h, State.programEnd]

theorem fetch_of_arch : s.fetch = s'.fetch := by
  simp only [State.fetch, done_of_arch h, pc_of_arch h, pcBase_of_arch h, program_of_arch h]

end

/-! ### Outcomes that agree -/

theorem SameOutcome.refl (r : Result) : SameOutcome r r := by
  cases r with
  | next s => exact rfl
  | fault e =>
    cases e with
    | exceededCycleLimit m s => exact ⟨rfl, rfl⟩
    | _ => exact rfl
  | refused e => exact rfl

/-- The function answers states of one architectural part by outcomes of one architectural part. -/
def Invisible (f : State → Result) : Prop := ∀ s s' : State, s.arch = s'.arch → SameOutcome (f s) (f s')

theorem invisible_const (r : Result) : Invisible fun _ => r := fun _ _ _ => .refl r

theorem invisible_ite {p : State → Prop} [DecidablePred p] {f g : State → Result}
    (hp : ∀ s s' : State, s.arch = s'.arch → (p s ↔ p s')) (hf : Invisible f) (hg : Invisible g) :
    Invisible fun s => if p s then f s else g s := fun s s' h => by
  simp only [hp s s' h]
  split
  · exact hf s s' h
  · exact hg s s' h

theorem SameOutcome.andThen {r r' : Result} (hr : SameOutcome r r') {f : State → Result} (hf : Invisible f) :
    SameOutcome (andThen r f) (andThen r' f) := by
  cases r with
  | next s =>
    cases r' with
    | next s' => exact hf s s' hr
    | fault _ | refused _ => exact hr.elim
  | fault e =>
    cases r' with
    | fault e' => exact hr
    | next _ | refused _ => exact hr.elim
  | refused e =>
    cases r' with
    | refused e' => exact hr
    | next _ | fault _ => exact hr.elim

/-! ### The shapes of instruction -/

theorem invisible_computeOld (op : Opcode) (f : Word → Word → Word → Word) (a : Nat) (b c : Src) :
    Invisible (computeOld op f a b c) := fun s s' h => by
  show State.arch _ = State.arch _
  simp [h, cell_of_arch h, src_of_arch h, npc_of_arch h]

theorem invisible_compute (op : Opcode) (f : Word → Word → Word) (a : Nat) (b c : Src) :
    Invisible (compute op f a b c) :=
  invisible_computeOld op (fun x y _ => f x y) a b c

theorem invisible_computeHiLo (op : Opcode) (f : Word → Word → Word → Word → Word × Word) (b c : Nat) :
    Invisible (computeHiLo op f b c) := fun s s' h => by
  show State.arch _ = State.arch _
  simp [h, cell_of_arch h, npc_of_arch h]

theorem invisible_load (op : Opcode) (f : Word → Word → Word → Word) (rt base : Nat) (off : Word) :
    Invisible (load op f rt base off) := fun s s' h => by
  simp only [load, effectiveAddress_of_arch h, lowAddressFaults_of_arch h]
  split
  · exact .refl _
  · show State.arch _ = State.arch _
    simp [h, cell_of_arch h, npc_of_arch h]

theorem invisible_store (op : Opcode) (f : Word → Word → Word → Word) (rt base : Nat) (off : Word) :
    Invisible (store op f rt base off) := fun s s' h => by
  simp only [store, effectiveAddress_of_arch h, lowAddressFaults_of_arch h]
  split
  · exact .refl _
  · show State.arch _ = State.arch _
    simp [h, cell_of_arch h, npc_of_arch h]

theorem invisible_storeConditional (rt base : Nat) (off : Word) :
    Invisible (storeConditional rt base off) := fun s s' h => by
  simp only [storeConditional, effectiveAddress_of_arch h, lowAddressFaults_of_arch h]
  split
  · exact .refl _
  · show State.arch _ = State.arch _
    simp [h, cell_of_arch h, npc_of_arch h]

theorem invisible_branch (op : Opcode) (cond : Word → Word → Bool) (a b : Nat) (off : Word) :
    Invisible (branch op cond a b off) := fun s s' h => by
  show State.arch _ = State.arch _
  simp [h, cell_of_arch h, npc_of_arch h]

theorem invisible_jumpTo (op : Opcode) (a : Nat) (b : Src) (c : Word) {target : State → Word}
    (ht : ∀ s s' : State, s.arch = s'.arch → target s = target s') :
    Invisible fun s => jumpTo op a b c (target s) s := fun s s' h => by
  show State.arch _ = State.arch _
  simp [h, src_of_arch h, npc_of_arch h, ht s s' h]

/-- A jump to the address in a register (44_jump R343, R344). -/
theorem invisible_jumpRegister (op : Opcode) (a k : Nat) (c : Word) :
    Invisible fun s => jumpTo op a (.reg k) c (s.cell k) s :=
  invisible_jumpTo op a (.reg k) c fun _ _ h => cell_of_arch h k

/-- A jump relative to `npc` (44_jump R345). -/
theorem invisible_jumpRelative (op : Opcode) (a : Nat) (b c : Word) :
    Invisible fun s => jumpTo op a (.imm b) c (s.npc + b) s :=
  invisible_jumpTo op a (.imm b) c fun _ _ h => congrArg (· + b) (npc_of_arch h)

theorem invisible_jumpImmediate (a : Nat) (b c : Word) : Invisible (jumpImmediate a b c) := by
  refine invisible_ite (fun s s' h => ?_) (invisible_const _) (invisible_jumpTo .jumpi a (.imm b) c fun s s' h => ?_)
  · have hp : s.params.jumpiHighSegment = s'.params.jumpiHighSegment := congrArg Arch.jumpiHighSegment h
    rw [npc_of_arch h, hp]
  · rw [npc_of_arch h]

theorem invisible_extractBits (a b : Nat) (c : Word) : Invisible (extractBits a b c) :=
  invisible_ite (fun _ _ _ => Iff.rfl) (invisible_const _) (invisible_compute .ext extractField a (.reg b) (.imm c))

theorem invisible_insertBits (a b : Nat) (c : Word) : Invisible (insertBits a b c) :=
  invisible_ite (fun _ _ _ => Iff.rfl) (invisible_const _) (invisible_computeOld .ins insertField a (.reg b) (.imm c))

theorem invisible_trapIfEqual (a b : Nat) (c : Word) : Invisible (trapIfEqual a b c) := fun s s' h => by
  simp only [trapIfEqual, cell_of_arch h, pc_of_arch h]
  split
  · exact .refl _
  · show State.arch _ = State.arch _
    simp [h, npc_of_arch h]

/-- An outcome that MTHI and MTLO have only where they are admitted. -/
theorem invisible_admitted {f g : State → Result} (hf : Invisible f) (hg : Invisible g) :
    Invisible fun s => if s.params.admitMthiMtlo then f s else g s :=
  invisible_ite (fun _ _ h => Bool.eq_iff_iff.1 (congrArg Arch.admitMthiMtlo h)) hf hg

/-! ### The syscall port -/

theorem hostAccess_arch {x x' : Cycle} (h : x.st.arch = x'.st.arch) (e : HostAccess) :
    (x.hostAccess e).st.arch = (x'.hostAccess e).st.arch := by
  cases e with
  | read k => simpa only [Cycle.hostAccess, Cycle.hostRead_arch] using h
  | write k v => simp only [Cycle.hostAccess, Cycle.hostWrite_arch, h]

theorem hostAccesses_arch (l : List HostAccess) {x x' : Cycle} (h : x.st.arch = x'.st.arch) :
    (l.foldl Cycle.hostAccess x).st.arch = (l.foldl Cycle.hostAccess x').st.arch := by
  induction l generalizing x x' with
  | nil => exact h
  | cons e l ih => exact ih (hostAccess_arch h e)

/-- What the port's part of a response does to the architectural part. -/
def Arch.answer (a : Arch) (resp : Response) (rest : List (Word × Response)) : Arch :=
  { a with
    hostAnswers := rest
    exited := a.exited || resp.halt.isSome
    exitCode := resp.halt.getD a.exitCode }

/-- The cycle of a SYSCALL up to the end of the handler's accesses. -/
def handlerCycle (resp : Response) (s : State) : Cycle :=
  resp.accesses.foldl Cycle.hostAccess ((s.begin.read .c 5).read .b 4)

theorem applyResponse_arch (code : Word) (resp : Response) (rest : List (Word × Response)) (s : State) :
    (applyResponse code resp rest s).arch =
      (((handlerCycle resp s).st.arch.setCell 2 (resp.ret.getD code)).answer resp rest).advance (s.npc + 4) resp.jump :=
  rfl

theorem invisible_systemCall : Invisible systemCall := fun s s' h => by
  have hm : s.params.maxSyscallCycles = s'.params.maxSyscallCycles := congrArg Arch.maxSyscallCycles h
  simp only [systemCall, cell_of_arch h, hostAnswer_of_arch h, hm]
  split
  · exact .refl _
  · next resp rest _ =>
    split
    · exact .refl _
    · split_ifs
      · exact .refl _
      · exact .refl _
      · exact .refl _
      · exact .refl _
      · show State.arch _ = State.arch _
        have hx : (handlerCycle resp s).st.arch = (handlerCycle resp s').st.arch := hostAccesses_arch resp.accesses h
        rw [applyResponse_arch, applyResponse_arch, hx, npc_of_arch h]

/-! ### The forms and the records -/

/-- Every form of the table reads the architectural part only: each is one of the shapes. -/
theorem invisible_exec (i : Instr) : Invisible (exec i) := by
  intro s s' h
  cases i with
  | add | addu | sub | subu | and | or | xor | slt | sltu | addi | addiu | slti | sltiu | andi | ori | xori | lui
  | sll | srl | rotr | sra | sllv | srlv | rotrv | srav | mfhi | mflo | sync | pref | synci | mul
  | seb | seh => exact invisible_compute _ _ _ _ _ s s' h
  | nor | clz | clo | wsbh =>
    simp only [exec_nor, exec_clz, exec_clo, exec_wsbh]
    exact invisible_compute _ _ _ _ _ s s' h
  | mthi | mtlo => exact invisible_admitted (invisible_compute _ _ _ _ _) (invisible_const _) s s' h
  | mult | multu | div | divu | madd | maddu | msub | msubu =>
    simp only [exec_mult, exec_multu, exec_div, exec_divu, exec_madd, exec_maddu, exec_msub, exec_msubu]
    exact invisible_computeHiLo _ _ _ _ s s' h
  | lb | lh | lwl | lw | lbu | lhu | lwr | ll =>
    simp only [exec_lb, exec_lh, exec_lwl, exec_lw, exec_lbu, exec_lhu, exec_lwr, exec_ll]
    exact invisible_load _ _ _ _ _ s s' h
  | sb | sh | swl | sw | swr =>
    simp only [exec_sb, exec_sh, exec_swl, exec_sw, exec_swr]
    exact invisible_store _ _ _ _ _ s s' h
  | sc => exact invisible_storeConditional _ _ _ s s' h
  | beq | bne | blez | bgtz | bltz | bgez => exact invisible_branch _ _ _ _ _ s s' h
  | j | jal => exact invisible_jumpImmediate _ _ _ s s' h
  | jr | jalr => exact invisible_jumpRegister _ _ _ _ s s' h
  | bal => exact invisible_jumpRelative _ _ _ _ s s' h
  | movz | movn => exact invisible_computeOld _ _ _ _ _ s s' h
  | ext => exact invisible_extractBits _ _ _ s s' h
  | ins => exact invisible_insertBits _ _ _ s s' h
  | teq => exact invisible_trapIfEqual _ _ _ s s' h
  | syscall => exact invisible_systemCall s s' h
  | brk => exact invisible_const _ s s' h

/-- Every decoded record reads the architectural part only. -/
theorem invisible_execRecord (r : Record) : Invisible (execRecord r) := by
  refine invisible_ite (fun _ _ _ => Iff.rfl) (invisible_const _) ?_
  cases r.opcode with
  | add | sub | and | or | xor | nor | slt | sltu | sll | srl | sra | ror | clz | clo | mul | mod | modu
  | sext | wsbh => exact invisible_compute _ _ _ _ _
  | mult | multu | div | divu | madd | maddu | msub | msubu => exact invisible_computeHiLo _ _ _ _
  | mthi | mtlo => exact invisible_admitted (invisible_compute _ _ _ _ _) (invisible_const _)
  | lb | lbu | lh | lhu | lw | lwl | lwr | ll => exact invisible_load _ _ _ _ _
  | sb | sh | sw | swl | swr => exact invisible_store _ _ _ _ _
  | sc => exact invisible_storeConditional _ _ _
  | beq | bne | blez | bgtz | bltz | bgez => exact invisible_branch _ _ _ _ _
  | jump => exact invisible_jumpRegister _ _ _ _
  | jumpi => exact invisible_jumpImmediate _ _ _
  | jumpDirect => exact invisible_jumpRelative _ _ _ _
  | meq | mne => exact invisible_computeOld _ _ _ _ _
  | ext => exact invisible_extractBits _ _ _
  | ins => exact invisible_insertBits _ _ _
  | teq => exact invisible_trapIfEqual _ _ _
  | syscall => exact invisible_systemCall
  | brk | unimpl => exact invisible_const _

/-! ### The cycle -/

theorem invisible_execSlot (x : Slot) : Invisible (execSlot x) := by
  cases x with
  | record r => exact invisible_execRecord r
  | word w =>
    intro s s' h
    simp only [execSlot]
    split
    · exact invisible_exec _ s s' h
    · exact .refl _

/-- The cycle limit reads `global_clk`; the shard check, which reads the records, changes no architectural value. -/
theorem invisible_closeCycle : Invisible closeCycle := fun s s' h => by
  have hm : s.params.maxCycles = s'.params.maxCycles := congrArg Arch.maxCycles h
  have hg : s.globalClk = s'.globalClk := congrArg Arch.globalClk h
  have hnext : SameOutcome (.next s.shardCheck) (.next s'.shardCheck) := by
    show State.arch _ = State.arch _
    rw [State.shardCheck_arch, State.shardCheck_arch, h]
  simp only [closeCycle, hm, hg]
  split
  · split
    · exact ⟨rfl, h⟩
    · exact hnext
  · exact hnext

/-- Settles O60: fetch, execution and the end of the cycle each read the architectural part only. -/
theorem recordingIsInvisible : Obligations.RecordingIsInvisible := by
  intro s s' h
  simp only [step, runCycle, fetch_of_arch h]
  split
  · exact h
  · exact .refl _
  · next x _ => exact (invisible_execSlot x s s' h).andThen invisible_closeCycle

end Sys2Proof.Machine
end

section
/-! SUPPORT. The cycle around the instruction (10_state R50 to R58): what no access changes, the end of a cycle, fetch, the
cycle limit and the shard check, and the statements about pc, clocks, done states, limit and boundaries. -/

namespace Sys2Proof.Machine

/-! ### What no access of a cycle changes -/

/-- Everything but the store, its records, the syscall port and the exit state. -/
structure SameControl (s t : State) : Prop where
  params : t.params = s.params
  program : t.program = s.program
  pcBase : t.pcBase = s.pcBase
  pc : t.pc = s.pc
  npc : t.npc = s.npc
  clk : t.clk = s.clk
  globalClk : t.globalClk = s.globalClk
  currentShard : t.currentShard = s.currentShard
  mode : t.mode = s.mode

theorem SameControl.refl (s : State) : SameControl s s := by constructor <;> rfl

theorem SameControl.trans {s t u : State} (h : SameControl s t) (h' : SameControl t u) : SameControl s u where
  params := h'.params.trans h.params
  program := h'.program.trans h.program
  pcBase := h'.pcBase.trans h.pcBase
  pc := h'.pc.trans h.pc
  npc := h'.npc.trans h.npc
  clk := h'.clk.trans h.clk
  globalClk := h'.globalClk.trans h.globalClk
  currentShard := h'.currentShard.trans h.currentShard
  mode := h'.mode.trans h.mode

/-- No access, a handler's among them, changes the control state. -/
theorem Reaches.sameControl {s : State} {x : Cycle} (hx : Reaches s x) : SameControl s x.st := by
  induction hx with
  | start => exact .refl s
  | read _ _ _ ih => exact ih.trans (by constructor <;> rfl)
  | write _ _ _ _ ih => exact ih.trans (by constructor <;> rfl)
  | hostRead _ _ _ ih => exact ih.trans (by constructor <;> rfl)
  | hostWrite _ _ _ ih => exact ih.trans (by constructor <;> rfl)
  | port _ _ _ _ _ ih => exact ih.trans (by constructor <;> rfl)

/-! ### The opcode of a form -/

theorem isTransfer_record (i : Instr) : isTransfer (i.record true).opcode = i.isTransfer := by cases i <;> rfl

theorem opcode_ne_syscall {i : Instr} (h : i.isSyscall = false) : (i.record true).opcode ≠ .syscall := by
  cases i with
  | syscall code => exact nomatch h
  | _ => exact fun hop => nomatch hop

/-- Settles O32: the cycle an instruction reaches leaves the control state, and its end moves it. -/
theorem pcAndClockAdvance : Obligations.PcAndClockAdvance := by
  intro i s t h
  obtain ⟨x, q, hx, rfl, hop, -, -, hq⟩ := exec_completes i s t h
  have hc := hx.sameControl
  have hdelay : isTransfer q.op = i.isTransfer := by rw [hop, isTransfer_record]
  refine ⟨hdelay, congrArg (· + 1) hc.globalClk, fun hi => ?_⟩
  obtain ⟨hjump, hextra, hnnpc⟩ := hq (opcode_ne_syscall hi)
  refine ⟨?_, ?_, fun ht => ?_⟩
  · rw [Cycle.retire_pc, hjump]; exact hc.npc
  · rw [Cycle.retire_clk, hextra, hc.clk]; exact BitVec.add_zero _
  · rw [Cycle.retire_npc, hjump]; exact hnnpc (by rw [isTransfer_record, ht])

/-! ### Fetch and step -/

section
variable {s : State}

theorem done_iff : s.done = true ↔ s.pc = 0 ∨ s.exited = true ∨ s.pc.toNat < s.pcBase.toNat ∨
    s.pcBase.toNat + 4 * s.program.length ≤ s.pc.toNat :=
  decide_eq_true_iff

/-- Where a state that is not done fetches, the program has a place. -/
theorem place_lt (hd : s.done = false) : (s.pc.toNat - s.pcBase.toNat) / 4 < s.program.length := by
  have hd : ¬ s.done = true := by simp [hd]
  rw [done_iff] at hd
  omega

theorem fetch_done (hd : s.done = true) : s.fetch = .done := if_pos hd

theorem fetch_misaligned (hd : s.done = false) (h4 : (s.pc.toNat - s.pcBase.toNat) % 4 ≠ 0) : s.fetch = .misaligned := by
  simp [State.fetch, hd, h4]

theorem fetch_slot (hd : s.done = false) (h4 : (s.pc.toNat - s.pcBase.toNat) % 4 = 0) {x : Slot}
    (hx : s.program[(s.pc.toNat - s.pcBase.toNat) / 4]? = some x) : s.fetch = .slot x := by
  simp [State.fetch, hd, h4, hx]

theorem step_of_slot {x : Slot} (h : s.fetch = .slot x) : step s = andThen (execSlot x s) closeCycle := by
  simp only [step, runCycle, h]

theorem execSlot_word {w : Word} {i : Instr} (h : decode w = .instr i) : execSlot (.word w) s = exec i s := by
  simp only [execSlot, h]

end

/-- Settles O44: fetch by its cases; the bounds of a state that is not done give the place. -/
theorem doneAndMisalignedFetch : Obligations.DoneAndMisalignedFetch := by
  intro s
  refine ⟨done_iff, fun hd => ?_, fun hd h4 => ?_, fun hd h4 => ?_⟩
  · simp only [step, runCycle, fetch_done hd]
  · simp only [step, runCycle, fetch_misaligned hd h4, refuse]
  · have hx := List.getElem?_eq_getElem (place_lt hd)
    exact ⟨_, fetch_slot hd h4 hx, hx⟩

/-- Settles O43: the fetched place is executed, and `closeCycle` follows where that gives a next state. -/
theorem stepRunsDecodedInstruction : Obligations.StepRunsDecodedInstruction := by
  intro s hd h4
  refine ⟨fun w i hw hi => ?_, fun r hr => ?_⟩
  · rw [step_of_slot (fetch_slot hd h4 hw), execSlot_word hi]
    cases exec i s <;> rfl
  · rw [step_of_slot (fetch_slot hd h4 hr)]
    show andThen (execRecord r s) closeCycle = _
    cases execRecord r s <;> rfl

/-! ### The cycle limit -/

theorem closeCycle_limit {t : State} {m : BitVec 64} (hm : t.params.maxCycles = some m) (h : m ≤ t.globalClk) :
    closeCycle t = .fault (.exceededCycleLimit m t) := by
  simp only [closeCycle, hm, if_pos h, raise]

/-- Below the limit the cycle ends with the shard check. -/
theorem closeCycle_next {t : State}
    (h : t.params.maxCycles = none ∨ ∃ m, t.params.maxCycles = some m ∧ t.globalClk < m) :
    closeCycle t = .next t.shardCheck := by
  rcases h with hm | ⟨m, hm, hlt⟩
  · simp only [closeCycle, hm]
  · simp only [closeCycle, hm, if_neg (BitVec.not_le.2 hlt)]

/-- Settles O45: the step of a completed word is `closeCycle` of the state after it. -/
theorem cycleLimit : Obligations.CycleLimit := by
  intro s t _ w i hf hi ht
  have hstep : step s = closeCycle t := by rw [step_of_slot hf, execSlot_word hi, ht, andThen_next]
  exact ⟨fun m hm h => hstep.trans (closeCycle_limit hm h), fun h => ⟨_, hstep.trans (closeCycle_next h)⟩⟩

/-! ### The shard check -/

theorem boundaryDue_iff (t : State) : t.boundaryDue = true ↔ t.nextIsDelayslot = false ∧
    (t.params.shardSize ≤ t.clk + t.params.maxSyscallCycles ∨ t.shardOracle.head? = some true) := by
  have horacle : t.shardOracle.headD false = true ↔ t.shardOracle.head? = some true := by
    cases t.shardOracle <;> simp
  rw [← horacle]
  simp [State.boundaryDue]

theorem shardCheck_of_due {t : State} (h : t.boundaryDue = true) :
    t.shardCheck = { t.boundary with shardOracle := t.shardOracle.tail } := by
  simp only [State.shardCheck, if_pos h]

theorem shardCheck_of_not_due {t : State} (h : ¬ t.boundaryDue = true) :
    t.shardCheck = { t with shardOracle := t.shardOracle.tail } := by
  simp only [State.shardCheck, if_neg h]

/-- Settles O46: the shard check by whether a boundary is due; no part of it touches the store. -/
theorem shardBoundary : Obligations.ShardBoundary := by
  intro t hlimit
  refine ⟨t.shardCheck, closeCycle_next hlimit, fun j _ => t.shardCheck_cell j, fun a => by rw [t.shardCheck_mem],
    t.shardCheck_pc, t.shardCheck_npc, t.shardCheck_globalClk, t.shardCheck_touched, t.shardCheck_shardOracle, ?_⟩
  split
  · next hdue =>
    rw [shardCheck_of_due ((boundaryDue_iff t).2 hdue)]
    exact ⟨rfl, rfl, rfl, rfl, rfl, rfl⟩
  · next hdue =>
    rw [shardCheck_of_not_due fun h => hdue ((boundaryDue_iff t).1 h)]
    exact ⟨rfl, rfl, rfl, rfl, rfl, rfl⟩

/-- Before a delay slot the shard check keeps the shard (43_branch R329). -/
theorem shardCheck_currentShard {t : State} (h : t.nextIsDelayslot = true) :
    t.shardCheck.currentShard = t.currentShard := by
  rw [shardCheck_of_not_due]
  rw [boundaryDue_iff, h]
  exact fun hdue => nomatch hdue.1

/-- Settles O47: no access moves the shard, and the shard check keeps it where a delay slot is pending. -/
theorem branchAndDelaySlotShareShard : Obligations.BranchAndDelaySlotShareShard := by
  intro s t h hdelay
  rcases step_cases h with ⟨-, rfl⟩ | ⟨-, u, x, q, hx, rfl, -, -, -, rfl⟩
  · rfl
  · rw [State.shardCheck_nextIsDelayslot] at hdelay
    exact (shardCheck_currentShard hdelay).trans hx.sameControl.currentShard

/-- Settles O57: neither an access, the end of the cycle nor a boundary changes what is fetched or configured. -/
theorem programIsImmutable : Obligations.ProgramIsImmutable := by
  intro s t h
  rcases step_cases h with ⟨hd, rfl⟩ | ⟨-, u, x, q, hx, rfl, -, -, -, rfl⟩
  · exact ⟨rfl, rfl, rfl, rfl, fun hnd => nomatch hnd.symm.trans hd⟩
  · have hc := hx.sameControl
    simp [hc.program, hc.pcBase, hc.params, hc.mode, hc.globalClk]

end Sys2Proof.Machine
end

section
/-! SUPPORT. Which instructions change HI and LO, memory and the exit state (10_state R32, R43; 20_memory R78): one frame
per shape of instruction, from the laws of the shapes, and the frame of every form. -/

namespace Sys2Proof.Machine

/-- What a completed instruction that is no SYSCALL leaves: LO and HI where it is none of their writers (`hiLo`) and the
policy keeps stores from register cells, memory where it is no store, the exit state and the port always. -/
structure Frame (hiLo store : Bool) (s t : State) : Prop where
  hiLo : hiLo = false → s.params.lowAddressPolicy = .fault → t.cell 32 = s.cell 32 ∧ t.cell 33 = s.cell 33
  memory : store = false → SameMemory s t
  exited : t.exited = s.exited
  exitCode : t.exitCode = s.exitCode
  hostAnswers : t.hostAnswers = s.hostAnswers

/-- An outcome that, where it is a next state, has the frame. -/
def Framed (hiLo store : Bool) (s : State) (r : Result) : Prop := ∀ t, r = .next t → Frame hiLo store s t

theorem framed_raise (hiLo store : Bool) (s : State) (e : Fault) : Framed hiLo store s (raise e) :=
  fun _ h => nomatch h

theorem framed_refuse (hiLo store : Bool) (s : State) (e : Refusal) : Framed hiLo store s (refuse e) :=
  fun _ h => nomatch h

/-- The frame of an outcome whose law gives the state it completes with. -/
theorem framed_of_next {s : State} {r : Result} {target : Word} {delay : Bool} {P : State → Prop} {hiLo : Bool}
    (hr : ∃ t, r = .next t ∧ P t ∧ SameMemory s t ∧ Advances s t target delay)
    (hP : ∀ t, P t → hiLo = false → t.cell 32 = s.cell 32 ∧ t.cell 33 = s.cell 33) : Framed hiLo false s r := by
  intro t h
  obtain ⟨t', ht', hp, hm, ha⟩ := hr
  cases h.symm.trans ht'
  exact ⟨fun hf _ => hP t hp hf, fun _ => hm, ha.exited, ha.exitCode, ha.hostAnswers⟩

/-- A write to a general register leaves LO and HI. -/
theorem OnlyRegister.hiLo {s t : State} {k : Nat} {v : Word} (h : OnlyRegister s t k v) (hk : k < 32) :
    t.cell 32 = s.cell 32 ∧ t.cell 33 = s.cell 33 :=
  ⟨(h 32 (by decide)).trans (if_neg (by omega)), (h 33 (by decide)).trans (if_neg (by omega))⟩

/-! ### The shapes -/

section
variable {s : State}

theorem framed_computeOld {op : Opcode} (hop : isTransfer op = false) (f : Word → Word → Word → Word) (a : Reg)
    (b c : Src) : Framed false false s (computeOld op f a b c s) :=
  framed_of_next (computeOld_next op f (reg_key a) b c s hop) fun _ h _ => h.hiLo a.isLt

theorem framed_compute {op : Opcode} (hop : isTransfer op = false) (f : Word → Word → Word) (a : Reg) (b c : Src) :
    Framed false false s (compute op f a b c s) :=
  framed_computeOld hop (fun x y _ => f x y) a b c

/-- MTHI and MTLO: a write to HI or LO. -/
theorem framed_computeSpecial {op : Opcode} (hop : isTransfer op = false) (f : Word → Word → Word) {a : Nat}
    (ha : a < 34) (b c : Src) : Framed true false s (compute op f a b c s) :=
  framed_of_next (compute_next op f ha b c s hop) fun _ _ h => nomatch h

theorem framed_computeHiLo {op : Opcode} (hop : isTransfer op = false)
    (f : Word → Word → Word → Word → Word × Word) (b c : Nat) : Framed true false s (computeHiLo op f b c s) :=
  framed_of_next (computeHiLo_next op f b c s hop) fun _ _ h => nomatch h

theorem framed_load {op : Opcode} (hop : isTransfer op = false) (f : Word → Word → Word → Word) (rt : Reg) (base : Nat)
    (off : Word) : Framed false false s (load op f rt base off s) := by
  cases hf : s.lowAddressFaults (s.effectiveAddress base off) with
  | true => rw [load_fault op f rt base off s hf]; exact framed_raise _ _ _ _
  | false => exact framed_of_next (load_next op f (reg_key rt) base off s hop hf) fun _ h _ => h.hiLo rt.isLt

/-- Under the policy `fault` an access that does not fault is to a data word (20_memory R73). -/
theorem data_of_not_lowAddressFaults {ea : Word} (h : s.lowAddressFaults ea = false)
    (hp : s.params.lowAddressPolicy = .fault) : 36 ≤ wordKey ea := by
  have hkey := wordKey_eq ea
  have hlow : ¬ (wordKey ea ≤ 32 ∧ s.params.lowAddressPolicy = .fault) := by
    rw [← lowAddressFaults_iff, h]
    decide
  have : ¬ wordKey ea ≤ 32 := fun hle => hlow ⟨hle, hp⟩
  omega

/-- Setting a data word changes no register. -/
theorem State.cell_setCell_data (s : State) {k j : Nat} (v : Word) (hk : 36 ≤ k) (hj : j < 34) :
    (s.setCell k v).cell j = s.cell j := by
  rw [State.cell_setCell_reg s k v hj, if_neg (by omega)]

theorem framed_store (op : Opcode) (f : Word → Word → Word → Word) (rt base : Nat) (off : Word) :
    Framed false true s (store op f rt base off s) := by
  unfold store
  dsimp only
  split
  · exact framed_raise _ _ _ _
  · next hf =>
    intro t h
    cases h
    refine ⟨fun _ hp => ?_, nofun, by simp, by simp, by simp⟩
    have hk := data_of_not_lowAddressFaults (Bool.eq_false_iff.2 hf) hp
    constructor <;> simp [State.cell_setCell_data _ _ hk]

theorem framed_storeConditional (rt : Reg) (base : Nat) (off : Word) :
    Framed false true s (storeConditional rt base off s) := by
  unfold storeConditional
  dsimp only
  split
  · exact framed_raise _ _ _ _
  · next hf =>
    intro t h
    cases h
    refine ⟨fun _ hp => ?_, nofun, by simp, by simp, by simp⟩
    have hk := data_of_not_lowAddressFaults (Bool.eq_false_iff.2 hf) hp
    have h32 : 32 ≠ rt.val := by omega
    have h33 : 33 ≠ rt.val := by omega
    constructor <;> simp [State.cell_setCell_reg, State.cell_setCell_data _ _ hk, h32, h33]

theorem framed_branch {op : Opcode} (hop : isTransfer op = true) (cond : Word → Word → Bool) (a b : Nat) (off : Word) :
    Framed false false s (branch op cond a b off s) :=
  framed_of_next (branch_next op cond a b off s hop) fun _ h _ => ⟨h 32 (by decide), h 33 (by decide)⟩

theorem framed_jumpTo {op : Opcode} (hop : isTransfer op = true) (a : Reg) (b : Src) (c target : Word) :
    Framed false false s (jumpTo op a b c target s) :=
  framed_of_next (jumpTo_next op (reg_key a) b c target s hop) fun _ h _ => h.hiLo a.isLt

theorem framed_jumpImmediate (a : Reg) (b c : Word) : Framed false false s (jumpImmediate a b c s) := by
  unfold jumpImmediate
  split
  · exact framed_refuse _ _ _ _
  · exact framed_jumpTo rfl a _ _ _

theorem framed_extractBits (a : Reg) (b : Nat) (c : Word) : Framed false false s (extractBits a b c s) := by
  unfold extractBits
  split
  · exact framed_refuse _ _ _ _
  · exact framed_compute rfl _ a _ _

theorem framed_insertBits (a : Reg) (b : Nat) (c : Word) : Framed false false s (insertBits a b c s) := by
  unfold insertBits
  split
  · exact framed_refuse _ _ _ _
  · exact framed_computeOld rfl _ a _ _

theorem framed_trapIfEqual (a b : Nat) (c : Word) : Framed false false s (trapIfEqual a b c s) := by
  unfold trapIfEqual
  split
  · exact framed_raise _ _ _ _
  · intro t h
    cases h
    exact ⟨fun _ _ => ⟨rfl, rfl⟩, fun _ _ => rfl, rfl, rfl, rfl⟩

/-- Where MTHI and MTLO are not admitted they fault. -/
theorem framed_admitted {p : Bool} {r : Result} {e : Fault} (h : Framed true false s r) :
    Framed true false s (if p then r else raise e) := by
  split
  · exact h
  · exact framed_raise _ _ _ _

end

/-! ### The forms -/

/-- Every form but SYSCALL has the frame its group gives it. -/
theorem exec_framed (i : Instr) (hi : i.isSyscall = false) (s : State) :
    Framed i.writesHiLo i.isStore s (exec i s) := by
  cases i with
  | add | addu | sub | subu | and | or | xor | slt | sltu | addi | addiu | slti | sltiu | andi | ori | xori | lui
  | sll | srl | rotr | sra | sllv | srlv | rotrv | srav | mfhi | mflo | mul | seb | seh =>
    exact framed_compute rfl _ _ _ _
  | nor | clz | clo | wsbh =>
    simp only [exec_nor, exec_clz, exec_clo, exec_wsbh]
    exact framed_compute rfl _ _ _ _
  | sync | pref | synci => exact framed_compute rfl _ (0 : Reg) _ _
  | mthi | mtlo => exact framed_admitted (framed_computeSpecial rfl _ (by decide) _ _)
  | mult | multu | div | divu | madd | maddu | msub | msubu =>
    simp only [exec_mult, exec_multu, exec_div, exec_divu, exec_madd, exec_maddu, exec_msub, exec_msubu]
    exact framed_computeHiLo rfl _ _ _
  | lb | lh | lwl | lw | lbu | lhu | lwr | ll =>
    simp only [exec_lb, exec_lh, exec_lwl, exec_lw, exec_lbu, exec_lhu, exec_lwr, exec_ll]
    exact framed_load rfl _ _ _ _
  | sb | sh | swl | sw | swr =>
    simp only [exec_sb, exec_sh, exec_swl, exec_sw, exec_swr]
    exact framed_store _ _ _ _ _
  | sc => exact framed_storeConditional _ _ _
  | beq | bne | blez | bgtz | bltz | bgez => exact framed_branch rfl _ _ _ _
  | j => exact framed_jumpImmediate (0 : Reg) _ _
  | jal => exact framed_jumpImmediate (31 : Reg) _ _
  | jr => exact framed_jumpTo rfl (0 : Reg) _ _ _
  | jalr => exact framed_jumpTo rfl _ _ _ _
  | bal => exact framed_jumpTo rfl (31 : Reg) _ _ _
  | movz | movn => exact framed_computeOld rfl _ _ _ _
  | ext => exact framed_extractBits _ _ _
  | ins => exact framed_insertBits _ _ _
  | teq => exact framed_trapIfEqual _ _ _
  | syscall code => exact nomatch hi
  | brk => exact framed_raise _ _ _ _

/-- Settles O59: SYSCALL apart, every form has its group's frame. -/
theorem onlyStoresChangeMemory : Obligations.OnlyStoresChangeMemory := by
  intro i s t hi h
  obtain ⟨-, hmem, hexited, hcode, hanswers⟩ := exec_framed i hi s t h
  exact ⟨hmem, hexited, hcode, hanswers⟩

/-! ### SYSCALL -/

/-- A SYSCALL completes by applying an answer of the port that neither faults nor is refused (46_system R380, R381). -/
theorem systemCall_next {s t : State} (h : systemCall s = .next t) :
    ∃ resp rest, s.hostAnswer (s.cell 2) (s.cell 4) = some (resp, rest) ∧ resp.fault = none ∧
      resp.writesData = true ∧ resp.readsCells = true ∧ resp.extra.toNat ≤ s.params.maxSyscallCycles.toNat ∧
      resp.halt.getD 0 = 0 ∧ t = applyResponse (s.cell 2) resp rest s := by
  unfold systemCall at h
  dsimp only at h
  split at h
  · exact nomatch h
  · next resp rest hanswer =>
    split at h
    · exact nomatch h
    · next hfault =>
      split_ifs at h with hwrites hreads hextra hhalt
      · exact nomatch h
      · exact nomatch h
      · exact nomatch h
      · exact nomatch h
      · cases h
        exact ⟨resp, rest, hanswer, hfault, by simpa using hwrites, by simpa using hreads, Nat.not_lt.1 hextra,
          not_not.1 hhalt, rfl⟩

/-- A handler writes data words only, and the answer goes to V0. -/
theorem applyResponse_reg (code : Word) {resp : Response} (hw : resp.writesData = true)
    (rest : List (Word × Response)) (s : State) {j : Nat} (hj : j < 34) (h2 : j ≠ 2) :
    (applyResponse code resp rest s).cell j = s.cell j := by
  have hdata : ∀ e ∈ resp.writes, 36 ≤ e.1.toNat := fun e he =>
    (of_decide_eq_true (List.all_eq_true.1 hw e he)).2
  have hregs := hostAccesses_regs resp ((s.begin.read .c 5).read .b 4) hdata
  show ((handlerCycle resp s).st.setCell 2 _).cell j = _
  rw [State.cell_setCell_reg _ _ _ hj, if_neg h2, handlerCycle]
  simp only [State.cell, dif_pos hj, hregs, Cycle.read_regs, State.begin_st]

/-- Settles O58: the forms by their groups' frames, SYSCALL because its answer goes to V0 and its handler writes data. -/
theorem onlyMultiplicativeWritesHiLo : Obligations.OnlyMultiplicativeWritesHiLo := by
  intro i s t hw hp h
  by_cases hi : i.isSyscall = true
  · cases i with
    | syscall code =>
      obtain ⟨resp, rest, -, -, hdata, -, -, -, rfl⟩ := systemCall_next h
      exact ⟨applyResponse_reg _ hdata rest s (by decide) (by decide),
        applyResponse_reg _ hdata rest s (by decide) (by decide)⟩
    | _ => exact nomatch hi
  · exact (exec_framed i (Bool.eq_false_iff.2 hi) s t h).hiLo hw hp

end Sys2Proof.Machine
end

section
/-! SUPPORT. The bytes of a word: of the word a key of memory reads, of shifted and masked words, and of the words the
stores merge (20_memory R71; 42_loadstore R291 to R295). Bytes are numbered 0 to 3, byte 0 the least significant. -/

namespace Sys2Proof.Machine

/-! ### Memory words -/

theorem getLsbD_byteOf (v : Word) (i j : Nat) : (byteOf v i).getLsbD j = (decide (j < 8) && v.getLsbD (8 * i + j)) :=
  BitVec.getLsbD_extractLsb' ..

/-- The bytes of four joined bytes. -/
theorem byteOf_append (b3 b2 b1 b0 : Byte) :
    byteOf (b3 ++ b2 ++ b1 ++ b0) 0 = b0 ∧ byteOf (b3 ++ b2 ++ b1 ++ b0) 1 = b1 ∧
    byteOf (b3 ++ b2 ++ b1 ++ b0) 2 = b2 ∧ byteOf (b3 ++ b2 ++ b1 ++ b0) 3 = b3 := by
  refine ⟨?_, ?_, ?_, ?_⟩ <;>
  · ext j hj
    rw [← BitVec.getLsbD_eq_getElem, ← BitVec.getLsbD_eq_getElem, getLsbD_byteOf]
    simp only [BitVec.getLsbD_append, hj, decide_true, Bool.true_and]
    grind

theorem Memory.byteOf_word (m : List Host.Cell) (k : Nat) {i : Nat} (hi : i < 4) :
    byteOf (Memory.word m k) i = Memory.byte m (k + i) := by
  obtain ⟨h0, h1, h2, h3⟩ := byteOf_append (Memory.byte m (k + 3)) (Memory.byte m (k + 2)) (Memory.byte m (k + 1))
    (Memory.byte m k)
  interval_cases i
  · exact h0
  · exact h1
  · exact h2
  · exact h3

/-- Two neighbouring bytes, joined, are the sixteen bits they stand in. -/
theorem byteOf_append_byteOf (v : Word) (h : Nat) :
    (byteOf v (2 * h + 1) ++ byteOf v (2 * h) : BitVec 16) = v.extractLsb' (16 * h) 16 := by
  ext j hj
  rw [← BitVec.getLsbD_eq_getElem, ← BitVec.getLsbD_eq_getElem]
  simp only [BitVec.getLsbD_append, getLsbD_byteOf, BitVec.getLsbD_extractLsb', hj, decide_true, Bool.true_and]
  split
  · next hlow => rw [decide_eq_true hlow, Bool.true_and]; congr 1; omega
  · next hhigh => rw [decide_eq_true (by omega), Bool.true_and]; congr 1; omega

theorem State.cell_of_le (s : State) {wa : Nat} (h : 34 ≤ wa) : s.cell wa = Memory.word s.mem wa :=
  dif_neg (Nat.not_lt.2 h)

/-- Settles O20: a data word is its four bytes joined, so a byte of it is one byte of memory and a halfword two. -/
theorem wordsAreLittleEndian : Obligations.WordsAreLittleEndian := by
  intro s wa hwa
  rw [s.cell_of_le hwa]
  have hbyte (k : Nat) (hk : k < 4) := Memory.byteOf_word s.mem wa hk
  refine ⟨fun k hk => (hbyte k hk).symm, fun h hh => ?_⟩
  rw [← byteOf_append_byteOf, hbyte (2 * h) (by omega), hbyte (2 * h + 1) (by omega)]
  rfl

/-! ### Shifts and masks by whole bytes -/

section
variable (v w : Word) (i o : Nat)

@[simp] theorem byteOf_or : byteOf (v ||| w) i = byteOf v i ||| byteOf w i := BitVec.extractLsb'_or
@[simp] theorem byteOf_and : byteOf (v &&& w) i = byteOf v i &&& byteOf w i := BitVec.extractLsb'_and

theorem byteOf_not (hi : i < 4) : byteOf (~~~v) i = ~~~byteOf v i := by
  ext j hj
  have hbit : 8 * i + j < 32 := by omega
  simp [byteOf, hbit]

theorem byteOf_shiftLeft (hi : i < 4) : byteOf (v <<< (8 * o)) i = if o ≤ i then byteOf v (i - o) else 0 := by
  ext j hj
  have hbit : 8 * i + j < 32 := by omega
  split
  · next h =>
    have hge : ¬ 8 * i + j < 8 * o := by omega
    have hsub : 8 * i + j - 8 * o = 8 * (i - o) + j := by omega
    simp only [byteOf, BitVec.getElem_extractLsb', BitVec.getLsbD_shiftLeft, hbit, hge, hsub, decide_true, decide_false,
      Bool.not_false, Bool.true_and]
  · next h =>
    have hlt : 8 * i + j < 8 * o := by omega
    simp [byteOf, hlt]

theorem byteOf_shiftRight : byteOf (v >>> (8 * o)) i = byteOf v (i + o) := by
  ext j hj
  simp only [byteOf, BitVec.getElem_extractLsb', BitVec.getLsbD_ushiftRight]
  congr 1
  omega

theorem byteOf_of_le (hi : 4 ≤ i) : byteOf v i = 0 := by
  ext j hj
  rw [← BitVec.getLsbD_eq_getElem, getLsbD_byteOf, BitVec.getLsbD_of_ge v _ (by omega)]
  simp

end

/-- `BitVec.and_allOnes` in the form `simp` gives the mask of a whole byte. -/
@[simp] theorem and_byteOnes (b : Byte) : b &&& 0xFF#8 = b := BitVec.and_allOnes

theorem byteOf_ones {i : Nat} (hi : i < 4) : byteOf 0xFFFFFFFF#32 i = 0xFF#8 := by
  revert i; decide

theorem byteOf_byteMask {i : Nat} (hi : i < 4) : byteOf 0xFF#32 i = if i = 0 then 0xFF#8 else 0 := by
  revert i; decide

theorem byteOf_halfMask {i : Nat} (hi : i < 4) : byteOf 0xFFFF#32 i = if i < 2 then 0xFF#8 else 0 := by
  revert i; decide

/-- The mask of the `o` low bytes. -/
theorem byteOf_lowMask {i o : Nat} (hi : i < 4) (ho : o < 4) :
    byteOf ((1#32 <<< (8 * o)) - 1) i = if i < o then 0xFF#8 else 0 := by
  have hall : ∀ i < 4, ∀ o < 4, byteOf ((1#32 <<< (8 * o)) - 1) i = if i < o then 0xFF#8 else 0 := by decide
  exact hall i hi o ho

/-! ### The merged words of the stores -/

theorem byteOffset_eq (ea : Word) : byteOffset ea = ea.toNat % 4 := by
  simp [byteOffset, BitVec.extractLsb'_toNat]

theorem halfOffset_eq (ea : Word) : halfOffset ea = ea.toNat / 2 % 2 := by
  simp [halfOffset, BitVec.extractLsb'_toNat, Nat.shiftRight_eq_div_pow]

section
variable (m v ea : Word) {i : Nat}

/-- SB puts the low byte at the address (R291). -/
theorem byteOf_mergeByte (hi : i < 4) :
    byteOf (mergeByte m v ea) i = if i = ea.toNat % 4 then byteOf v 0 else byteOf m i := by
  simp only [mergeByte, byteOffset_eq, byteOf_or, byteOf_and, byteOf_not _ _ hi, byteOf_shiftLeft _ _ _ hi]
  by_cases hle : ea.toNat % 4 ≤ i
  · simp only [if_pos hle, byteOf_byteMask (show i - ea.toNat % 4 < 4 by omega)]
    by_cases heq : i = ea.toNat % 4
    · simp [← heq]
    · simp [heq, show i - ea.toNat % 4 ≠ 0 by omega]
  · simp [hle, show i ≠ ea.toNat % 4 by omega]

/-- SH puts the low halfword at the address, its lowest bit ignored (R292). -/
theorem byteOf_mergeHalf (hi : i < 4) :
    byteOf (mergeHalf m v ea) i = if i / 2 = ea.toNat % 4 / 2 then byteOf v (i % 2) else byteOf m i := by
  have hshift : 16 * halfOffset ea = 8 * (2 * (ea.toNat % 4 / 2)) := by rw [halfOffset_eq]; omega
  simp only [mergeHalf, hshift, byteOf_or, byteOf_and, byteOf_not _ _ hi, byteOf_shiftLeft _ _ _ hi]
  generalize ea.toNat % 4 / 2 = h
  by_cases hle : 2 * h ≤ i
  · simp only [if_pos hle, byteOf_halfMask (show i - 2 * h < 4 by omega)]
    by_cases heq : i / 2 = h
    · rw [show i - 2 * h = i % 2 by omega]
      simp [heq, show i % 2 < 2 by omega]
    · simp [heq, show ¬ i - 2 * h < 2 by omega]
  · simp [hle, show i / 2 ≠ h by omega]

/-- SWL puts the high bytes below and at the address (R294). -/
theorem byteOf_mergeStoreLeft (hi : i < 4) :
    byteOf (mergeStoreLeft m v ea) i = if i ≤ ea.toNat % 4 then byteOf v (3 - ea.toNat % 4 + i) else byteOf m i := by
  simp only [mergeStoreLeft, byteOffset_eq, byteOf_or, byteOf_and, byteOf_not _ _ hi, byteOf_shiftRight]
  by_cases hle : i ≤ ea.toNat % 4
  · simp [hle, byteOf_ones (show i + (3 - ea.toNat % 4) < 4 by omega), Nat.add_comm]
  · simp [hle, byteOf_of_le _ (i + (3 - ea.toNat % 4)) (by omega)]

/-- SWR puts the low bytes at and above the address (R295). -/
theorem byteOf_mergeStoreRight (hi : i < 4) :
    byteOf (mergeStoreRight m v ea) i = if ea.toNat % 4 ≤ i then byteOf v (i - ea.toNat % 4) else byteOf m i := by
  have ho : ea.toNat % 4 < 4 := Nat.mod_lt _ (by decide)
  simp only [mergeStoreRight, byteOffset_eq, byteOf_or, byteOf_and, byteOf_shiftLeft _ _ _ hi, byteOf_lowMask hi ho]
  by_cases hle : ea.toNat % 4 ≤ i
  · simp [hle, Nat.not_lt.2 hle]
  · simp [hle, Nat.lt_of_not_le hle]

end

end Sys2Proof.Machine
end

section
/-! SUPPORT. Loads and stores to register cells (20_memory R73): under `LOW_ADDRESS_POLICY = fault` every form faults, with aliasing a
store writes the register its key names. -/

namespace Sys2Proof.Machine

section
variable {s : State} {ea : Word}

theorem lowAddressFaults_of_fault (hp : s.params.lowAddressPolicy = .fault) (hk : wordKey ea ≤ 32) :
    s.lowAddressFaults ea = true :=
  (lowAddressFaults_iff s ea).2 ⟨hk, hp⟩

theorem lowAddressFaults_of_aliased (hp : s.params.lowAddressPolicy = .aliased) : s.lowAddressFaults ea = false := by
  simp [State.lowAddressFaults, hp]

end

/-- SC faults under the low-address policy (42_loadstore R280). -/
theorem storeConditional_fault (rt base : Nat) (off : Word) (s : State)
    (h : s.lowAddressFaults (s.effectiveAddress base off) = true) :
    storeConditional rt base off s = .fault (.invalidMemoryAccess .sc (s.effectiveAddress base off)) := by
  simp [storeConditional, h, raise]

/-- Settles O27: each form is one of the three shapes, and each shape faults under the policy. -/
theorem lowAddressesFault : Obligations.LowAddressesFault := by
  intro rt base off s hp hk
  have hf : s.lowAddressFaults (s.effectiveAddress base (sext16 off)) = true := lowAddressFaults_of_fault hp hk
  simp only [exec_lb, exec_lbu, exec_lh, exec_lhu, exec_lw, exec_lwl, exec_lwr, exec_ll, exec_sb, exec_sh, exec_sw,
    exec_swl, exec_swr, exec_sc]
  have hload (op f) := load_fault op f rt base (sext16 off) s hf
  have hstore (op f) := store_fault op f rt base (sext16 off) s hf
  exact ⟨hload .lb _, hload .lbu _, hload .lh _, hload .lhu _, hload .lw _, hload .lwl _, hload .lwr _, hload .ll _,
    hstore .sb _, hstore .sh _, hstore .sw _, hstore .swl _, hstore .swr _, storeConditional_fault rt base _ s hf⟩

/-- SC admitted to a register cell writes the word to that register, then 1 to `rt` (20_memory R73, 42_loadstore R296). -/
theorem storeConditional_aliased {rt : Nat} (hrt : rt < 34) (base : Nat) (off : Word) (s : State)
    (h : s.lowAddressFaults (s.effectiveAddress base off) = false) (hk : wordKey (s.effectiveAddress base off) ≤ 32) :
    ∃ t, storeConditional rt base off s = .next t ∧ SameMemory s t ∧ Advances s t (s.npc + 4) false ∧
      ∀ j, j < 34 → t.cell j =
        if j = rt then storedValue rt 1
        else if j = wordKey (s.effectiveAddress base off) then storedValue (wordKey (s.effectiveAddress base off)) (s.cell rt)
        else s.cell j := by
  simp only [storeConditional, h]
  refine ⟨_, rfl, fun a => ?_, ?_, fun j hj => ?_⟩
  · simp [hrt, show wordKey (s.effectiveAddress base off) < 34 by omega]
  · constructor <;> simp [isTransfer]
  · rw [Cycle.retire_cell, Cycle.write_cell, State.cell_setCell_reg _ _ _ hj, Cycle.write_cell,
      State.cell_setCell_reg _ _ _ hj]
    rfl

/-- Settles O28: a store to a register cell writes the merged word there; its bytes are those of the merge. -/
theorem lowStoresAliasRegisters : Obligations.LowStoresAliasRegisters := by
  intro rt base off s hp hk
  have hf : s.lowAddressFaults (s.effectiveAddress base (sext16 off)) = false := lowAddressFaults_of_aliased hp
  simp only [exec_sb, exec_sh, exec_sw, exec_swl, exec_swr, exec_sc]
  have hstore (op f) (hop : isTransfer op = false) := store_alias op f rt base (sext16 off) s hop hf hk
  exact ⟨hstore .sw _ rfl,
    ⟨_, hstore .sb _ rfl, fun i hi => byteOf_mergeByte _ _ _ hi⟩,
    ⟨_, hstore .sh _ rfl, fun i hi => byteOf_mergeHalf _ _ _ hi⟩,
    ⟨_, hstore .swl _ rfl, fun i hi => byteOf_mergeStoreLeft _ _ _ hi⟩,
    ⟨_, hstore .swr _ rfl, fun i hi => byteOf_mergeStoreRight _ _ _ hi⟩,
    storeConditional_aliased (reg_key rt) base (sext16 off) s hf hk⟩

end Sys2Proof.Machine
end

section
/-! SUPPORT. The record of an access (20_memory R80 to R90): what a read and a write leave of every cell's record, the slot they
fill, and the entry of the local access map. -/

namespace Sys2Proof.Machine

@[simp] theorem Accesses.at_put_same (x : Accesses) (p : Position) (e : Access) : (x.put p e).at p = some e := by
  cases p <;> rfl

@[simp] theorem Accesses.at_put_other (x : Accesses) {p q : Position} (e : Access) (h : q ≠ p) :
    (x.put p e).at q = x.at q := by
  revert h; cases p <;> cases q <;> simp [Accesses.put, Accesses.at]

/-! ### Reads and writes at a position -/

/-- Settles O49: a read notes the cell's own value under this cycle's stamp, and no cell changes. -/
theorem readAccessRecord : Obligations.ReadAccessRecord := by
  intro x pos k
  refine ⟨State.record_note_same .., fun j => x.read_cell pos k j, fun j hj => State.record_note_other _ _ _ _ hj, ?_,
    fun q hq => Accesses.at_put_other _ _ hq⟩
  simp [Cycle.read, State.timestamp]

/-- Settles O50: a write sets the one cell and notes the record it then holds. -/
theorem writeAccessRecord : Obligations.WriteAccessRecord := by
  intro x pos k v hk
  refine ⟨?_, fun j hj hne => ?_, Accesses.at_put_same .., fun q hq => Accesses.at_put_other _ _ hq⟩
  · exact (State.record_note_same ..).trans (by rw [State.cell_setCell_same]; rfl)
  · exact (State.record_note_other _ _ _ _ hne).trans
      (State.record_congr rfl (State.cell_setCell_other x.st v hk hj hne))

/-! ### The local access map -/

/-- Noting an access to a state that differs from `s` in cells only, with the record `s` held and the record its cell then
holds, tracks the access. -/
theorem TracksAccess.note {s u : State} (hl : u.localAccess = s.localAccess) (hm : u.localMem = s.localMem) (h : Bool)
    (k : Nat) {new : MemoryRecord} (hv : new.value = u.cell k) : TracksAccess h k s (u.note h k (s.record k) new) where
  entry := by
    have hfinal : (u.note h k (s.record k) new).record k = new := by rw [State.record_note_same, ← hv]
    rw [hfinal]
    show Assoc.get (Assoc.put u.localAccess k _) k = _
    rw [Assoc.get_put_same, hl]
    cases Assoc.get s.localAccess k <;> rfl
  others j hj := by
    show Assoc.get (Assoc.put u.localAccess k _) j = _
    rw [Assoc.get_put_other _ _ hj, hl]
  counter := by simp [State.note, hl, hm]

theorem TracksAccess.withDraws {h : Bool} {k : Nat} {s t : State} (ht : TracksAccess h k s t) (n : Nat) :
    TracksAccess h k s { t with draws := n } :=
  ⟨ht.entry, ht.others, ht.counter⟩

/-- Settles O51: each kind of access notes the record the cell held and the one it then holds. -/
theorem localAccessMap : Obligations.LocalAccessMap := by
  refine ⟨fun x pos k => ?_, fun x pos k v => ?_, fun x k => ?_, fun x k v => ?_⟩
  · exact .note rfl rfl false k (x.st.record_value k)
  · exact .note (s := x.st) (u := x.st.setCell k v) rfl rfl false k (State.cell_setCell_same x.st k v).symm
  · refine (TracksAccess.note rfl rfl true k.toNat ?_).withDraws _
    exact x.st.record_value k.toNat
  · exact (TracksAccess.note (s := x.st) (u := x.st.setCell k.toNat v) rfl rfl true k.toNat
      (State.cell_setCell_same x.st k.toNat v).symm).withDraws _

end Sys2Proof.Machine
end

section
/-! SUPPORT. The events of a cycle (20_memory R84, R85, R95 to R102): which positions each shape of instruction fills, that
no access emits an event and the end of a cycle emits one of each kind, and that a boundary only moves them. -/

namespace Sys2Proof

/-! ### Timestamps of the positions -/

/-- The offsets in the order of the positions' constructors. -/
def PosOffset.offsets (o : PosOffset) : List (Fin 5) := [o.memory, o.c, o.b, o.a, o.hi]

theorem PosOffset.getElem?_offsets (o : PosOffset) (p : Position) : o.offsets[p.ctorIdx]? = some (o.at p) := by
  cases p <;> rfl

theorem Position.ctorIdx_injective {p q : Position} (h : p.ctorIdx = q.ctorIdx) : p = q := by
  revert h; cases p <;> cases q <;> decide

theorem PosOffset.at_injective (o : PosOffset) : Function.Injective o.at := by
  intro p q h
  have hget : o.offsets[p.ctorIdx]? = o.offsets[q.ctorIdx]? := by
    rw [o.getElem?_offsets, o.getElem?_offsets, h]
  have hlt : p.ctorIdx < o.offsets.length := by cases p <;> exact of_decide_eq_true rfl
  exact Position.ctorIdx_injective ((List.getElem?_inj hlt o.injective).1 hget)

end Sys2Proof

namespace Sys2Proof.Machine

/-- In one cycle different positions have different timestamps (R84). -/
theorem State.timestamp_injective (s : State) : Function.Injective s.timestamp := by
  intro p q h
  have hoff := congrArg BitVec.toNat ((BitVec.add_right_inj s.clk).1 h)
  rw [BitVec.toNat_ofNat, BitVec.toNat_ofNat] at hoff
  exact s.params.posOffset.at_injective (Fin.ext (by omega))

/-! ### What no access emits -/

/-- The events of the current shard and the closed shards' records are unchanged. -/
structure SameEvents (s t : State) : Prop where
  cpuEvents : t.cpuEvents = s.cpuEvents
  familyEvents : t.familyEvents = s.familyEvents
  outgoing : t.outgoing = s.outgoing

/-- No access, a handler's among them, emits an event. -/
theorem Reaches.sameEvents {s : State} {x : Cycle} (hx : Reaches s x) : SameEvents s x.st := by
  induction hx with
  | start => exact ⟨rfl, rfl, rfl⟩
  | read _ _ _ ih => exact ⟨ih.cpuEvents, ih.familyEvents, ih.outgoing⟩
  | write _ _ _ _ ih => exact ⟨ih.cpuEvents, ih.familyEvents, ih.outgoing⟩
  | hostRead _ _ _ ih => exact ⟨ih.cpuEvents, ih.familyEvents, ih.outgoing⟩
  | hostWrite _ _ _ ih => exact ⟨ih.cpuEvents, ih.familyEvents, ih.outgoing⟩
  | port _ _ _ _ _ ih => exact ⟨ih.cpuEvents, ih.familyEvents, ih.outgoing⟩

theorem retire_cpuEvents_trace {x : Cycle} (q : Retire) (h : x.st.mode = .trace) :
    (x.retire q).cpuEvents = x.st.cpuEvents ++ [x.cpuEvent q] :=
  if_pos h

theorem retire_cpuEvents_other {x : Cycle} (q : Retire) (h : x.st.mode ≠ .trace) :
    (x.retire q).cpuEvents = x.st.cpuEvents :=
  if_neg h

theorem retire_familyEvents_trace {x : Cycle} (q : Retire) (h : x.st.mode = .trace) :
    (x.retire q).familyEvents = x.st.familyEvents ++ x.familyEvents q :=
  if_pos h

theorem retire_familyEvents_other {x : Cycle} (q : Retire) (h : x.st.mode ≠ .trace) :
    (x.retire q).familyEvents = x.st.familyEvents :=
  if_neg h

/-! ### How many events there are -/

@[simp] theorem primaryEvents_nil : primaryEvents [] = 0 := rfl

theorem primaryEvents_append (l l' : List FamilyEvent) :
    primaryEvents (l ++ l') = primaryEvents l + primaryEvents l' := by
  simp only [primaryEvents, List.filter_append, List.length_append]

theorem primaryEvents_precompileEvents (p : Params) (code : Word) : primaryEvents (precompileEvents p code) = 0 := by
  unfold precompileEvents
  split <;> rfl

/-- Every opcode that completes has one primary event; a precompile's comes beside it (R102). -/
theorem primaryEvents_familyEvents (x : Cycle) {q : Retire} (hb : q.op ≠ .brk) (hu : q.op ≠ .unimpl) :
    primaryEvents (x.familyEvents q) = 1 := by
  unfold Cycle.familyEvents
  cases hop : q.op with
  | brk => exact absurd hop hb
  | unimpl => exact absurd hop hu
  | syscall =>
    show primaryEvents ([_] ++ precompileEvents _ _) = 1
    rw [primaryEvents_append, primaryEvents_precompileEvents]
    rfl
  | _ => rfl

/-- The shard check moves the shard's events to the closed records or leaves them. -/
theorem State.shardCheck_eventCounts (s : State) :
    s.shardCheck.cpuEventCount = s.cpuEventCount ∧ s.shardCheck.primaryEventCount = s.primaryEventCount := by
  by_cases h : s.boundaryDue = true
  · rw [shardCheck_of_due h]
    simp [State.boundary, State.cpuEventCount, State.primaryEventCount]
  · rw [shardCheck_of_not_due h]
    exact ⟨rfl, rfl⟩

/-- Settles O53: no access emits, the end of the cycle emits one CpuEvent and one primary event, the shard check moves. -/
theorem eventsMatchCycles : Obligations.EventsMatchCycles := by
  intro s t h hd
  rcases step_cases h with ⟨hdone, -⟩ | ⟨-, u, x, q, hx, rfl, hb, hu, -, rfl⟩
  · exact nomatch hd.symm.trans hdone
  have hmode := hx.sameControl.mode
  obtain ⟨hcpu, hfamily, hout⟩ := hx.sameEvents
  obtain ⟨hcpuCount, hprimaryCount⟩ := (x.retire q).shardCheck_eventCounts
  rw [hcpuCount, hprimaryCount, State.cpuEventCount, State.primaryEventCount, Cycle.retire_outgoing]
  refine ⟨fun hm => ?_, fun hm => ?_⟩
  · have hm : x.st.mode = .trace := hmode.trans hm
    rw [retire_cpuEvents_trace q hm, retire_familyEvents_trace q hm, primaryEvents_append,
      primaryEvents_familyEvents x hb hu, hcpu, hfamily, hout]
    exact ⟨by simp [State.cpuEventCount, Nat.add_assoc], rfl⟩
  · have hm : x.st.mode ≠ .trace := hmode ▸ hm
    rw [retire_cpuEvents_other q hm, retire_familyEvents_other q hm, hcpu, hfamily, hout]
    exact ⟨rfl, rfl⟩

/-! ### The positions each shape fills -/

/-- A next state of the outcome ends, in Trace mode, with a CpuEvent whose accesses fill the row `p`. -/
def Fills (p : Positions) (r : Result) : Prop :=
  ∀ t, r = .next t → t.mode = .trace → ∃ e, t.cpuEvents.getLast? = some e ∧ e.accesses.positions = p

theorem fills_raise (p : Positions) (e : Fault) : Fills p (raise e) := fun _ h => nomatch h
theorem fills_refuse (p : Positions) (e : Refusal) : Fills p (refuse e) := fun _ h => nomatch h

theorem fills_next {p : Positions} (x : Cycle) (q : Retire) (h : x.acc.positions = p) : Fills p (.next (x.retire q)) := by
  intro t ht hm
  cases ht
  exact ⟨x.cpuEvent q, by rw [retire_cpuEvents_trace q hm, List.getLast?_concat], h⟩

/-- What reading an operand leaves in its slot: an access only where it is a register (40_alu R200). -/
def srcKind : Src → SlotKind
  | .reg _ => .read
  | .imm _ => .none

/-- The row of the ALU shape. -/
def Positions.operands (b c : Src) : Positions :=
  { c := srcKind c, b := srcKind b, a := .write, hi := .none, memory := .none }

/-- The row of a jump, which links where its destination `a` is not register 0 (44_jump R340). -/
def Positions.jump (a : Nat) (b : Src) : Positions :=
  { c := .none, b := srcKind b, a := if a = 0 then .none else .write, hi := .none, memory := .none }

theorem fills_computeOld (op : Opcode) (f : Word → Word → Word → Word) (a : Nat) (b c : Src) (s : State) :
    Fills (.operands b c) (computeOld op f a b c s) :=
  fills_next _ _ (by cases b <;> cases c <;> rfl)

theorem fills_compute (op : Opcode) (f : Word → Word → Word) (a : Nat) (b c : Src) (s : State) :
    Fills (.operands b c) (compute op f a b c s) :=
  fills_computeOld op (fun x y _ => f x y) a b c s

theorem fills_computeHiLo (op : Opcode) (f : Word → Word → Word → Word → Word × Word) (b c : Nat) (s : State) :
    Fills .hiLo (computeHiLo op f b c s) :=
  fills_next _ _ rfl

theorem fills_load (op : Opcode) (f : Word → Word → Word → Word) (rt base : Nat) (off : Word) (s : State) :
    Fills .load (load op f rt base off s) := by
  unfold load
  dsimp only
  split
  · exact fills_raise _ _
  · exact fills_next _ _ rfl

theorem fills_store (op : Opcode) (f : Word → Word → Word → Word) (rt base : Nat) (off : Word) (s : State) :
    Fills .store (store op f rt base off s) := by
  unfold store
  dsimp only
  split
  · exact fills_raise _ _
  · exact fills_next _ _ rfl

theorem fills_storeConditional (rt base : Nat) (off : Word) (s : State) :
    Fills .storeConditional (storeConditional rt base off s) := by
  unfold storeConditional
  dsimp only
  split
  · exact fills_raise _ _
  · exact fills_next _ _ rfl

theorem fills_branch (op : Opcode) (cond : Word → Word → Bool) (a b : Nat) (off : Word) (s : State) :
    Fills .compare (branch op cond a b off s) :=
  fills_next _ _ rfl

theorem fills_jumpTo (op : Opcode) (a : Nat) (b : Src) (c target : Word) (s : State) :
    Fills (.jump a b) (jumpTo op a b c target s) := by
  refine fills_next _ _ ?_
  unfold Cycle.link Positions.jump
  split <;> cases b <;> rfl

theorem fills_jumpImmediate (a : Nat) (b c : Word) (s : State) :
    Fills (.jump a (.imm b)) (jumpImmediate a b c s) := by
  unfold jumpImmediate
  split
  · exact fills_refuse _ _
  · exact fills_jumpTo _ _ _ _ _ _

theorem fills_extractBits (a b : Nat) (c : Word) (s : State) : Fills .unary (extractBits a b c s) := by
  unfold extractBits
  split
  · exact fills_refuse _ _
  · exact fills_compute _ _ _ (.reg b) (.imm c) _

theorem fills_insertBits (a b : Nat) (c : Word) (s : State) : Fills .unary (insertBits a b c s) := by
  unfold insertBits
  split
  · exact fills_refuse _ _
  · exact fills_computeOld _ _ _ (.reg b) (.imm c) _

theorem fills_trapIfEqual (a b : Nat) (c : Word) (s : State) : Fills .compare (trapIfEqual a b c s) := by
  unfold trapIfEqual
  split
  · exact fills_raise _ _
  · exact fills_next _ _ rfl

/-- MTHI and MTLO fault where they are not admitted. -/
theorem fills_admitted {p : Positions} {admitted : Bool} {r : Result} {e : Fault} (h : Fills p r) :
    Fills p (if admitted then r else raise e) := by
  split
  · exact h
  · exact fills_raise _ _

theorem hostAccesses_acc (l : List HostAccess) (x : Cycle) : (l.foldl Cycle.hostAccess x).acc = x.acc := by
  induction l generalizing x with
  | nil => rfl
  | cons e l ih => exact (ih (x.hostAccess e)).trans (x.hostAccess_acc e)

/-- A handler's accesses stand in no position, so a SYSCALL fills C, B and A (46_system R380). -/
theorem fills_systemCall (s : State) : Fills .alu (systemCall s) := by
  intro t h
  obtain ⟨resp, rest, -, -, -, -, -, -, rfl⟩ := systemCall_next h
  refine fills_next _ _ ?_ _ rfl
  show (Accesses.put (handlerCycle resp s).acc .a _).positions = _
  rw [handlerCycle, hostAccesses_acc]
  rfl

/-! ### The position table -/

theorem positions_jalr (rd rs : Reg) : (Instr.jalr rd rs).positions = .jump rd (.reg rs) := by
  show (if rd = 0 then Positions.source else .unary) = _
  unfold Positions.jump
  by_cases h : rd = 0
  · subst h
    rfl
  · rw [if_neg h, if_neg (Fin.val_ne_zero_iff.2 h)]
    rfl

/-- Every form fills its row of the table: each is one of the shapes. -/
theorem exec_fills (i : Instr) (s : State) : Fills i.positions (exec i s) := by
  cases i with
  | add | addu | sub | subu | and | or | xor | slt | sltu | addi | addiu | slti | sltiu | andi | ori | xori | lui
  | sll | srl | rotr | sra | sllv | srlv | rotrv | srav | mfhi | mflo | mul | seb | seh | sync | pref | synci =>
    exact fills_compute _ _ _ _ _ _
  | nor | clz | clo | wsbh =>
    simp only [exec_nor, exec_clz, exec_clo, exec_wsbh]
    exact fills_compute _ _ _ _ _ _
  | mthi | mtlo => exact fills_admitted (fills_compute _ _ _ _ _ _)
  | mult | multu | div | divu | madd | maddu | msub | msubu =>
    simp only [exec_mult, exec_multu, exec_div, exec_divu, exec_madd, exec_maddu, exec_msub, exec_msubu]
    exact fills_computeHiLo _ _ _ _ _
  | lb | lh | lwl | lw | lbu | lhu | lwr | ll =>
    simp only [exec_lb, exec_lh, exec_lwl, exec_lw, exec_lbu, exec_lhu, exec_lwr, exec_ll]
    exact fills_load _ _ _ _ _ _
  | sb | sh | swl | sw | swr =>
    simp only [exec_sb, exec_sh, exec_swl, exec_sw, exec_swr]
    exact fills_store _ _ _ _ _ _
  | sc => exact fills_storeConditional _ _ _ _
  | beq | bne | blez | bgtz | bltz | bgez => exact fills_branch _ _ _ _ _ _
  | j | jal => exact fills_jumpImmediate _ _ _ _
  | jr => exact fills_jumpTo _ 0 _ _ _ _
  | jalr rd rs =>
    rw [positions_jalr]
    exact fills_jumpTo _ _ _ _ _ _
  | bal => exact fills_jumpTo _ 31 _ _ _ _
  | movz | movn => exact fills_computeOld _ _ _ _ _ _
  | ext => exact fills_extractBits _ _ _ _
  | ins => exact fills_insertBits _ _ _ _
  | teq => exact fills_trapIfEqual _ _ _ _
  | syscall => exact fills_systemCall _
  | brk => exact fills_raise _ _

theorem positions_hi_ne_read (i : Instr) : i.positions.hi ≠ .read := by
  cases i with
  | jalr rd rs => rw [positions_jalr]; exact nofun
  | _ => exact nofun

theorem isSome_iff_write_of_ne_read {o : Option Access} (h : slotKind o ≠ .read) : o.isSome = true ↔ slotKind o = .write := by
  cases o with
  | none => exact ⟨nofun, nofun⟩
  | some e =>
    cases e with
    | read r => exact absurd rfl h
    | write r => exact ⟨fun _ => rfl, fun _ => rfl⟩

/-- Settles O52: the cycle a form completes emits its own event, and the form's shape fills the row. -/
theorem positionTable : Obligations.PositionTable := by
  refine ⟨fun i s t hm h => ?_, fun s p q hpq => s.timestamp_injective hpq⟩
  obtain ⟨x, q, hx, rfl, -, -, -, hq⟩ := exec_completes i s t h
  have hc := hx.sameControl
  have hmode : x.st.mode = .trace := hc.mode.trans hm
  have hevents := retire_cpuEvents_trace q hmode
  have hrow : x.acc.positions = i.positions := by
    obtain ⟨e, he, hrow⟩ := exec_fills i s _ h hmode
    rw [hevents, List.getLast?_concat] at he
    cases he
    exact hrow
  refine ⟨x.cpuEvent q, by rw [hevents, hx.sameEvents.cpuEvents], hrow, hc.clk, hc.pc, hc.npc, fun hi => ?_, rfl, ?_⟩
  · rw [Cycle.retire_npc, (hq (opcode_ne_syscall hi)).1]
    rfl
  · have hhi : slotKind x.acc.hi = i.positions.hi := congrArg Positions.hi hrow
    rw [← hhi, ← isSome_iff_write_of_ne_read (hhi ▸ positions_hi_ne_read i)]
    exact Bool.eq_iff_iff.1 (Option.isSome_map ..)

end Sys2Proof.Machine
end

section
/-! SUPPORT. Decoder and encoder are inverse (30_encoding R129, R130, R133). A word is of a format exactly when its fields
are the format's, so every branch of the decoder answers a form whose own word it has read, or UNIMPL with that word. -/

namespace Sys2Proof

/-! ### A word put together from its own fields -/

theorem encodeR_fields (w : Word) : encodeR w.opcode w.rs w.rt w.rd w.sa w.funct = w := by
  simp only [encodeR, Word.opcode, Word.rs, Word.rt, Word.rd, Word.sa, Word.funct, Reg.bits_toFin]
  iterate 5 rw [BitVec.extractLsb'_append_extractLsb'_eq_extractLsb' (by omega)]
  exact BitVec.extractLsb'_eq_self

theorem encodeI_fields (w : Word) : encodeI w.opcode w.rs w.rt w.imm = w := by
  simp only [encodeI, Word.opcode, Word.rs, Word.rt, Word.imm, Reg.bits_toFin]
  iterate 3 rw [BitVec.extractLsb'_append_extractLsb'_eq_extractLsb' (by omega)]
  exact BitVec.extractLsb'_eq_self

theorem encodeJ_fields (w : Word) : encodeJ w.opcode w.index = w := by
  simp only [encodeJ, Word.opcode, Word.index]
  rw [BitVec.extractLsb'_append_extractLsb'_eq_extractLsb' (by omega)]
  exact BitVec.extractLsb'_eq_self

theorem encodeCode20_fields {w : Word} (h : w.opcode = 0) : encodeCode20 w.code20 w.funct = w := by
  simp only [encodeCode20, show 0#6 = w.opcode from h.symm, Word.opcode, Word.code20, Word.funct]
  iterate 2 rw [BitVec.extractLsb'_append_extractLsb'_eq_extractLsb' (by omega)]
  exact BitVec.extractLsb'_eq_self

theorem encodeCode10_fields {w : Word} (h : w.opcode = 0) : encodeCode10 w.rs w.rt w.code10 w.funct = w := by
  simp only [encodeCode10, show 0#6 = w.opcode from h.symm, Word.opcode, Word.rs, Word.rt, Word.code10, Word.funct,
    Reg.bits_toFin]
  iterate 4 rw [BitVec.extractLsb'_append_extractLsb'_eq_extractLsb' (by omega)]
  exact BitVec.extractLsb'_eq_self

/-! ### When a word is of a format -/

section
variable {op : BitVec 6} {rs rt rd : Reg} {w : Word}

theorem encodeR_eq_iff {sa : BitVec 5} {funct : BitVec 6} : encodeR op rs rt rd sa funct = w ↔
    w.opcode = op ∧ w.rs = rs ∧ w.rt = rt ∧ w.rd = rd ∧ w.sa = sa ∧ w.funct = funct := by
  constructor
  · rintro rfl
    simp
  · rintro ⟨rfl, rfl, rfl, rfl, rfl, rfl⟩
    exact encodeR_fields w

theorem encodeI_eq_iff {imm : BitVec 16} :
    encodeI op rs rt imm = w ↔ w.opcode = op ∧ w.rs = rs ∧ w.rt = rt ∧ w.imm = imm := by
  constructor
  · rintro rfl
    simp
  · rintro ⟨rfl, rfl, rfl, rfl⟩
    exact encodeI_fields w

theorem encodeJ_eq_iff {index : BitVec 26} : encodeJ op index = w ↔ w.opcode = op ∧ w.index = index := by
  constructor
  · rintro rfl
    simp
  · rintro ⟨rfl, rfl⟩
    exact encodeJ_fields w

theorem encodeCode20_eq_iff {code : BitVec 20} {funct : BitVec 6} :
    encodeCode20 code funct = w ↔ w.opcode = 0 ∧ w.code20 = code ∧ w.funct = funct := by
  constructor
  · rintro rfl
    simp
  · rintro ⟨hop, rfl, rfl⟩
    exact encodeCode20_fields hop

theorem encodeCode10_eq_iff {code : BitVec 10} {funct : BitVec 6} : encodeCode10 rs rt code funct = w ↔
    w.opcode = 0 ∧ w.rs = rs ∧ w.rt = rt ∧ w.code10 = code ∧ w.funct = funct := by
  constructor
  · rintro rfl
    simp
  · rintro ⟨hop, rfl, rfl, rfl, rfl⟩
    exact encodeCode10_fields hop

end

/-! ### What the decoder answers -/

/-- An exact answer for `w`: a well-formed form whose own word is `w`, or UNIMPL with `w` as its raw word. -/
def Decoded.Exact (w : Word) : Decoded → Prop
  | .instr i => i.wf = true ∧ encode i = w
  | .unimpl raw => raw = w

section
variable {w : Word}

@[simp] theorem exact_instr {i : Instr} : (Decoded.instr i).Exact w ↔ i.wf = true ∧ encode i = w := .rfl

@[simp] theorem exact_canonical {ok : Bool} {i : Instr} :
    (canonical ok i w).Exact w ↔ (ok = true → i.wf = true ∧ encode i = w) := by
  cases ok with
  | true => exact ⟨fun h _ => h, fun h => h rfl⟩
  | false => exact ⟨fun _ => nofun, fun _ => rfl⟩

/-- The branches of the decoder test the value of a field. -/
theorem eq_ofNat_of_toNat_eq {n k : ℕ} {v : BitVec n} (h : v.toNat = k) : v = BitVec.ofNat n k := by
  rw [← h, BitVec.ofNat_toNat, BitVec.setWidth_eq]

theorem decodeSpecial_exact (hop : w.opcode = 0x00) : (decodeSpecial w).Exact w := by
  unfold decodeSpecial
  split
  case h_33 => rfl
  case h_2 hf | h_5 hf =>
    split
    · next h => simp [Instr.wf, encode, encodeR_eq_iff, hop, eq_ofNat_of_toNat_eq hf, eq_of_beq h]
    · simp +contextual [Instr.wf, encode, encodeR_eq_iff, hop, eq_ofNat_of_toNat_eq hf]
  all_goals
    next hf =>
      simp +contextual [Instr.wf, encode, encodeR_eq_iff, encodeCode20_eq_iff, encodeCode10_eq_iff, hop,
        eq_ofNat_of_toNat_eq hf]

theorem decodeRegimm_exact (hop : w.opcode = 0x01) : (decodeRegimm w).Exact w := by
  unfold decodeRegimm
  split
  case h_5 => rfl
  all_goals
    next hrt => simp +contextual [Instr.wf, encode, encodeI_eq_iff, hop, Fin.eq_mk_iff_val_eq.2 hrt]

theorem decodeSpecial2_exact (hop : w.opcode = 0x1C) : (decodeSpecial2 w).Exact w := by
  unfold decodeSpecial2
  split
  case h_8 => rfl
  all_goals
    next hf => simp +contextual [Instr.wf, encode, encodeR_eq_iff, hop, eq_ofNat_of_toNat_eq hf]

theorem decodeSpecial3_exact (hop : w.opcode = 0x1F) : (decodeSpecial3 w).Exact w := by
  unfold decodeSpecial3
  split
  case h_4 => rfl
  case h_3 hf =>
    split
    case h_4 => rfl
    all_goals
      next hsa =>
        simp +contextual [Instr.wf, encode, encodeR_eq_iff, hop, eq_ofNat_of_toNat_eq hf, eq_ofNat_of_toNat_eq hsa]
  all_goals
    next hf => simp [Instr.wf, encode, encodeR_eq_iff, hop, eq_ofNat_of_toNat_eq hf]

end

theorem decode_exact (w : Word) : (decode w).Exact w := by
  unfold decode
  split
  case h_1 hop => exact decodeSpecial_exact (eq_ofNat_of_toNat_eq hop)
  case h_2 hop => exact decodeRegimm_exact (eq_ofNat_of_toNat_eq hop)
  case h_17 hop => exact decodeSpecial2_exact (eq_ofNat_of_toNat_eq hop)
  case h_18 hop => exact decodeSpecial3_exact (eq_ofNat_of_toNat_eq hop)
  case h_34 => rfl
  all_goals
    next hop =>
      simp +contextual [Instr.wf, encode, encodeI_eq_iff, encodeJ_eq_iff, eq_ofNat_of_toNat_eq hop]

theorem exact_of_decode {w : Word} {d : Decoded} (h : decode w = d) : d.Exact w := h ▸ decode_exact w

/-- Settles O3: every branch of the decoder is exact. -/
theorem decodedWordIsItsEncoding : Obligations.DecodedWordIsItsEncoding := fun _ _ h => exact_of_decode h

/-! ### Decoding an encoded form -/

/-- The fields of the encoded word lead the decoder to the branch of its form. -/
theorem decode_encode {i : Instr} (h : i.wf = true) : decode (encode i) = .instr i := by
  cases i with
  | add | addu | sub | subu | and | or | xor | nor | slt | sltu | sll | srl | rotr | sra | sllv | srlv | rotrv | srav
  | mfhi | mflo | mthi | mtlo | sync | mult | multu | div | divu | jr | jalr | movz | movn | teq | syscall | brk =>
    simp [encode, decode, decodeSpecial, canonical]
  | bltz | bgez | bal | synci => simp [encode, decode, decodeRegimm, canonical]
  | clz | clo =>
    have hrt := of_decide_eq_true h
    simp [encode, decode, decodeSpecial2, canonical, hrt]
  | mul | madd | maddu | msub | msubu => simp [encode, decode, decodeSpecial2, canonical]
  | seb | seh | wsbh | ext | ins => simp [encode, decode, decodeSpecial3, canonical]
  | _ => simp [encode, decode, canonical]

theorem encode_injective {i j : Instr} (hi : i.wf = true) (hj : j.wf = true) (h : encode i = encode j) : i = j := by
  have hd : Decoded.instr i = .instr j := by rw [← decode_encode hi, ← decode_encode hj, h]
  exact Decoded.instr.inj hd

@[simp] theorem record_raw (admitted : Bool) (i : Instr) : (i.record admitted).raw = some (encode i) := by
  cases i with
  | mthi | mtlo => cases admitted <;> rfl
  | _ => rfl

/-- Settles O2: the decoder inverts the encoder and is exact on UNIMPL, and a record keeps its form's word. -/
theorem decodeEncodeRoundTrip : Obligations.DecodeEncodeRoundTrip := by
  refine ⟨fun i => decode_encode, fun w raw h => exact_of_decode h, fun admitted i j hi hj h => ?_⟩
  have hraw : some (encode i) = some (encode j) := by rw [← record_raw admitted i, h, record_raw]
  exact encode_injective hi hj (Option.some.inj hraw)

/-- Settles O1: the decoder evaluated on each word. -/
theorem wordsDecodeAsSpecified : Obligations.WordsDecodeAsSpecified := by
  unfold Obligations.WordsDecodeAsSpecified
  decide

end Sys2Proof
end

section
/-! SUPPORT. The decoder and the opcode table (30_encoding R127, R129 to R131): the word of a form matches the form's row, a
row fixes the fields the decoder looks at, and two rows fix a common bit differently. -/

namespace Sys2Proof.Laws.TableRow

/-- The encoder puts every form into its own row. -/
theorem of_instr : ∀ i : Instr, Statement i
  | .add .. => add .. | .addu .. => addu .. | .sub .. => sub .. | .subu .. => subu .. | .and .. => and ..
  | .or .. => or .. | .xor .. => xor .. | .nor .. => nor .. | .slt .. => slt .. | .sltu .. => sltu ..
  | .addi .. => addi .. | .addiu .. => addiu .. | .slti .. => slti .. | .sltiu .. => sltiu .. | .andi .. => andi ..
  | .ori .. => ori .. | .xori .. => xori .. | .lui .. => lui .. | .sll .. => sll .. | .srl .. => srl ..
  | .rotr .. => rotr .. | .sra .. => sra .. | .sllv .. => sllv .. | .srlv .. => srlv .. | .rotrv .. => rotrv ..
  | .srav .. => srav .. | .clz .. => clz .. | .clo .. => clo .. | .mfhi .. => mfhi .. | .mflo .. => mflo ..
  | .mthi .. => mthi .. | .mtlo .. => mtlo .. | .sync .. => sync .. | .pref .. => pref .. | .synci .. => synci ..
  | .mul .. => mul .. | .mult .. => mult .. | .multu .. => multu .. | .div .. => div .. | .divu .. => divu ..
  | .madd .. => madd .. | .maddu .. => maddu .. | .msub .. => msub .. | .msubu .. => msubu .. | .lb .. => lb ..
  | .lh .. => lh .. | .lwl .. => lwl .. | .lw .. => lw .. | .lbu .. => lbu .. | .lhu .. => lhu .. | .lwr .. => lwr ..
  | .sb .. => sb .. | .sh .. => sh .. | .swl .. => swl .. | .sw .. => sw .. | .swr .. => swr .. | .ll .. => ll ..
  | .sc .. => sc .. | .beq .. => beq .. | .bne .. => bne .. | .blez .. => blez .. | .bgtz .. => bgtz ..
  | .bltz .. => bltz .. | .bgez .. => bgez .. | .j .. => j .. | .jal .. => jal .. | .jr .. => jr ..
  | .jalr .. => jalr .. | .bal .. => bal .. | .movz .. => movz .. | .movn .. => movn .. | .seb .. => seb ..
  | .seh .. => seh .. | .wsbh .. => wsbh .. | .ext .. => ext .. | .ins .. => ins .. | .teq .. => teq ..
  | .syscall .. => syscall .. | .brk .. => brk ..

end Sys2Proof.Laws.TableRow

namespace Sys2Proof

/-! ### The rows are the rows of the forms -/

/-- The constructors of `Instr` stand in the table's order. -/
theorem getElem?_opcodeRows (i : Instr) : opcodeRows[i.ctorIdx]? = some i.row := by cases i <;> rfl

theorem row_mem_opcodeRows (i : Instr) : i.row ∈ opcodeRows := List.mem_of_getElem? (getElem?_opcodeRows i)

/-- One form of each mnemonic, in the table's order. -/
def sampleForms : List Instr :=
  [.add 0 0 0, .addu 0 0 0, .sub 0 0 0, .subu 0 0 0, .and 0 0 0, .or 0 0 0, .xor 0 0 0, .nor 0 0 0, .slt 0 0 0,
    .sltu 0 0 0, .addi 0 0 0, .addiu 0 0 0, .slti 0 0 0, .sltiu 0 0 0, .andi 0 0 0, .ori 0 0 0, .xori 0 0 0, .lui 0 0,
    .sll 0 0 0, .srl 0 0 0, .rotr 0 0 0, .sra 0 0 0, .sllv 0 0 0, .srlv 0 0 0, .rotrv 0 0 0, .srav 0 0 0,
    .clz 0 0 0, .clo 0 0 0, .mfhi 0, .mflo 0, .mthi 0, .mtlo 0, .sync 0, .pref 0 0 0, .synci 0 0,
    .mul 0 0 0, .mult 0 0, .multu 0 0, .div 0 0, .divu 0 0, .madd 0 0, .maddu 0 0, .msub 0 0, .msubu 0 0,
    .lb 0 0 0, .lh 0 0 0, .lwl 0 0 0, .lw 0 0 0, .lbu 0 0 0, .lhu 0 0 0, .lwr 0 0 0, .sb 0 0 0, .sh 0 0 0, .swl 0 0 0,
    .sw 0 0 0, .swr 0 0 0, .ll 0 0 0, .sc 0 0 0, .beq 0 0 0, .bne 0 0 0, .blez 0 0, .bgtz 0 0, .bltz 0 0, .bgez 0 0,
    .j 0, .jal 0, .jr 0, .jalr 0 0, .bal 0, .movz 0 0 0, .movn 0 0 0, .seb 0 0, .seh 0 0, .wsbh 0 0,
    .ext 0 0 0 0, .ins 0 0 0 0, .teq 0 0 0, .syscall 0, .brk 0]

theorem map_row_sampleForms : sampleForms.map Instr.row = opcodeRows := rfl

theorem exists_row_eq {row : OpcodeRow} (h : row ∈ opcodeRows) : ∃ i : Instr, i.row = row := by
  rw [← map_row_sampleForms] at h
  obtain ⟨i, -, rfl⟩ := List.mem_map.1 h
  exact ⟨i, rfl⟩

/-! ### A word that decodes matches the row of its form -/

theorem match_of_decode {w : Word} {i : Instr} (h : decode w = .instr i) : w &&& i.row.mask = i.row.pattern := by
  obtain ⟨-, rfl⟩ := exact_of_decode h
  exact Laws.TableRow.of_instr i

/-- The check that the rows of CLZ and CLO do not show in their masks (R129). -/
theorem rt_eq_rd_of_decode {w : Word} {i : Instr} (h : decode w = .instr i)
    (hm : i.row.mnemonic = "CLZ" ∨ i.row.mnemonic = "CLO") : w.rt = w.rd := by
  obtain ⟨hwf, rfl⟩ := exact_of_decode h
  cases i with
  | clz | clo => simpa [encode] using of_decide_eq_true hwf
  | _ => simp [Instr.row] at hm

/-! ### The fields a row fixes -/

theorem extract_of_match {w m p : Word} (h : w &&& m = p) {lo n : ℕ} (hm : m.extractLsb' lo n = BitVec.allOnes n) :
    w.extractLsb' lo n = p.extractLsb' lo n := by
  rw [← h, BitVec.extractLsb'_and, hm, BitVec.and_allOnes]

section
variable {w m p : Word} (h : w &&& m = p)
include h

theorem opcode_of_match (hm : m.opcode = 0x3F) : w.opcode = p.opcode := extract_of_match h hm
theorem sa_of_match (hm : m.sa = 31) : w.sa = p.sa := extract_of_match h hm
theorem funct_of_match (hm : m.funct = 0x3F) : w.funct = p.funct := extract_of_match h hm
theorem rs_of_match (hm : m.rs = 31) : w.rs = p.rs :=
  congrArg BitVec.toFin (extract_of_match h (congrArg BitVec.ofFin hm))
theorem rt_of_match (hm : m.rt = 31) : w.rt = p.rt :=
  congrArg BitVec.toFin (extract_of_match h (congrArg BitVec.ofFin hm))
theorem rd_of_match (hm : m.rd = 31) : w.rd = p.rd :=
  congrArg BitVec.toFin (extract_of_match h (congrArg BitVec.ofFin hm))

end

/-! ### A word that matches a row decodes -/

section
variable {w : Word}

theorem decode_special (hop : w.opcode = 0x00) : decode w = decodeSpecial w := by rw [decode, hop]; rfl
theorem decode_regimm (hop : w.opcode = 0x01) : decode w = decodeRegimm w := by rw [decode, hop]; rfl
theorem decode_special2 (hop : w.opcode = 0x1C) : decode w = decodeSpecial2 w := by rw [decode, hop]; rfl
theorem decode_special3 (hop : w.opcode = 0x1F) : decode w = decodeSpecial3 w := by rw [decode, hop]; rfl

/-- A row fixes the fields that select the decoder's branch and those the branch wants to be zero; the cases are grouped
by these fields. -/
theorem decodes_of_match {i : Instr} (h : w &&& i.row.mask = i.row.pattern)
    (hc : i.row.mnemonic = "CLZ" ∨ i.row.mnemonic = "CLO" → w.rt = w.rd) : ∃ j, decode w = .instr j := by
  cases i <;> dsimp only [Instr.row] at h hc
  case add | addu | sub | subu | and | or | xor | nor | slt | sltu | sllv | srlv | rotrv | srav | movz | movn =>
    rw [decode_special (opcode_of_match h rfl), decodeSpecial, funct_of_match h rfl, sa_of_match h rfl]
    exact ⟨_, rfl⟩
  case sll | srl | rotr | sra =>
    rw [decode_special (opcode_of_match h rfl), decodeSpecial, funct_of_match h rfl, rs_of_match h rfl]
    exact ⟨_, rfl⟩
  case jr | mthi | mtlo =>
    rw [decode_special (opcode_of_match h rfl), decodeSpecial, funct_of_match h rfl, rt_of_match h rfl,
      rd_of_match h rfl, sa_of_match h rfl]
    exact ⟨_, rfl⟩
  case jalr =>
    rw [decode_special (opcode_of_match h rfl), decodeSpecial, funct_of_match h rfl, rt_of_match h rfl,
      sa_of_match h rfl]
    exact ⟨_, rfl⟩
  case mfhi | mflo =>
    rw [decode_special (opcode_of_match h rfl), decodeSpecial, funct_of_match h rfl, rs_of_match h rfl,
      rt_of_match h rfl, sa_of_match h rfl]
    exact ⟨_, rfl⟩
  case sync =>
    rw [decode_special (opcode_of_match h rfl), decodeSpecial, funct_of_match h rfl, rs_of_match h rfl,
      rt_of_match h rfl, rd_of_match h rfl]
    exact ⟨_, rfl⟩
  case mult | multu | div | divu =>
    rw [decode_special (opcode_of_match h rfl), decodeSpecial, funct_of_match h rfl, rd_of_match h rfl,
      sa_of_match h rfl]
    exact ⟨_, rfl⟩
  case teq | syscall | brk =>
    rw [decode_special (opcode_of_match h rfl), decodeSpecial, funct_of_match h rfl]
    exact ⟨_, rfl⟩
  case bltz | bgez | synci =>
    rw [decode_regimm (opcode_of_match h rfl), decodeRegimm, rt_of_match h rfl]
    exact ⟨_, rfl⟩
  case bal =>
    rw [decode_regimm (opcode_of_match h rfl), decodeRegimm, rt_of_match h rfl, rs_of_match h rfl]
    exact ⟨_, rfl⟩
  case clz | clo =>
    rw [decode_special2 (opcode_of_match h rfl), decodeSpecial2, funct_of_match h rfl, sa_of_match h rfl]
    exact ⟨_, if_pos (beq_iff_eq.2 (hc (by decide)))⟩
  case mul =>
    rw [decode_special2 (opcode_of_match h rfl), decodeSpecial2, funct_of_match h rfl, sa_of_match h rfl]
    exact ⟨_, rfl⟩
  case madd | maddu | msub | msubu =>
    rw [decode_special2 (opcode_of_match h rfl), decodeSpecial2, funct_of_match h rfl, rd_of_match h rfl,
      sa_of_match h rfl]
    exact ⟨_, rfl⟩
  case seb | seh | wsbh =>
    rw [decode_special3 (opcode_of_match h rfl), decodeSpecial3, funct_of_match h rfl, rs_of_match h rfl,
      sa_of_match h rfl]
    exact ⟨_, rfl⟩
  case ext | ins =>
    rw [decode_special3 (opcode_of_match h rfl), decodeSpecial3, funct_of_match h rfl]
    exact ⟨_, rfl⟩
  case lui =>
    rw [decode, opcode_of_match h rfl, rs_of_match h rfl]
    exact ⟨_, rfl⟩
  case blez | bgtz =>
    rw [decode, opcode_of_match h rfl, rt_of_match h rfl]
    exact ⟨_, rfl⟩
  all_goals
    rw [decode, opcode_of_match h rfl]
    exact ⟨_, rfl⟩

theorem decodes_iff_match : (∃ i, decode w = .instr i) ↔ ∃ row ∈ opcodeRows, w &&& row.mask = row.pattern ∧
    (row.mnemonic = "CLZ" ∨ row.mnemonic = "CLO" → w.rt = w.rd) := by
  constructor
  · rintro ⟨i, h⟩
    exact ⟨i.row, row_mem_opcodeRows i, match_of_decode h, rt_eq_rd_of_decode h⟩
  · rintro ⟨row, hrow, h, hc⟩
    obtain ⟨i, rfl⟩ := exists_row_eq hrow
    exact decodes_of_match h hc

theorem decode_eq_unimpl_of_no_form (h : ∀ i, decode w ≠ .instr i) : decode w = .unimpl w := by
  cases hd : decode w with
  | instr i => exact absurd hd (h i)
  | unimpl raw => exact congrArg Decoded.unimpl (exact_of_decode hd)

end

/-! ### No word matches two rows -/

/-- Of two rows each fixes a bit that the other fixes differently. -/
theorem opcodeRows_pairwise : opcodeRows.Pairwise fun r r' => r.pattern &&& r'.mask ≠ r'.pattern &&& r.mask := by
  decide

theorem row_eq_of_match {w : Word} {r r' : OpcodeRow} (hr : r ∈ opcodeRows) (hr' : r' ∈ opcodeRows)
    (h : w &&& r.mask = r.pattern) (h' : w &&& r'.mask = r'.pattern) : r = r' := by
  by_contra hne
  have : Std.Symm fun r r' : OpcodeRow => r.pattern &&& r'.mask ≠ r'.pattern &&& r.mask := ⟨fun _ _ => Ne.symm⟩
  refine opcodeRows_pairwise.forall hr hr' hne ?_
  rw [← h, ← h', BitVec.and_assoc, BitVec.and_assoc, BitVec.and_comm r.mask]

/-- Settles O4: a form's word matches its row, a row fixes what the decoder tests, and the rows are pairwise apart. -/
theorem decoderAgreesWithOpcodeTable : Obligations.DecoderAgreesWithOpcodeTable :=
  ⟨fun _ => decode_eq_unimpl_of_no_form, fun _ => decodes_iff_match, fun _ _ hr _ hr' => row_eq_of_match hr hr'⟩

/-! ### The encodings no row matches -/

theorem rows_fix_opcode : ∀ row ∈ opcodeRows, row.mask.opcode = 0x3F := by decide
theorem regimm_rows_fix_rt : ∀ row ∈ opcodeRows, row.pattern.opcode = 0x01 → row.mask.rt = 31 := by decide
theorem bal_row_fixes_rs : ∀ row ∈ opcodeRows, row.pattern.opcode = 0x01 → row.pattern.rt = 0x11 →
    row.mask.rs = 31 := by decide
theorem special_rows_fix_funct : ∀ row ∈ opcodeRows, row.pattern.opcode ∈ [0x00#6, 0x1C#6, 0x1F#6] →
    row.mask.funct = 0x3F := by decide

section
variable {w : Word} {row : OpcodeRow} (hrow : row ∈ opcodeRows) (h : w &&& row.mask = row.pattern)
include hrow h

theorem opcode_of_row : w.opcode = row.pattern.opcode := opcode_of_match h (rows_fix_opcode row hrow)

theorem rt_of_row (hop : w.opcode = 0x01) : w.rt = row.pattern.rt :=
  rt_of_match h (regimm_rows_fix_rt row hrow (opcode_of_row hrow h ▸ hop))

theorem rs_of_row (hop : w.opcode = 0x01) (hrt : w.rt = 0x11) : w.rs = row.pattern.rs :=
  rs_of_match h (bal_row_fixes_rs row hrow (opcode_of_row hrow h ▸ hop) (rt_of_row hrow h hop ▸ hrt))

theorem funct_of_row (hop : w.opcode ∈ [0x00#6, 0x1C#6, 0x1F#6]) : w.funct = row.pattern.funct :=
  funct_of_match h (special_rows_fix_funct row hrow (opcode_of_row hrow h ▸ hop))

end

theorem decode_eq_unimpl_of_no_match {w : Word} (h : ∀ row ∈ opcodeRows, w &&& row.mask = row.pattern → False) :
    decode w = .unimpl w :=
  decode_eq_unimpl_of_no_form fun i hi => h i.row (row_mem_opcodeRows i) (match_of_decode hi)

/-- Settles O5: the listed values of the fields a row fixes stand in no row of the table. -/
theorem listedEncodingsAreUnimpl : Obligations.ListedEncodingsAreUnimpl := by
  intro w
  refine ⟨fun hop => ?_, fun hop hrt => ?_, fun hop hrt hrs => ?_, fun hop hf => ?_, fun hop hf => ?_,
    fun hop hf => ?_⟩ <;> refine decode_eq_unimpl_of_no_match fun row hrow h => ?_
  · rw [opcode_of_row hrow h] at hop
    clear h
    revert hop
    revert row
    decide
  · rw [rt_of_row hrow h hop] at hrt
    rw [opcode_of_row hrow h] at hop
    clear h
    revert hop hrt
    revert row
    decide
  · rw [rs_of_row hrow h hop hrt] at hrs
    rw [rt_of_row hrow h hop] at hrt
    rw [opcode_of_row hrow h] at hop
    clear h
    revert hop hrt hrs
    revert row
    decide
  all_goals
    rw [funct_of_row hrow h (by rw [hop]; decide)] at hf
    rw [opcode_of_row hrow h] at hop
    clear h
    revert hop hf
    revert row
    decide

end Sys2Proof
end

section
/-! SUPPORT. The two levels of execution agree (30_encoding R128, decision D4): the decoded record of a form is well formed
and executes by the shared operation the form itself is. -/

namespace Sys2Proof

/-! ### The shapes of decoded records -/

@[simp] theorem Reg.toNat_word (r : Reg) : r.word.toNat = r.val := Nat.mod_eq_of_lt (r.isLt.trans (by decide))
@[simp] theorem Reg.word_zero : Reg.word 0 = 0 := rfl
@[simp] theorem namesGeneral_word (r : Reg) : namesGeneral r.word = true := by simp [namesGeneral]

section
variable (op : Opcode) (a : ℕ) (r r' : Reg) (b c raw : Word)

@[simp] theorem Record.rr_opcode : (Record.rr op a r r' raw).opcode = op := rfl
@[simp] theorem Record.rr_a : (Record.rr op a r r' raw).a = a := rfl
@[simp] theorem Record.rr_b : (Record.rr op a r r' raw).b = r.word := rfl
@[simp] theorem Record.rr_c : (Record.rr op a r r' raw).c = r'.word := rfl
@[simp] theorem Record.ri_opcode : (Record.ri op a r c raw).opcode = op := rfl
@[simp] theorem Record.ri_a : (Record.ri op a r c raw).a = a := rfl
@[simp] theorem Record.ri_b : (Record.ri op a r c raw).b = r.word := rfl
@[simp] theorem Record.ri_c : (Record.ri op a r c raw).c = c := rfl
@[simp] theorem Record.ii_opcode : (Record.ii op a b c raw).opcode = op := rfl
@[simp] theorem Record.ii_a : (Record.ii op a b c raw).a = a := rfl
@[simp] theorem Record.ii_b : (Record.ii op a b c raw).b = b := rfl
@[simp] theorem Record.ii_c : (Record.ii op a b c raw).c = c := rfl

@[simp] theorem Record.registerOperands_rr : (Record.rr op a r r' raw).registerOperands = true := by
  simp [Record.registerOperands, Record.rr]

@[simp] theorem Record.registerImmediate_ri (p : Word → Bool) :
    (Record.ri op a r c raw).registerImmediate p = p c := by
  simp [Record.registerImmediate, Record.ri]

@[simp] theorem Record.immediateOperand_ii (p : Word → Bool) :
    (Record.ii op a b c raw).immediateOperand p c = p b := by
  simp [Record.immediateOperand, Record.ii]

end

/-- Each form's operands are those of its row, and its immediates pass the check of their kind. -/
theorem Instr.record_wf (admitted : Bool) (i : Instr) : (i.record admitted).wf = true := by
  cases i with
  | mthi | mtlo =>
    cases admitted <;> simp [Instr.record, Record.wf, Opcode.aInRange, Record.operandsInRange, Record.unimpl]
  | mfhi | mflo => simp [Instr.record, Record.wf, Opcode.aInRange, Record.operandsInRange, Record.readsHiLo]
  | ext | ins => simp [Instr.record, Record.wf, Opcode.aInRange, Record.operandsInRange, fieldBounds_lt]
  | syscall => rfl
  | _ => simp [Instr.record, Record.wf, Opcode.aInRange, Record.operandsInRange]

end Sys2Proof

namespace Sys2Proof.Machine

section
variable (op : Opcode) (a : ℕ) (r r' : Reg) (b c raw : Word)

@[simp] theorem srcB_rr : srcB (.rr op a r r' raw) = .reg r := congrArg Src.reg r.toNat_word
@[simp] theorem srcC_rr : srcC (.rr op a r r' raw) = .reg r' := congrArg Src.reg r'.toNat_word
@[simp] theorem srcB_ri : srcB (.ri op a r c raw) = .reg r := congrArg Src.reg r.toNat_word
@[simp] theorem srcC_ri : srcC (.ri op a r c raw) = .imm c := rfl
@[simp] theorem srcB_ii : srcB (.ii op a b c raw) = .imm b := rfl
@[simp] theorem srcC_ii : srcC (.ii op a b c raw) = .imm c := rfl

end

/-- Both sides are one shared operation, on the operands the record holds; MTHI and MTLO are UNIMPL where not admitted. -/
theorem exec_eq_execRecord (i : Instr) (s : State) : exec i s = execRecord (i.record s.params.admitMthiMtlo) s := by
  rw [execRecord, Instr.record_wf]
  cases i with
  | add | addu | sub | subu | and | or | xor | nor | slt | sltu | addi | addiu | slti | sltiu | andi | ori | xori
  | lui | sll | srl | rotr | sra | sllv | srlv | rotrv | srav | clz | clo | sync | pref | synci | mul
  | seb | seh | wsbh =>
    simp [Instr.record, exec_add, exec_addu, exec_sub, exec_subu, exec_and, exec_or, exec_xor, exec_nor, exec_slt,
      exec_sltu, exec_addi, exec_addiu, exec_slti, exec_sltiu, exec_andi, exec_ori, exec_xori, exec_lui, exec_sll,
      exec_srl, exec_rotr, exec_sra, exec_sllv, exec_srlv, exec_rotrv, exec_srav, exec_clz, exec_clo, exec_sync,
      exec_pref, exec_synci, exec_mul, exec_seb, exec_seh, exec_wsbh]
  | mfhi | mflo | syscall | brk => rfl
  | mthi | mtlo =>
    simp only [exec_mthi, exec_mtlo]
    split <;> next h => simp [Instr.record, h, Record.unimpl, execUnimpl]
  | mult | multu | div | divu | madd | maddu | msub | msubu =>
    simp [Instr.record, exec_mult, exec_multu, exec_div, exec_divu, exec_madd, exec_maddu, exec_msub, exec_msubu]
  | lb | lh | lwl | lw | lbu | lhu | lwr | ll =>
    simp [Instr.record, exec_lb, exec_lh, exec_lwl, exec_lw, exec_lbu, exec_lhu, exec_lwr, exec_ll]
  | sb | sh | swl | sw | swr | sc =>
    simp [Instr.record, exec_sb, exec_sh, exec_swl, exec_sw, exec_swr, exec_sc]
  | beq | bne | blez | bgtz | bltz | bgez =>
    simp [Instr.record, exec_beq, exec_bne, exec_blez, exec_bgtz, exec_bltz, exec_bgez]
  | j | jal | jr | jalr | bal => simp [Instr.record, exec_j, exec_jal, exec_jr, exec_jalr, exec_bal]
  | movz | movn => simp [Instr.record, exec_movz, exec_movn]
  | ext | ins | teq => simp [Instr.record, exec_ext, exec_ins, exec_teq]

/-- Settles O6: by the form, its record is well formed and executes by the form's own operation. -/
theorem formsRunAsTheirRecords : Obligations.FormsRunAsTheirRecords :=
  fun i s => ⟨i.record_wf s.params.admitMthiMtlo, exec_eq_execRecord i s⟩

end Sys2Proof.Machine
end

section
/-! SUPPORT. The ALU family (40_alu): what its operations compute, in the library's terms, and the statements about its forms
and its decoded records. Every one of them is the shared operation `compute`, so a result is one equation on words. -/

namespace Sys2Proof.Machine

/-! ### Immediates, comparisons, shifts and rotates -/

theorem zext16_eq_append (v : BitVec 16) : zext16 v = (0#16 ++ v : BitVec 32) := by
  apply BitVec.eq_of_toNat_eq
  rw [zext16, BitVec.toNat_setWidth, BitVec.toNat_append, BitVec.toNat_zero, Nat.zero_shiftLeft, Nat.zero_or]
  omega

theorem boolWord_decide (p : Prop) [Decidable p] : boolWord (decide p) = if p then 1 else 0 := by
  simp only [boolWord, decide_eq_true_eq]

theorem toInt_sext16 (v : BitVec 16) : (sext16 v).toInt = v.toInt :=
  BitVec.toInt_signExtend_of_le (by decide)

theorem shiftAmount_eq_mod (c : Word) : shiftAmount c = c.toNat % 32 :=
  (BitVec.toNat_and ..).trans (Nat.and_two_pow_sub_one_eq_mod c.toNat 5)

theorem shiftAmount_zext5 (v : BitVec 5) : shiftAmount (zext5 v) = v.toNat := by
  rw [shiftAmount_eq_mod, zext5, BitVec.toNat_setWidth]
  omega

theorem rotateRight_eq (b c : Word) : rotateRight b c = b.rotateRight (shiftAmount c) := by
  have hlt : shiftAmount c < 32 := by rw [shiftAmount_eq_mod]; omega
  rw [BitVec.rotateRight_def, Nat.mod_eq_of_lt hlt, rotateRight]
  split
  · next h => simp [h]
  · rfl

theorem shiftLeft_zext16_sixteen (v : BitVec 16) : shiftLeft (zext16 v) 16 = (v ++ 0#16 : BitVec 32) := by
  apply BitVec.eq_of_toNat_eq
  rw [shiftLeft, BitVec.toNat_shiftLeft, BitVec.toNat_append, BitVec.toNat_zero, Nat.or_zero, zext16,
    BitVec.toNat_setWidth]
  simp only [Nat.shiftLeft_eq, show shiftAmount 16 = 16 from rfl]
  omega

/-! ### Leading zeros and ones -/

theorem leadingRun_not {p : Bool} {b : Word} {n : Nat} (h : LeadingRun (!p) (~~~b) n) : LeadingRun p b n := by
  obtain ⟨hn, hrun, hnext⟩ := h
  refine ⟨hn, fun i hi => ?_, fun hn => ?_⟩
  · simpa [show i < 32 by omega] using hrun i hi
  · simpa [hn] using hnext hn

/-- The highest set bit of a nonzero word is bit `log2`, so `31 - log2` zero bits lead it. -/
theorem leadingRun_log2 {b : Word} (hb : b.toNat ≠ 0) : LeadingRun false b (31 - b.toNat.log2) := by
  have hlog : b.toNat.log2 < 32 := (Nat.log2_lt hb).2 b.isLt
  refine ⟨by omega, fun i hi => ?_, fun hn => ?_⟩
  · have hhigh : b.toNat < 2 ^ (31 - i) := (Nat.log2_lt hb).1 (by omega)
    simp [BitVec.getMsbD, BitVec.getLsbD, Nat.testBit_lt_two_pow hhigh]
  · simp [BitVec.getMsbD, BitVec.getLsbD, show 31 - (31 - b.toNat.log2) = b.toNat.log2 by omega,
      Nat.testBit_log2 hb, hn]

theorem countLeadingZeros_eq (b : Word) : ∃ n, LeadingRun false b n ∧ countLeadingZeros b = BitVec.ofNat 32 n := by
  by_cases hb : b = 0
  · exact ⟨32, ⟨le_rfl, by simp [hb], by simp⟩, if_pos hb⟩
  · exact ⟨_, leadingRun_log2 fun h => hb (BitVec.eq_of_toNat_eq h), if_neg hb⟩

theorem countLeadingOnes_eq (b : Word) : ∃ n, LeadingRun true b n ∧ countLeadingOnes b = BitVec.ofNat 32 n := by
  obtain ⟨n, hrun, hcount⟩ := countLeadingZeros_eq (~~~b)
  exact ⟨n, leadingRun_not hrun, hcount⟩

/-! ### The forms -/

section
variable {i : Instr} {s : State} {op : Opcode} {f : Word → Word → Word} {a : Reg} {b c : Src}

/-- A form whose arm of `exec` is `compute` completes with the value of its function. -/
theorem computes_of_compute (hi : exec i s = compute op f a b c s) (hop : isTransfer op = false) {v : Word}
    (hv : f (s.src b) (s.src c) = v) : Computes i s a v := by
  obtain ⟨t, ht, hreg, hframe⟩ := compute_next op f (reg_key a) b c s hop
  exact ⟨t, hi.trans ht, hv ▸ hreg, hframe⟩

/-- Register 0 reads 0 before and after, so a form that only stores to it changes no register. -/
theorem noEffect_of_compute (hi : exec i s = compute op f (0 : Reg) b c s) (hop : isTransfer op = false) :
    NoEffect i s := by
  obtain ⟨t, ht, hreg, hframe⟩ := computes_of_compute hi hop rfl
  refine ⟨t, ht, fun j hj => ?_, hframe⟩
  by_cases h0 : j = 0
  · rw [h0, State.cell_zero, State.cell_zero]
  · exact (hreg j hj).trans (if_neg h0)

end

/-- Settles O7: each form is `compute` of the wrapped sum or difference. -/
theorem addAndSubtractWrap : Obligations.AddAndSubtractWrap := fun rd rs rt imm s =>
  ⟨computes_of_compute (exec_add s rd rs rt) rfl rfl, computes_of_compute (exec_addu s rd rs rt) rfl rfl,
    computes_of_compute (exec_addi s rt rs imm) rfl rfl, computes_of_compute (exec_addiu s rt rs imm) rfl rfl,
    computes_of_compute (exec_sub s rd rs rt) rfl rfl, computes_of_compute (exec_subu s rd rs rt) rfl rfl⟩

/-- Settles O8: each form is `compute` of the bitwise operation; a zero-extended immediate is appended to sixteen zeros. -/
theorem logicalResults : Obligations.LogicalResults := by
  intro rd rs rt imm s
  rw [← zext16_eq_append]
  exact ⟨computes_of_compute (exec_and s rd rs rt) rfl rfl, computes_of_compute (exec_or s rd rs rt) rfl rfl,
    computes_of_compute (exec_xor s rd rs rt) rfl rfl, computes_of_compute (exec_nor s rd rs rt) rfl rfl,
    computes_of_compute (exec_andi s rt rs imm) rfl rfl, computes_of_compute (exec_ori s rt rs imm) rfl rfl,
    computes_of_compute (exec_xori s rt rs imm) rfl rfl⟩

/-- Settles O9: each form is `compute` of a comparison; sign extension keeps the immediate's integer. -/
theorem compareResults : Obligations.CompareResults := by
  intro rd rs rt imm s
  rw [← toInt_sext16 imm]
  exact ⟨computes_of_compute (exec_slt s rd rs rt) rfl (boolWord_decide _),
    computes_of_compute (exec_sltu s rd rs rt) rfl (boolWord_decide _),
    computes_of_compute (exec_slti s rt rs imm) rfl (boolWord_decide _),
    computes_of_compute (exec_sltiu s rt rs imm) rfl (boolWord_decide _)⟩

/-- Settles O10: each form is `compute` of a shift or rotate by `shiftAmount`, which is the field `sa` of the immediate forms
and the register modulo 32 of the others; LUI shifts its immediate by 16. -/
theorem shiftAndRotateResults : Obligations.ShiftAndRotateResults := by
  intro rd rt rs sa imm s
  rw [← shiftAmount_zext5 sa, ← shiftAmount_eq_mod (s.cell rs)]
  exact ⟨computes_of_compute (exec_sll s rd rt sa) rfl rfl, computes_of_compute (exec_srl s rd rt sa) rfl rfl,
    computes_of_compute (exec_sra s rd rt sa) rfl rfl,
    computes_of_compute (exec_rotr s rd rt sa) rfl (rotateRight_eq ..),
    computes_of_compute (exec_sllv s rd rt rs) rfl rfl, computes_of_compute (exec_srlv s rd rt rs) rfl rfl,
    computes_of_compute (exec_srav s rd rt rs) rfl rfl,
    computes_of_compute (exec_rotrv s rd rt rs) rfl (rotateRight_eq ..),
    computes_of_compute (exec_lui s rt imm) rfl (shiftLeft_zext16_sixteen imm)⟩

/-- Settles O11: the count CLZ computes is the length of the leading run of zeros; CLO's is that of the complement. -/
theorem countLeadingResults : Obligations.CountLeadingResults := by
  intro rd rs rt s
  obtain ⟨zeros, hzeros, hclz⟩ := countLeadingZeros_eq (s.cell rs)
  obtain ⟨ones, hones, hclo⟩ := countLeadingOnes_eq (s.cell rs)
  exact ⟨⟨zeros, hzeros, computes_of_compute (exec_clz s rd rs rt) rfl hclz⟩,
    ⟨ones, hones, computes_of_compute (exec_clo s rd rs rt) rfl hclo⟩⟩

/-- Settles O12: MFHI and MFLO add 0 to HI and LO; SYNC, PREF and SYNCI store to register 0. -/
theorem movesFromHiLoAndNoOps : Obligations.MovesFromHiLoAndNoOps := fun rd base five off s =>
  ⟨computes_of_compute (exec_mfhi s rd) rfl (BitVec.add_zero _),
    computes_of_compute (exec_mflo s rd) rfl (BitVec.add_zero _),
    noEffect_of_compute (exec_sync s five) rfl,
    noEffect_of_compute (exec_pref s five base off) rfl,
    noEffect_of_compute (exec_synci s base off) rfl⟩

/-! ### The decoded records -/

/-- The function of a decoded ALU opcode on the values of its operands (40_alu R200). -/
def aluFunction : Opcode → Option (Word → Word → Word)
  | .add => some fun b c => b + c
  | .sub => some fun b c => b - c
  | .and => some fun b c => b &&& c
  | .or => some fun b c => b ||| c
  | .xor => some fun b c => b ^^^ c
  | .nor => some fun b c => ~~~(b ||| c)
  | .slt => some setLessSigned
  | .sltu => some setLessUnsigned
  | .sll => some shiftLeft
  | .srl => some shiftRight
  | .sra => some shiftRightArith
  | .ror => some rotateRight
  | .clz => some fun b _ => countLeadingZeros b
  | .clo => some fun b _ => countLeadingOnes b
  | _ => none

section
variable {r : Record} {f : Word → Word → Word}

theorem isTransfer_of_aluFunction {op : Opcode} (hf : aluFunction op = some f) : isTransfer op = false := by
  cases op with
  | add | sub | and | or | xor | nor | slt | sltu | sll | srl | sra | ror | clz | clo => rfl
  | _ => cases hf

theorem a_lt_of_aluFunction (h : r.wf = true) (hf : aluFunction r.opcode = some f) : r.a < 34 := by
  rcases record_registers h with (hop | hop) | ⟨ha, -, -⟩
  · rw [hop] at hf; cases hf
  · rw [hop] at hf; cases hf
  · exact ha

theorem execRecord_of_aluFunction (h : r.wf = true) (hf : aluFunction r.opcode = some f) (s : State) :
    execRecord r s = compute r.opcode f r.a (srcB r) (srcC r) s := by
  rw [execRecord, h]
  revert hf
  cases r.opcode with
  | add | sub | and | or | xor | nor | slt | sltu | sll | srl | sra | ror | clz | clo => rintro ⟨⟩; rfl
  | _ => exact fun hf => nomatch hf

/-- A well-formed record of an ALU opcode completes with the value of the opcode's function. -/
theorem recordComputes_of_aluFunction (h : r.wf = true) {op : Opcode} (hf : aluFunction op = some f)
    {s : State} {v : Word} (hv : f (s.src (srcB r)) (s.src (srcC r)) = v) (hop : r.opcode = op) :
    RecordComputes r s r.a v := by
  subst hop
  obtain ⟨t, ht, hreg, hframe⟩ := compute_next r.opcode f (a_lt_of_aluFunction h hf) (srcB r) (srcC r) s
    (isTransfer_of_aluFunction hf)
  exact ⟨t, (execRecord_of_aluFunction h hf s).trans ht, hv ▸ hreg, hframe⟩

end

/-- Settles O13: a well-formed record runs its opcode's function, whose value is the one of the table. -/
theorem decodedAluTable : Obligations.DecodedAluTable := by
  intro r s h
  obtain ⟨zeros, hzeros, hclz⟩ := countLeadingZeros_eq (s.src (srcB r))
  obtain ⟨ones, hones, hclo⟩ := countLeadingOnes_eq (s.src (srcB r))
  rw [← shiftAmount_eq_mod (s.src (srcC r))]
  exact ⟨recordComputes_of_aluFunction h rfl rfl, recordComputes_of_aluFunction h rfl rfl,
    recordComputes_of_aluFunction h rfl rfl, recordComputes_of_aluFunction h rfl rfl,
    recordComputes_of_aluFunction h rfl rfl, recordComputes_of_aluFunction h rfl rfl,
    recordComputes_of_aluFunction h rfl rfl, recordComputes_of_aluFunction h rfl rfl,
    recordComputes_of_aluFunction h rfl rfl, recordComputes_of_aluFunction h rfl rfl,
    recordComputes_of_aluFunction h rfl rfl, recordComputes_of_aluFunction h rfl (rotateRight_eq ..),
    fun hop => ⟨zeros, hzeros, recordComputes_of_aluFunction h rfl hclz hop⟩,
    fun hop => ⟨ones, hones, recordComputes_of_aluFunction h rfl hclo hop⟩⟩

end Sys2Proof.Machine
end

section
/-! SUPPORT. The multiply and divide family (41_muldiv): its operations in the library's terms (`signExtend`, `sdiv`, `srem`), and
the statements about its forms and about the decoded opcodes MOD and MODU. -/

namespace Sys2Proof.Machine

/-! ### Products -/

theorem append_split64 (v : BitVec 64) : ((split64 v).2 ++ (split64 v).1 : BitVec 64) = v :=
  BitVec.extractLsb'_append_extractLsb'

theorem signedProduct_eq_mul (b c : Word) : signedProduct b c = b.signExtend 64 * c.signExtend 64 :=
  BitVec.ofInt_mul ..

theorem unsignedProduct_eq_mul (b c : Word) : unsignedProduct b c = b.setWidth 64 * c.setWidth 64 := by
  rw [unsignedProduct, BitVec.ofNat_mul, BitVec.ofNat_toNat, BitVec.ofNat_toNat]

theorem mulLow_eq_mul (b c : Word) : mulLow b c = b * c := rfl

/-- The product of two signed words has at most 63 bits (41_muldiv R252). -/
theorem toInt_signedProduct (b c : Word) : (signedProduct b c).toInt = b.toInt * c.toInt := by
  have hlow : -2 ^ 62 ≤ b.toInt * c.toInt := BitVec.le_toInt_mul_toInt
  have hhigh : b.toInt * c.toInt ≤ 2 ^ 62 := BitVec.toInt_mul_toInt_le
  exact BitVec.toInt_ofInt_eq_self (by decide) (by omega) (by omega)

theorem toNat_unsignedProduct (b c : Word) : (unsignedProduct b c).toNat = b.toNat * c.toNat :=
  Nat.mod_eq_of_lt (Nat.mul_lt_mul'' (c := 2 ^ 32) (d := 2 ^ 32) b.isLt c.isLt)

/-! ### Quotients and remainders -/

section
variable {b c : Word}

theorem toInt_ne_zero (hc : c ≠ 0) : c.toInt ≠ 0 := fun h => hc (BitVec.eq_of_toInt_eq h)

theorem ofInt_tdiv (b c : Word) : BitVec.ofInt 32 (b.toInt.tdiv c.toInt) = b.sdiv c :=
  BitVec.eq_of_toInt_eq (by rw [BitVec.toInt_ofInt, BitVec.toInt_sdiv])

theorem ofInt_tmod (b c : Word) : BitVec.ofInt 32 (b.toInt.tmod c.toInt) = b.srem c := by
  rw [← BitVec.toInt_srem, BitVec.ofInt_toInt]

/-- The overflow case is no exception: there the library's quotient wraps, and its remainder is 0 (decision D38). -/
theorem signedDivide_of_ne_zero (hc : c ≠ 0) : signedDivide b c = (b.sdiv c, b.srem c) := by
  rw [signedDivide, if_neg hc]
  split
  · next h =>
    obtain ⟨rfl, rfl⟩ := h
    rfl
  · rw [ofInt_tdiv, mul_comm, ← Int.tmod_def, ofInt_tmod]

theorem unsignedDivide_of_ne_zero (hc : c ≠ 0) : unsignedDivide b c = (b / c, b % c) := by
  rw [unsignedDivide, if_neg hc, ← BitVec.toNat_udiv, ← BitVec.toNat_umod, BitVec.ofNat_toNat, BitVec.ofNat_toNat,
    BitVec.setWidth_eq, BitVec.setWidth_eq]

/-- The library's remainder by zero is the dividend too. -/
theorem signedRemainder_eq_srem : signedRemainder b c = b.srem c := by
  by_cases hc : c = 0
  · rw [hc]
    exact BitVec.srem_zero.symm
  · rw [signedRemainder, signedDivide_of_ne_zero hc]

theorem unsignedRemainder_eq_umod : unsignedRemainder b c = b % c := by
  by_cases hc : c = 0
  · rw [hc]
    exact BitVec.umod_zero.symm
  · rw [unsignedRemainder, unsignedDivide_of_ne_zero hc]

/-- The division law on words, the overflow case included. -/
theorem sdiv_mul_add_srem (b c : Word) : b.sdiv c * c + b.srem c = b := by
  calc b.sdiv c * c + b.srem c
      = BitVec.ofInt 32 (b.toInt.tdiv c.toInt * c.toInt + b.toInt.tmod c.toInt) := by
        rw [BitVec.ofInt_add, BitVec.ofInt_mul, ofInt_tdiv, ofInt_tmod, BitVec.ofInt_toInt]
    _ = b := by rw [Int.tdiv_mul_add_tmod, BitVec.ofInt_toInt]

/-- Outside the overflow case the division law holds on integers. -/
theorem toInt_sdiv_mul_add_toInt_srem (h : ¬ (b = 0x80000000 ∧ c = 0xFFFFFFFF)) :
    (b.sdiv c).toInt * c.toInt + (b.srem c).toInt = b.toInt := by
  rw [BitVec.toInt_sdiv_of_ne_or_ne b c (not_and_or.1 h), BitVec.toInt_srem, Int.tdiv_mul_add_tmod]

theorem natAbs_toInt_srem_lt (hc : c ≠ 0) : (b.srem c).toInt.natAbs < c.toInt.natAbs := by
  rw [BitVec.toInt_srem, Int.natAbs_tmod]
  exact Nat.mod_lt _ (Int.natAbs_pos.2 (toInt_ne_zero hc))

/-- The remainder has the dividend's sign. -/
theorem srem_eq_zero_or_sign_eq : b.srem c = 0 ∨ (b.srem c).toInt.sign = b.toInt.sign := by
  by_cases hdvd : c.toInt ∣ b.toInt
  · exact .inl (BitVec.srem_zero_of_dvd hdvd)
  · exact .inr (by rw [BitVec.toInt_srem, Int.sign_tmod, if_neg hdvd])

theorem toInt_dvd_sub_toInt_srem : c.toInt ∣ b.toInt - (b.srem c).toInt := by
  rw [BitVec.toInt_srem]
  exact Int.dvd_self_sub_tmod

end

/-! ### The forms -/

section
variable {i : Instr} {s : State} {op : Opcode} {f : Word → Word → Word → Word → Word × Word} {rs rt : Reg}

/-- A form whose arm of `exec` is `computeHiLo` completes with the two values of its function. -/
theorem computesHiLo_of_computeHiLo (hi : exec i s = computeHiLo op f rs rt s) (hop : isTransfer op = false)
    {p : Word × Word} (hp : f (s.cell rs) (s.cell rt) (s.cell loIndex) (s.cell hiIndex) = p) :
    ComputesHiLo i s p.1 p.2 := by
  obtain ⟨t, ht, hreg, hframe⟩ := computeHiLo_next op f rs rt s hop
  exact ⟨t, hi.trans ht, hp ▸ hreg, hframe⟩

/-- Where the function splits a 64-bit value, HI and LO joined are that value. -/
theorem computesHiLo_of_split64 (hi : exec i s = computeHiLo op f rs rt s) (hop : isTransfer op = false) {v : BitVec 64}
    (hv : f (s.cell rs) (s.cell rt) (s.cell loIndex) (s.cell hiIndex) = split64 v) :
    ∃ lo hi : Word, ComputesHiLo i s lo hi ∧ (hi ++ lo : BitVec 64) = v :=
  ⟨_, _, computesHiLo_of_computeHiLo hi hop hv, append_split64 v⟩

/-- A form that copies a general register to the register `k`, which may be HI or LO. -/
theorem computes_of_move {k : Nat} (hk : k < 34) (hi : exec i s = compute op (fun b _ => b) k (.reg rs) (.imm 0) s)
    (hop : isTransfer op = false) : Computes i s k (s.cell rs) := by
  obtain ⟨t, ht, hreg, hframe⟩ := compute_next op (fun b _ => b) hk (.reg rs) (.imm 0) s hop
  exact ⟨t, hi.trans ht, hreg, hframe⟩

end

/-- Settles O14: each form completes with its product, and no product exceeds 64 bits. -/
theorem multiplyResults : Obligations.MultiplyResults := by
  intro rd rs rt s
  obtain ⟨lo, hi, hmult, hsigned⟩ := computesHiLo_of_split64 (exec_mult s rs rt) rfl rfl
  obtain ⟨lo', hi', hmultu, hunsigned⟩ := computesHiLo_of_split64 (exec_multu s rs rt) rfl rfl
  exact ⟨computes_of_compute (exec_mul s rd rs rt) rfl (mulLow_eq_mul ..),
    ⟨lo, hi, hmult, hsigned ▸ toInt_signedProduct ..⟩,
    ⟨lo', hi', hmultu, hunsigned ▸ toNat_unsignedProduct ..⟩⟩

/-- Settles O15: by zero the operation's first case; else its values are the library's quotient and remainder, which satisfy the
division law. -/
theorem signedDivideResults : Obligations.SignedDivideResults := by
  intro rs rt s
  by_cases hc : s.cell rt = 0
  · refine ⟨_, _, computesHiLo_of_computeHiLo (exec_div s rs rt) rfl (if_pos hc), fun _ => ⟨rfl, rfl⟩, fun _ h => ?_,
      fun h => absurd hc h, fun h => absurd hc h⟩
    exact absurd (hc.symm.trans h) (by decide)
  · refine ⟨_, _, computesHiLo_of_computeHiLo (exec_div s rs rt) rfl (signedDivide_of_ne_zero hc), fun h => absurd h hc,
      fun hb hm => ?_, fun _ hover => ?_, fun _ => sdiv_mul_add_srem ..⟩
    · rw [hb, hm]
      exact ⟨rfl, rfl⟩
    · exact ⟨toInt_sdiv_mul_add_toInt_srem hover, natAbs_toInt_srem_lt hc, srem_eq_zero_or_sign_eq⟩

/-- Settles O16: by zero the operation's first case; else its values are the library's quotient and remainder. -/
theorem unsignedDivideResults : Obligations.UnsignedDivideResults := by
  intro rs rt s
  by_cases hc : s.cell rt = 0
  · exact ⟨_, _, computesHiLo_of_computeHiLo (exec_divu s rs rt) rfl (if_pos hc), fun _ => ⟨rfl, rfl⟩,
      fun h => absurd hc h⟩
  · refine ⟨_, _, computesHiLo_of_computeHiLo (exec_divu s rs rt) rfl (unsignedDivide_of_ne_zero hc), fun h => absurd h hc,
      fun _ => ⟨?_, ?_⟩⟩
    · rw [BitVec.toNat_udiv, BitVec.toNat_umod, Nat.div_add_mod']
    · exact BitVec.umod_lt _ ((BitVec.pos_iff_ne_zero _).2 hc)

/-- Settles O17: each form splits the sum or difference of HI and LO, joined, and its product modulo 2^64. -/
theorem accumulateResults : Obligations.AccumulateResults := by
  intro rs rt s
  rw [← signedProduct_eq_mul, ← unsignedProduct_eq_mul]
  exact ⟨computesHiLo_of_split64 (exec_madd s rs rt) rfl rfl, computesHiLo_of_split64 (exec_maddu s rs rt) rfl rfl,
    computesHiLo_of_split64 (exec_msub s rs rt) rfl rfl, computesHiLo_of_split64 (exec_msubu s rs rt) rfl rfl⟩

/-- Settles O18: by the check of `ADMIT_MTHI_MTLO` at the head of each form's arm. -/
theorem movesToHiLo : Obligations.MovesToHiLo := by
  refine fun rs s => ⟨fun h => ⟨?_, ?_⟩, fun h => ⟨?_, ?_⟩⟩
  · exact computes_of_move (by decide) ((exec_mthi s rs).trans (if_pos h)) rfl
  · exact computes_of_move (by decide) ((exec_mtlo s rs).trans (if_pos h)) rfl
  · exact (exec_mthi s rs).trans (if_neg (by simp [h]))
  · exact (exec_mtlo s rs).trans (if_neg (by simp [h]))

/-! ### The decoded records -/

section
variable {r : Record} {s : State}

/-- A well-formed record whose arm of `execRecord` is `compute` completes with the value of its function. -/
theorem recordComputes_of_compute {op : Opcode} {f : Word → Word → Word} (ha : r.a < 34)
    (hr : execRecord r s = compute op f r.a (srcB r) (srcC r) s) (hop : isTransfer op = false) :
    RecordComputes r s r.a (f (s.src (srcB r)) (s.src (srcC r))) := by
  obtain ⟨t, ht, hreg, hframe⟩ := compute_next op f ha (srcB r) (srcC r) s hop
  exact ⟨t, hr.trans ht, hreg, hframe⟩

theorem execRecord_mod (h : r.wf = true) (hop : r.opcode = .mod) :
    execRecord r s = compute .mod signedRemainder r.a (srcB r) (srcC r) s := by
  rw [execRecord, h, hop]
  rfl

theorem execRecord_modu (h : r.wf = true) (hop : r.opcode = .modu) :
    execRecord r s = compute .modu unsignedRemainder r.a (srcB r) (srcC r) s := by
  rw [execRecord, h, hop]
  rfl

theorem recordComputes_mod (h : r.wf = true) (hop : r.opcode = .mod) :
    RecordComputes r s r.a ((s.src (srcB r)).srem (s.src (srcC r))) := by
  obtain ⟨ha, -, -⟩ := (record_registers h).resolve_left (by simp [hop])
  exact signedRemainder_eq_srem ▸ recordComputes_of_compute ha (execRecord_mod h hop) rfl

theorem recordComputes_modu (h : r.wf = true) (hop : r.opcode = .modu) :
    RecordComputes r s r.a (s.src (srcB r) % s.src (srcC r)) := by
  obtain ⟨ha, -, -⟩ := (record_registers h).resolve_left (by simp [hop])
  exact unsignedRemainder_eq_umod ▸ recordComputes_of_compute ha (execRecord_modu h hop) rfl

end

/-- Settles O19: the records compute the library's remainders, whose value by zero is the dividend. -/
theorem remainderRecords : Obligations.RemainderRecords := by
  intro r s h
  constructor
  · refine fun hop => ⟨_, recordComputes_mod h hop, fun hc => ?_, fun hb hm => ?_, fun hc => ?_⟩
    · rw [hc]
      exact BitVec.srem_zero
    · rw [hb, hm]
      rfl
    · exact ⟨toInt_dvd_sub_toInt_srem, natAbs_toInt_srem_lt hc, srem_eq_zero_or_sign_eq⟩
  · refine fun hop => ⟨_, recordComputes_modu h hop, fun hc => ?_, fun _ => BitVec.toNat_umod⟩
    rw [hc]
    exact BitVec.umod_zero

end Sys2Proof.Machine
end

section
/-! SUPPORT. The load and store family (42_loadstore): the merged words of LWL and LWR, the bytes a store leaves in memory, and
the statements about its forms. A load is the shared operation `load`, a store `store`, each a function on words. -/

namespace Sys2Proof.Machine

/-! ### Parts and merges of a word -/

theorem loadedByte_eq (m ea : Word) : loadedByte m ea = m.extractLsb' (8 * (ea.toNat % 4)) 8 := by
  rw [loadedByte, byteOf, byteOffset_eq]

theorem loadedHalf_eq (m ea : Word) : loadedHalf m ea = m.extractLsb' (16 * (ea.toNat / 2 % 2)) 16 := by
  rw [loadedHalf, halfOffset_eq]

/-- A word is given by its four bytes. -/
theorem eq_of_byteOf_eq {v w : Word} (h : ∀ i, i < 4 → byteOf v i = byteOf w i) : v = w := by
  rw [← byteOf_join v, ← byteOf_join w, h 0 (by decide), h 1 (by decide), h 2 (by decide), h 3 (by decide)]

theorem toNat_not_mod_four (ea : Word) : (~~~ea).toNat % 4 = 3 - ea.toNat % 4 := by
  have := ea.isLt
  rw [BitVec.toNat_not]
  omega

theorem byteOffset_not (ea : Word) : byteOffset (~~~ea) = 3 - byteOffset ea := by
  rw [byteOffset_eq, byteOffset_eq, toNat_not_mod_four]

/-- LWL merges into `rt` as SWR merges into memory at the complementary byte offset. -/
theorem mergeLoadLeft_eq (m ea old : Word) : mergeLoadLeft m ea old = mergeStoreRight old m (~~~ea) := by
  rw [mergeLoadLeft, mergeStoreRight, byteOffset_not]

/-- LWR merges into `rt` as SWL merges into memory at the complementary byte offset. -/
theorem mergeLoadRight_eq (m ea old : Word) : mergeLoadRight m ea old = mergeStoreLeft old m (~~~ea) := by
  have hlt : byteOffset ea < 4 := BitVec.isLt _
  rw [mergeLoadRight, mergeStoreLeft, byteOffset_not, show 3 - (3 - byteOffset ea) = byteOffset ea by omega]

section
variable (m ea old : Word) {i : Nat}

/-- LWL puts the bytes up to the address at the top of `rt` (R288). -/
theorem byteOf_mergeLoadLeft (hi : i < 4) : byteOf (mergeLoadLeft m ea old) i =
    if 3 - ea.toNat % 4 ≤ i then byteOf m (i - (3 - ea.toNat % 4)) else byteOf old i := by
  rw [mergeLoadLeft_eq, byteOf_mergeStoreRight _ _ _ hi, toNat_not_mod_four]

/-- LWR puts the bytes from the address on at the bottom of `rt` (R289). -/
theorem byteOf_mergeLoadRight (hi : i < 4) : byteOf (mergeLoadRight m ea old) i =
    if i ≤ 3 - ea.toNat % 4 then byteOf m (i + ea.toNat % 4) else byteOf old i := by
  rw [mergeLoadRight_eq, byteOf_mergeStoreLeft _ _ _ hi, toNat_not_mod_four,
    show 3 - (3 - ea.toNat % 4) + i = i + ea.toNat % 4 by omega]

end

/-! ### Loads -/

section
variable {i : Instr} {s : State} {op : Opcode} {f : Word → Word → Word → Word} {rt base : Reg} {off : BitVec 16}

theorem lowAddressFaults_of_admitted (h : Admitted s base off) : s.lowAddressFaults (addressOf s base off) = false := by
  rcases h with h | h
  · simp [State.lowAddressFaults, Nat.not_le.2 h]
  · exact lowAddressFaults_of_aliased h

theorem Admitted.of_data (h : DataAccess s base off) : Admitted s base off := .inl (by omega)

/-- A form whose arm of `exec` is `load` completes, where the policy admits it, with the value of its function. -/
theorem computes_of_load (h : Admitted s base off) (hi : exec i s = load op f rt base (sext16 off) s)
    (hop : isTransfer op = false) {v : Word} (hv : f (accessedWord s base off) (addressOf s base off) (s.cell rt) = v) :
    Computes i s rt v := by
  obtain ⟨t, ht, hreg, hframe⟩ := load_next op f (reg_key rt) base (sext16 off) s hop (lowAddressFaults_of_admitted h)
  exact ⟨t, hi.trans ht, hv ▸ hreg, hframe⟩

/-- The word of a data access is its four bytes of memory. -/
theorem byteOf_accessedWord (h : DataAccess s base off) {j : Nat} (hj : j < 4) :
    byteOf (accessedWord s base off) j = Memory.byte s.mem (wordKey (addressOf s base off) + j) := by
  rw [accessedWord, s.cell_of_le (by omega), Memory.byteOf_word _ _ hj]

end

/-- Settles O21: each form is a load whose function takes the part of the word at the address. -/
theorem loadResults : Obligations.LoadResults := by
  intro rt base off s h
  dsimp only
  rw [← loadedByte_eq, ← loadedHalf_eq]
  exact ⟨computes_of_load h (exec_lb s rt base off) rfl rfl, computes_of_load h (exec_lbu s rt base off) rfl rfl,
    computes_of_load h (exec_lh s rt base off) rfl rfl, computes_of_load h (exec_lhu s rt base off) rfl rfl,
    computes_of_load h (exec_lw s rt base off) rfl rfl, computes_of_load h (exec_ll s rt base off) rfl rfl⟩

/-- Settles O22: each form is a load whose function merges the word into `rt`. -/
theorem mergeLoadResults : Obligations.MergeLoadResults := fun rt base off s h =>
  ⟨⟨_, computes_of_load h (exec_lwl s rt base off) rfl rfl, fun _ hi => byteOf_mergeLoadLeft _ _ _ hi⟩,
    ⟨_, computes_of_load h (exec_lwr s rt base off) rfl rfl, fun _ hi => byteOf_mergeLoadRight _ _ _ hi⟩⟩

/-! ### Loading an unaligned word -/

section
variable {s : State} {rt base : Reg} {off : BitVec 16}

/-- The state after a form that computes a register other than register 0. -/
theorem Computes.next_cell {i : Instr} {v : Word} (h : Computes i s rt v) (hrt : rt ≠ 0) :
    ∃ t, exec i s = .next t ∧ t.cell rt = v ∧ (∀ j : Nat, j < 34 → j ≠ rt → t.cell j = s.cell j) ∧ SameMemory s t := by
  obtain ⟨t, ht, hreg, hmem, -⟩ := h
  refine ⟨t, ht, ?_, fun j hj hne => (hreg j hj).trans (if_neg hne), hmem⟩
  rw [hreg rt (reg_key rt), if_pos rfl, storedValue, if_neg (Fin.val_ne_zero_iff.2 hrt)]

/-- LWR in terms of data memory: the bytes from the address to the end of its word, at the bottom of `rt` (R289). -/
theorem lwr_next (hrt : rt ≠ 0) (h : DataAccess s base off) :
    ∃ t, exec (.lwr rt base off) s = .next t ∧ (∀ j : Nat, j < 34 → j ≠ rt → t.cell j = s.cell j) ∧ SameMemory s t ∧
      ∀ i, i ≤ 3 - (addressOf s base off).toNat % 4 →
        byteOf (t.cell rt) i = Memory.byte s.mem ((addressOf s base off).toNat + i) := by
  obtain ⟨-, v, hv, hbytes⟩ := mergeLoadResults rt base off s (.of_data h)
  obtain ⟨t, ht, rfl, hreg, hmem⟩ := hv.next_cell hrt
  refine ⟨t, ht, hreg, hmem, fun i hi => ?_⟩
  rw [hbytes i (by omega), if_pos hi, byteOf_accessedWord h (by omega), wordKey_eq]
  congr 1
  omega

/-- LWL in terms of data memory: the bytes from the start of the address's word to the address, at the top of `rt`; the
other bytes of `rt` stay (R288). -/
theorem lwl_next (hrt : rt ≠ 0) (h : DataAccess s base off) :
    ∃ t, exec (.lwl rt base off) s = .next t ∧
      ∀ i, i < 4 → byteOf (t.cell rt) i = if 3 - (addressOf s base off).toNat % 4 ≤ i
        then Memory.byte s.mem ((addressOf s base off).toNat + i - 3) else byteOf (s.cell rt) i := by
  obtain ⟨⟨v, hv, hbytes⟩, -⟩ := mergeLoadResults rt base off s (.of_data h)
  obtain ⟨t, ht, rfl, -, -⟩ := hv.next_cell hrt
  refine ⟨t, ht, fun i hi => (hbytes i hi).trans ?_⟩
  split
  · rw [byteOf_accessedWord h (by omega), wordKey_eq]
    congr 1
    omega
  · rfl

end

/-- Settles O23: LWR leaves the bytes up to the end of the first word at the bottom of `rt`, LWL puts the others above. -/
theorem lwrThenLwlLoadsUnalignedWord : Obligations.LwrThenLwlLoadsUnalignedWord := by
  intro rt base off off3 s hrt hne hoff hlow hhigh
  dsimp only
  have hdata : DataAccess s base off := by rw [DataAccess, wordKey_eq]; omega
  obtain ⟨t, ht, hreg, hmem, hright⟩ := lwr_next hrt hdata
  have hea : (addressOf t base off3).toNat = (addressOf s base off).toNat + 3 := by
    have hbase : t.cell base = s.cell base := hreg base (reg_key base) (Fin.val_ne_of_ne hne.symm)
    have : addressOf t base off3 = addressOf s base off + 3#32 := by
      simp only [addressOf, State.effectiveAddress, sext16, hbase, hoff, BitVec.add_assoc]
    rw [this, BitVec.toNat_add]
    exact Nat.mod_eq_of_lt hhigh
  have hdata3 : DataAccess t base off3 := by rw [DataAccess, wordKey_eq]; omega
  obtain ⟨u, hu, hleft⟩ := lwl_next hrt hdata3
  refine ⟨t, u, ht, hu, eq_of_byteOf_eq fun i hi => ?_⟩
  refine Eq.trans ?_ (Memory.byteOf_word s.mem _ hi).symm
  rw [hleft i hi, hea]
  split
  · rw [hmem]
    congr 1
    omega
  · exact hright i (by omega)

/-! ### Stores -/

/-- What a store to the data word at `wa` leaves at every byte address. -/
theorem OnlyWord.byte {s t : State} {wa : Nat} {v : Word} (h : OnlyWord s t wa v) (hwa : 36 ≤ wa) (h4 : wa % 4 = 0)
    (a : Nat) : Memory.byte t.mem a = if a / 4 = wa / 4 then byteOf v (a % 4) else Memory.byte s.mem a := by
  obtain ⟨hword, hother⟩ := h
  split
  · have haddr : wa + a % 4 = a := by omega
    rw [← hword, t.cell_of_le (by omega), Memory.byteOf_word _ _ (Nat.mod_lt _ (by decide)), haddr]
  · exact hother a (by omega)

section
variable {i : Instr} {s : State} {op : Opcode} {f : Word → Word → Word → Word} {rt base : Reg} {off : BitVec 16}

/-- A form whose arm of `exec` is `store`, and whose function replaces the bytes `p` of the word by those of `b`, replaces
them in memory: there `c` says which byte addresses they are. -/
theorem stores_of_merge (h : DataAccess s base off) (hi : exec i s = store op f rt base (sext16 off) s)
    (hop : isTransfer op = false) {p c : Nat → Prop} [DecidablePred p] [DecidablePred c] {b : Nat → Byte}
    (hf : ∀ j, j < 4 → byteOf (f (accessedWord s base off) (s.cell rt) (addressOf s base off)) j =
      if p j then b j else byteOf (accessedWord s base off) j)
    (hc : ∀ a, c a ↔ a / 4 = (addressOf s base off).toNat / 4 ∧ p (a % 4)) :
    ∃ t, exec i s = .next t ∧ SameRegisters s t ∧ Advances s t (s.npc + 4) false ∧
      ∀ a, Memory.byte t.mem a = if c a then b (a % 4) else Memory.byte s.mem a := by
  obtain ⟨t, ht, hreg, hword, hadv⟩ := store_next op f rt base (sext16 off) s hop h
  have hkey : wordKey (addressOf s base off) = 4 * ((addressOf s base off).toNat / 4) := wordKey_eq _
  have hmem : ∀ a, Memory.byte t.mem a = if a / 4 = wordKey (addressOf s base off) / 4
      then byteOf (f (accessedWord s base off) (s.cell rt) (addressOf s base off)) (a % 4)
      else Memory.byte s.mem a := hword.byte h (by rw [wordKey_eq]; omega)
  refine ⟨t, hi.trans ht, hreg, hadv, fun a => (hmem a).trans ?_⟩
  split
  · have hmod : a % 4 < 4 := Nat.mod_lt _ (by decide)
    have haddr : wordKey (addressOf s base off) + a % 4 = a := by omega
    rw [hf _ hmod, byteOf_accessedWord h hmod, haddr]
    exact if_congr ((hc a).trans (and_iff_right (by omega))).symm rfl rfl
  · exact (if_neg fun hca => absurd ((hc a).1 hca).1 (by omega)).symm

end

/-- Settles O24: each form is a store whose function replaces the bytes at the address. -/
theorem storeResults : Obligations.StoreResults := by
  intro rt base off s h
  have hhalf (a : Nat) : a % 4 % 2 = a % 2 := Nat.mod_mod_of_dvd a (by decide)
  refine ⟨?_, ?_, ?_⟩
  · exact stores_of_merge h (exec_sb s rt base off) rfl (fun _ hj => byteOf_mergeByte _ _ _ hj) fun a => by omega
  · simpa only [hhalf] using
      stores_of_merge h (exec_sh s rt base off) rfl (fun _ hj => byteOf_mergeHalf _ _ _ hj) fun a => by omega
  · exact stores_of_merge h (exec_sw s rt base off) rfl (p := fun _ => True) (fun _ _ => (if_pos trivial).symm)
      fun _ => (and_iff_left trivial).symm

/-- Settles O25: each form is a store whose function replaces the bytes of the word on one side of the address. -/
theorem mergeStoreResults : Obligations.MergeStoreResults := fun rt base off s h =>
  ⟨stores_of_merge h (exec_swl s rt base off) rfl (fun _ hj => byteOf_mergeStoreLeft _ _ _ hj) fun a => by omega,
    stores_of_merge h (exec_swr s rt base off) rfl (fun _ hj => byteOf_mergeStoreRight _ _ _ hj) fun a => by omega⟩

/-! ### SC -/

/-- SC to a data word writes the word, then 1 to `rt`, and nothing else (R296). -/
theorem storeConditional_next {rt : Nat} (hrt : rt < 34) (base : Nat) (off : Word) (s : State)
    (h : 36 ≤ wordKey (s.effectiveAddress base off)) :
    ∃ t, storeConditional rt base off s = .next t ∧ OnlyRegister s t rt 1 ∧
      OnlyWord s t (wordKey (s.effectiveAddress base off)) (s.cell rt) ∧ Advances s t (s.npc + 4) false := by
  simp only [storeConditional, lowAddressFaults_of_data h]
  refine ⟨_, rfl, fun j hj => ?_, ⟨?_, fun a ha => ?_⟩, ?_⟩
  · rw [Cycle.retire_cell, Cycle.write_cell, State.cell_setCell_reg _ _ _ hj, Cycle.write_cell,
      State.cell_setCell_data _ _ h hj, Cycle.read_cell, State.begin_st]
  · rw [Cycle.retire_cell, Cycle.write_cell,
      State.cell_setCell_other _ _ (.inl hrt) (validKey_wordKey _) (by omega), Cycle.write_cell,
      State.cell_setCell_same, storedValue, if_neg (by omega)]
  · rw [Cycle.retire_mem, Cycle.write_mem, setData_reg _ _ hrt, Cycle.write_mem, setData_byte_outside _ _ ha,
      Cycle.read_mem, State.begin_st]
  · constructor <;> simp [isTransfer]

/-- Settles O26: the word is stored before 1 is written to `rt`, which no data word is. -/
theorem storeConditionalAlwaysSucceeds : Obligations.StoreConditionalAlwaysSucceeds := fun rt base off s h =>
  storeConditional_next (reg_key rt) base (sext16 off) s h

end Sys2Proof.Machine
end

section
/-! SUPPORT. The branch family (43_branch): the conditions and the offset in the statements' terms, where a completed
instruction leaves pc and npc, what a step on a fetched word leaves, and the statements about branches and delay slots. -/

namespace Sys2Proof.Machine

/-! ### Conditions, offsets and segments -/

theorem condEq_eq_beq (a b : Word) : condEq a b = (a == b) := rfl

theorem condNe_eq_bne (a b : Word) : condNe a b = (a != b) := decide_not

theorem condLtz_eq_msb (a b : Word) : condLtz a b = a.msb := BitVec.msb_eq_toInt.symm

theorem condGez_eq_not_condLtz (a b : Word) : condGez a b = !condLtz a b := by
  simp only [condGez, condLtz, ← decide_not, Int.not_lt]

/-- At most 0 is below 0 or 0 itself. -/
theorem condLez_eq_msb_or (a b : Word) : condLez a b = (a.msb || a == 0) := by
  have hzero : a = 0 ↔ a.toInt = 0 := BitVec.toInt_inj.symm
  simp only [condLez, BitVec.msb_eq_toInt, beq_eq_decide, hzero, ← Bool.decide_or, Int.le_iff_lt_or_eq]

theorem condGtz_eq_not_condLez (a b : Word) : condGtz a b = !condLez a b := by
  simp only [condGtz, condLez, ← decide_not, Int.not_le]

/-- An offset in words is four times as many bytes. -/
theorem branchOffset_eq_mul (v : BitVec 16) : branchOffset v = v.signExtend 32 * 4 :=
  BitVec.shiftLeft_eq_mul_twoPow ..

/-- The 26-bit index, shifted by two, under the top four bits of `npc` (44_jump R341): bit by bit, below 2, below 28, and
above. -/
theorem segmentTarget_jumpIndex (npc : Word) (index : BitVec 26) :
    segmentTarget npc (jumpIndex index) = npc.extractLsb' 28 4 ++ index ++ 0#2 := by
  ext i hi
  have hmask : (0xF0000000#32).getLsbD i = decide (28 ≤ i) := by interval_cases i <;> rfl
  rw [← BitVec.getLsbD_eq_getElem, ← BitVec.getLsbD_eq_getElem, segmentTarget, jumpIndex]
  simp only [BitVec.getLsbD_or, BitVec.getLsbD_and, BitVec.getLsbD_shiftLeft, BitVec.getLsbD_setWidth,
    BitVec.getLsbD_append, BitVec.getLsbD_extractLsb', BitVec.getLsbD_zero, hmask]
  grind

/-! ### The forms -/

section
variable {i : Instr} {s t : State} {op : Opcode} {v : Word}

theorem Transfers.npc (h : Transfers i s v) (ht : exec i s = .next t) : t.npc = v := by
  obtain ⟨u, hu, -, -, ha⟩ := h
  cases ht.symm.trans hu
  exact ha.npc

/-- A form whose arm of `exec` is `branch` goes to its target or past its delay slot. -/
theorem transfers_of_branch {cond : Word → Word → Bool} {a b : Nat} {off : BitVec 16}
    (hi : exec i s = branch op cond a b (branchOffset off) s) (hop : isTransfer op = true) {taken : Bool}
    (hc : cond (s.cell a) (s.cell b) = taken) :
    Transfers i s (if taken then s.npc + off.signExtend 32 * 4 else s.npc + 4) := by
  obtain ⟨t, ht, hframe⟩ := branch_next op cond a b (branchOffset off) s hop
  rw [hc, branchOffset_eq_mul] at hframe
  exact ⟨t, hi.trans ht, hframe⟩

/-- A jump goes to its target. -/
theorem npc_of_jumpTo {a : Nat} {b : Src} {c : Word} (h : jumpTo op a b c v s = .next t) : t.npc = v := by
  cases h
  rfl

/-- A Jumpi that is not refused goes to the index in the segment of `npc`. -/
theorem npc_of_jumpImmediate {a : Nat} {index : BitVec 26} {c : Word}
    (h : jumpImmediate a (jumpIndex index) c s = .next t) : t.npc = s.npc.extractLsb' 28 4 ++ index ++ 0#2 := by
  unfold jumpImmediate at h
  split at h
  · exact nomatch h
  · exact (npc_of_jumpTo h).trans (segmentTarget_jumpIndex _ _)

end

/-- Settles O29: each form is `branch` of its condition, a comparison with 0 read off the sign bit. -/
theorem branchTargets : Obligations.BranchTargets := by
  intro rs rt off s
  have hlez := condLez_eq_msb_or (s.cell rs) (s.cell 0)
  have hltz := condLtz_eq_msb (s.cell rs) (s.cell 0)
  refine ⟨transfers_of_branch (exec_beq ..) rfl (condEq_eq_beq _ _),
    transfers_of_branch (exec_bne ..) rfl (condNe_eq_bne _ _),
    transfers_of_branch (exec_blez ..) rfl hlez, transfers_of_branch (exec_bgtz ..) rfl ?_,
    transfers_of_branch (exec_bltz ..) rfl hltz, transfers_of_branch (exec_bgez ..) rfl ?_⟩
  · rw [condGtz_eq_not_condLez, hlez, Bool.not_or, bne]
  · rw [condGez_eq_not_condLtz, hltz]

/-! ### Where a completed instruction leaves pc and npc -/

/-- The instruction is no SYSCALL whose answer overrides the pc update (46_system R380). -/
def KeepsPcUpdate (i : Instr) (s : State) : Prop :=
  i.isSyscall = true → ∃ resp rest, s.hostAnswer (s.cell 2) (s.cell 4) = some (resp, rest) ∧ resp.jump = none

section
variable {i : Instr} {s t : State}

theorem target_of_not_isTransfer (h : i.isTransfer = false) : i.target s = s.npc + 4 := by
  cases i with
  | beq | bne | blez | bgtz | bltz | bgez | j | jal | jr | jalr | bal => exact nomatch h
  | _ => rfl

theorem keepsPcUpdate_of_isTransfer (h : i.isTransfer = true) : KeepsPcUpdate i s := by
  cases i with
  | syscall code => exact nomatch h
  | _ => exact nofun

/-- A branch or jump that completes moves `npc` to its target. -/
theorem npc_of_isTransfer (hi : i.isTransfer = true) (h : exec i s = .next t) : t.npc = i.target s := by
  cases i with
  | beq rs rt off => exact (transfers_of_branch (exec_beq ..) rfl (condEq_eq_beq _ _)).npc h
  | bne rs rt off => exact (transfers_of_branch (exec_bne ..) rfl (condNe_eq_bne _ _)).npc h
  | blez rs off => exact (transfers_of_branch (exec_blez ..) rfl rfl).npc h
  | bgtz rs off => exact (transfers_of_branch (exec_bgtz ..) rfl rfl).npc h
  | bltz rs off => exact (transfers_of_branch (exec_bltz ..) rfl rfl).npc h
  | bgez rs off => exact (transfers_of_branch (exec_bgez ..) rfl rfl).npc h
  | j index => exact npc_of_jumpImmediate ((exec_j ..).symm.trans h)
  | jal index => exact npc_of_jumpImmediate ((exec_jal ..).symm.trans h)
  | jr rs => exact npc_of_jumpTo ((exec_jr ..).symm.trans h)
  | jalr rd rs => exact npc_of_jumpTo ((exec_jalr ..).symm.trans h)
  | bal off => exact (npc_of_jumpTo ((exec_bal ..).symm.trans h)).trans (congrArg (s.npc + ·) (branchOffset_eq_mul off))
  | _ => exact nomatch hi

/-- A response that does not override the pc update moves `pc` and `npc` on, whatever its handler accesses. -/
theorem pc_npc_of_applyResponse (code : Word) {resp : Response} (hw : resp.writesData = true)
    (hr : resp.readsCells = true) (rest : List (Word × Response)) (s : State) (hj : resp.jump = none) :
    (applyResponse code resp rest s).pc = s.npc ∧ (applyResponse code resp rest s).npc = s.npc + 4 := by
  have hx : Reaches s (handlerCycle resp s) :=
    ((Reaches.start.read .c (.inl (by decide))).read .b (.inl (by decide))).hostAccesses resp
      (validKey_of_writesData hw) (validKey_of_readsCells hr)
  simp only [applyResponse, Cycle.retire_pc, Cycle.retire_npc, hj]
  exact ⟨hx.sameControl.npc, rfl⟩

/-- A completed instruction that keeps the pc update moves `pc` to `npc` and `npc` to the instruction's target (10_state R52). -/
theorem pc_npc_of_exec (h : exec i s = .next t) (hk : KeepsPcUpdate i s) : t.pc = s.npc ∧ t.npc = i.target s := by
  cases hi : i.isSyscall with
  | false =>
    obtain ⟨-, -, hmoves⟩ := pcAndClockAdvance i s t h
    obtain ⟨hpc, -, hnpc⟩ := hmoves hi
    refine ⟨hpc, ?_⟩
    cases ht : i.isTransfer with
    | false => rw [hnpc ht, target_of_not_isTransfer ht]
    | true => exact npc_of_isTransfer ht h
  | true =>
    obtain ⟨resp, rest, hanswer, hnone⟩ := hk hi
    cases i with
    | syscall code =>
      obtain ⟨_, _, hanswer', -, hwrites, hreads, -, -, rfl⟩ := systemCall_next h
      cases hanswer.symm.trans hanswer'
      exact pc_npc_of_applyResponse _ hwrites hreads rest s hnone
    | _ => exact nomatch hi

/-! ### The step on a fetched word -/

/-- A cycle that closes with a next state closes with the shard check. -/
theorem eq_shardCheck_of_closeCycle (h : closeCycle s = .next t) : t = s.shardCheck := by
  unfold closeCycle at h
  split at h
  · split at h
    · exact nomatch h
    · cases h; rfl
  · cases h; rfl

theorem andThen_eq_next {r : Result} {f : State → Result} (h : andThen r f = .next t) :
    ∃ u, r = .next u ∧ f u = .next t := by
  cases r with
  | next u => exact ⟨u, rfl, h⟩
  | fault e => exact nomatch h
  | refused e => exact nomatch h

/-- A step on a word that decodes ends with the shard check of the state its instruction completes with. -/
theorem step_word_next {w : Word} (hf : s.fetch = .slot (.word w)) (hi : decode w = .instr i) (h : step s = .next t) :
    ∃ u, exec i s = .next u ∧ t = u.shardCheck := by
  rw [step_of_slot hf, execSlot_word hi] at h
  obtain ⟨u, hu, hclose⟩ := andThen_eq_next h
  exact ⟨u, hu, eq_shardCheck_of_closeCycle hclose⟩

/-- What a step on a word leaves in `pc` and `npc`, as `pc_npc_of_exec` says of its instruction. -/
theorem pc_npc_of_step_word {w : Word} (hf : s.fetch = .slot (.word w)) (hi : decode w = .instr i)
    (h : step s = .next t) (hk : KeepsPcUpdate i s) : t.pc = s.npc ∧ t.npc = i.target s := by
  obtain ⟨u, hu, rfl⟩ := step_word_next hf hi h
  rw [State.shardCheck_pc, State.shardCheck_npc]
  exact pc_npc_of_exec hu hk

end

/-- Settles O33: by the step on a word twice, the second at the place the first left in `pc`. -/
theorem delaySlotThenTarget : Obligations.DelaySlotThenTarget := by
  intro i d s t w w' hi hf hw hs
  obtain ⟨hpc, hnpc⟩ := pc_npc_of_step_word hf hw hs (keepsPcUpdate_of_isTransfer hi)
  refine ⟨hpc, hnpc, ?_, fun hd h4 hplace hw' => ?_⟩
  · obtain ⟨u, hu, rfl⟩ := step_word_next hf hw hs
    rw [State.shardCheck_nextIsDelayslot, (pcAndClockAdvance i s u hu).1, hi]
  · obtain ⟨hprogram, hbase, -⟩ := programIsImmutable s t hs
    rw [← hpc, ← hbase] at h4 hplace
    rw [← hprogram] at hplace
    refine ⟨(stepRunsDecodedInstruction t hd h4).1 w' d hplace hw', fun u hu hk => ?_⟩
    obtain ⟨hpc', hnpc'⟩ := pc_npc_of_step_word (fetch_slot hd h4 hplace) hw' hu hk
    rw [hnpc] at hpc'
    exact ⟨hpc', hnpc', fun ht => by rw [hnpc', target_of_not_isTransfer ht, hnpc]⟩

end Sys2Proof.Machine
end

section
/-! SUPPORT. The jump family (44_jump): a jump that is not refused transfers control and links, and when a Jumpi
is refused. -/

namespace Sys2Proof.Machine

/-- Register 0 holds 0 before and after, so changing only register 0 changes none (10_state R31). -/
theorem OnlyRegister.sameRegisters {s t : State} {v : Word} (h : OnlyRegister s t 0 v) : SameRegisters s t := by
  intro j hj
  rw [h j hj]
  split
  · next hzero => subst hzero; simp [storedValue]
  · rfl

theorem extractLsb'_segment_eq_zero_iff (npc : Word) : npc.extractLsb' 28 4 = 0 ↔ npc.toNat < 2 ^ 28 := by
  rw [← BitVec.toNat_inj, BitVec.extractLsb'_toNat, Nat.shiftRight_eq_div_pow,
    show (0 : BitVec 4).toNat = 0 from rfl]
  omega

section
variable {i : Instr} {s : State} {op : Opcode} {v : Word}

/-- A form whose arm of `exec` is `jumpTo` goes to the target and links; register 0 takes no link. -/
theorem links_of_jumpTo {k : Reg} {b : Src} {c : Word} (hi : exec i s = jumpTo op k b c v s)
    (hop : isTransfer op = true) : Links i s k v := by
  obtain ⟨t, ht, hframe⟩ := jumpTo_next op (reg_key k) b c v s hop
  exact ⟨t, hi.trans ht, hframe⟩

/-- A link to register 0 is none: only control is transferred. -/
theorem Links.transfers (h : Links i s 0 v) : Transfers i s v := by
  obtain ⟨t, ht, hreg, hframe⟩ := h
  exact ⟨t, ht, hreg.sameRegisters, hframe⟩

/-- Below the high segments, or where they are admitted, a Jumpi is a jump into the segment of `npc`. -/
theorem jumpImmediate_of_admitted (h : s.npc.toNat < 2 ^ 28 ∨ s.params.jumpiHighSegment = .mips32) (a : Nat)
    (b c : Word) :
    jumpImmediate a b c s = jumpTo .jumpi a (.imm b) c (segmentTarget s.npc b) s := by
  refine if_neg fun ⟨hhigh, hrefuse⟩ => ?_
  rcases h with hlow | hmips
  · exact hhigh ((extractLsb'_segment_eq_zero_iff _).2 hlow)
  · exact nomatch hmips.symm.trans hrefuse

theorem jumpImmediate_of_refused (hhigh : 2 ^ 28 ≤ s.npc.toNat) (hrefuse : s.params.jumpiHighSegment = .refuse)
    (a : Nat) (b c : Word) : jumpImmediate a b c s = .refused .jumpiHighSegment :=
  if_pos ⟨fun hzero => hhigh.not_gt ((extractLsb'_segment_eq_zero_iff _).1 hzero), hrefuse⟩

/-- A form whose arm of `exec` is an admitted Jumpi links and goes to the index in the segment of `npc`. -/
theorem links_of_jumpImmediate {k : Reg} {index : BitVec 26} {c : Word}
    (hi : exec i s = jumpImmediate k (jumpIndex index) c s)
    (h : s.npc.toNat < 2 ^ 28 ∨ s.params.jumpiHighSegment = .mips32) :
    Links i s k (s.npc.extractLsb' 28 4 ++ index ++ 0#2) := by
  rw [jumpImmediate_of_admitted h, segmentTarget_jumpIndex] at hi
  exact links_of_jumpTo hi rfl

end

/-- Settles O30: each form is `jumpTo`, JR's link register being 0. -/
theorem registerAndRelativeJumps : Obligations.RegisterAndRelativeJumps := by
  intro rd rs off s
  have hjr : Links (.jr rs) s (0 : Reg) (s.cell rs) := links_of_jumpTo (exec_jr ..) rfl
  have hbal : Links (.bal off) s (31 : Reg) (s.npc + branchOffset off) := links_of_jumpTo (exec_bal ..) rfl
  rw [branchOffset_eq_mul] at hbal
  exact ⟨hjr.transfers, links_of_jumpTo (exec_jalr ..) rfl, hbal⟩

/-- Settles O31: both forms are `jumpImmediate`, J's link register being 0. -/
theorem immediateJumps : Obligations.ImmediateJumps := by
  refine fun index s => ⟨fun h => ⟨?_, ?_⟩, fun hhigh hrefuse => ⟨?_, ?_⟩⟩
  · exact Links.transfers (links_of_jumpImmediate (k := 0) (exec_j ..) h)
  · exact links_of_jumpImmediate (k := 31) (exec_jal ..) h
  · exact (exec_j ..).trans (jumpImmediate_of_refused hhigh hrefuse ..)
  · exact (exec_jal ..).trans (jumpImmediate_of_refused hhigh hrefuse ..)

end Sys2Proof.Machine
end

section
/-! SUPPORT. The misc family (45_misc): the bits of an extracted and of an inserted field, and what EXT, INS and TEQ do
in each of their cases. -/

namespace Sys2Proof.Machine

/-! ### Moves and extensions -/

theorem moveIfNotZero_eq (b c old : Word) : moveIfNotZero b c old = if c = 0 then old else b := ite_not ..

theorem signExtendPart_zero (b : Word) : signExtendPart b 0 = (b.setWidth 8).signExtend 32 := by
  rw [BitVec.setWidth_eq_extractLsb' (by decide)]
  rfl

theorem signExtendPart_one (b : Word) : signExtendPart b 1 = (b.setWidth 16).signExtend 32 := by
  rw [BitVec.setWidth_eq_extractLsb' (by decide)]
  rfl

/-! ### The bounds of a field -/

theorem toNat_fieldBounds (m l : BitVec 5) : (fieldBounds m l).toNat = 32 * m.toNat + l.toNat := by
  have hm : m.toNat < 32 := m.isLt
  have hl : l.toNat < 2 ^ 5 := l.isLt
  rw [fieldBounds, zext5, zext5, BitVec.toNat_or, BitVec.toNat_shiftLeft, BitVec.toNat_setWidth, BitVec.toNat_setWidth,
    Nat.mod_eq_of_lt (by omega), Nat.mod_eq_of_lt (by omega), Nat.shiftLeft_eq, Nat.mod_eq_of_lt (by omega),
    Nat.mul_comm, ← Nat.two_pow_add_eq_or_of_lt hl]

theorem fieldLsb_eq_mod (c : Word) : fieldLsb c = c.toNat % 32 := shiftAmount_eq_mod c

theorem fieldMsb_eq_div (c : Word) : fieldMsb c = c.toNat / 32 := by
  rw [fieldMsb, BitVec.toNat_ushiftRight, Nat.shiftRight_eq_div_pow]

theorem fieldLsb_fieldBounds (m l : BitVec 5) : fieldLsb (fieldBounds m l) = l.toNat := by
  rw [fieldLsb_eq_mod, toNat_fieldBounds]
  omega

theorem fieldMsb_fieldBounds (m l : BitVec 5) : fieldMsb (fieldBounds m l) = m.toNat := by
  rw [fieldMsb_eq_div, toNat_fieldBounds]
  omega

/-! ### The bits of a field -/

section
variable (b c old : Word) {i : Nat}

/-- The mask of the `n` low bits: it is the complement of the word of ones shifted by `n`. -/
theorem getLsbD_lowBits (n : Nat) (hi : i < 32) : ((1#32 <<< n) - 1).getLsbD i = decide (i < n) := by
  have hones : (1#32 <<< n) - 1 = ~~~(BitVec.allOnes 32 <<< n) := by
    rw [← BitVec.neg_one_eq_allOnes, BitVec.shiftLeft_neg]
    exact (BitVec.not_neg _).symm
  rw [hones, BitVec.getLsbD_not, BitVec.getLsbD_shiftLeft, BitVec.getLsbD_allOnes]
  simp [hi, show i - n < 32 by omega]

/-- Bit `i` of the field EXT takes (R365). -/
theorem getLsbD_extractField (hi : i < 32) :
    (extractField b c).getLsbD i = (decide (i ≤ fieldMsb c) && b.getLsbD (i + fieldLsb c)) := by
  rw [extractField, BitVec.getLsbD_and, BitVec.getLsbD_ushiftRight, getLsbD_lowBits _ hi, Bool.and_comm, Nat.add_comm i]
  simp only [Nat.lt_succ_iff]

theorem getLsbD_insertMask (h : fieldLsb c ≤ fieldMsb c) (hi : i < 32) :
    (insertMask c).getLsbD i = decide (fieldLsb c ≤ i ∧ i ≤ fieldMsb c) := by
  rw [insertMask, BitVec.getLsbD_shiftLeft, getLsbD_lowBits _ (by omega)]
  rw [Bool.eq_iff_iff]
  simp only [Bool.and_eq_true, Bool.not_eq_true', decide_eq_true_eq, decide_eq_false_iff_not]
  omega

/-- Bit `i` of the word INS leaves (R366). -/
theorem getLsbD_insertField (h : fieldLsb c ≤ fieldMsb c) (hi : i < 32) :
    (insertField b c old).getLsbD i =
      if fieldLsb c ≤ i ∧ i ≤ fieldMsb c then b.getLsbD (i - fieldLsb c) else old.getLsbD i := by
  simp only [insertField, BitVec.getLsbD_or, BitVec.getLsbD_and, BitVec.getLsbD_not, BitVec.getLsbD_shiftLeft,
    getLsbD_insertMask c h hi, hi]
  split
  · next hin => simp [hin]
  · next hout => simp [hout]

end

/-! ### The forms -/

section
variable {i : Instr} {s : State} {op : Opcode} {f : Word → Word → Word → Word} {a : Reg} {b c : Src}

/-- A form whose arm of `exec` is `computeOld` completes with the value of its function. -/
theorem computes_of_computeOld (hi : exec i s = computeOld op f a b c s) (hop : isTransfer op = false) {v : Word}
    (hv : f (s.src b) (s.src c) (s.cell a) = v) : Computes i s a v := by
  obtain ⟨t, ht, hreg, hframe⟩ := computeOld_next op f (reg_key a) b c s hop
  exact ⟨t, hi.trans ht, hv ▸ hreg, hframe⟩

end

section
variable {c : Word} (a b : Nat) (s : State)

theorem extractBits_of_le (h : fieldLsb c + fieldMsb c ≤ 31) :
    extractBits a b c s = compute .ext extractField a (.reg b) (.imm c) s := if_neg h.not_gt

theorem extractBits_of_gt (h : 31 < fieldLsb c + fieldMsb c) :
    extractBits a b c s = .refused .unpredictableExt := if_pos h

theorem insertBits_of_le (h : fieldLsb c ≤ fieldMsb c) :
    insertBits a b c s = computeOld .ins insertField a (.reg b) (.imm c) s := if_neg h.not_gt

theorem insertBits_of_lt (h : fieldMsb c < fieldLsb c) :
    insertBits a b c s = .refused .unpredictableIns := if_pos h

variable {a b s}

theorem trapIfEqual_of_eq (h : s.cell a = s.cell b) : trapIfEqual a b c s = .fault (.trap s.pc) := if_pos h

/-- A comparison that finds different values changes no register and no memory (R367). -/
theorem trapIfEqual_next (h : s.cell a ≠ s.cell b) :
    ∃ t, trapIfEqual a b c s = .next t ∧ SameRegisters s t ∧ SameMemory s t ∧ Advances s t (s.npc + 4) false := by
  refine ⟨_, if_neg h, fun j _ => by simp, fun a => by simp, ?_⟩
  constructor <;> simp [isTransfer]

end

/-! ### The obligations -/

/-! A namespace of their own: three of the obligations have the name of the operation they speak of. -/
namespace Misc

/-- Settles O34: each form is `compute` or `computeOld` of its function, and WSBH's word joins the swapped bytes. -/
theorem movesExtensionsAndSwap : Obligations.MovesExtensionsAndSwap := fun rd rs rt s =>
  ⟨computes_of_computeOld (exec_movz s rd rs rt) rfl rfl,
    computes_of_computeOld (exec_movn s rd rs rt) rfl (moveIfNotZero_eq ..),
    computes_of_compute (exec_seb s rd rt) rfl (signExtendPart_zero _),
    computes_of_compute (exec_seh s rd rt) rfl (signExtendPart_one _),
    ⟨_, computes_of_compute (exec_wsbh s rd rt) rfl rfl, byteOf_append ..⟩⟩

/-- Settles O35: with the bounds read back from the packed word, EXT is `extractBits`, whose field is known bit by bit. -/
theorem extractField : Obligations.ExtractField := by
  intro rt rs msbd lsb s
  rw [← fieldLsb_fieldBounds msbd lsb, ← fieldMsb_fieldBounds msbd lsb]
  refine ⟨fun hfits => ?_, fun hruns => (exec_ext ..).trans (extractBits_of_gt _ _ _ hruns)⟩
  have hexec := (exec_ext s rt rs msbd lsb).trans (extractBits_of_le _ _ _ hfits)
  exact ⟨_, computes_of_compute hexec rfl rfl, fun _ hi => getLsbD_extractField _ _ hi⟩

/-- Settles O36: with the bounds read back from the packed word, INS is `insertBits`, whose word is known bit by bit. -/
theorem insertField : Obligations.InsertField := by
  intro rt rs msb lsb s
  rw [← fieldLsb_fieldBounds msb lsb, ← fieldMsb_fieldBounds msb lsb]
  refine ⟨fun hle => ?_, fun hlt => (exec_ins ..).trans (insertBits_of_lt _ _ _ hlt)⟩
  have hexec := (exec_ins s rt rs msb lsb).trans (insertBits_of_le _ _ _ hle)
  exact ⟨_, computes_of_computeOld hexec rfl rfl, fun _ hi => getLsbD_insertField _ _ _ hle hi⟩

/-- Settles O37: TEQ is `trapIfEqual`, which raises Trap on equal values and otherwise only reads. -/
theorem trapIfEqual : Obligations.TrapIfEqual := by
  refine fun rs rt code s => ⟨fun h => (exec_teq ..).trans (trapIfEqual_of_eq h), fun h => ?_⟩
  obtain ⟨t, ht, hframe⟩ := trapIfEqual_next (c := 0) h
  exact ⟨t, (exec_teq ..).trans ht, hframe⟩

end Misc

end Sys2Proof.Machine
end

section
/-! SUPPORT. The system family (46_system): which answer of the port, or lack of one, SYSCALL completes or stops with, what a
completed SYSCALL leaves, the port's answer to HALT, and BREAK and UNIMPL. -/

namespace Sys2Proof.Machine

/-! ### What SYSCALL answers -/

theorem Response.writesData_iff (r : Response) :
    r.writesData = true ↔ ∀ e ∈ r.writes, 36 ≤ e.1.toNat ∧ e.1.toNat % 4 = 0 := by
  simp [Response.writesData, List.all_eq_true, and_comm]

theorem Response.readsCells_iff (r : Response) :
    r.readsCells = true ↔ ∀ k ∈ r.reads, k.toNat < 34 ∨ (36 ≤ k.toNat ∧ k.toNat % 4 = 0) := by
  simp [Response.readsCells, List.all_eq_true, and_comm]

section
variable {s : State} {resp : Response} {rest : List (Word × Response)}

theorem systemCall_of_no_answer (h : s.hostAnswer (s.cell 2) (s.cell 4) = none) :
    systemCall s = .fault (.unsupportedSyscall (s.cell 2)) := by
  simp only [systemCall, h, raise]

variable (h : s.hostAnswer (s.cell 2) (s.cell 4) = some (resp, rest))
include h

theorem systemCall_of_fault {f : HostFault} (hf : resp.fault = some f) :
    systemCall s = .fault (hostFault (s.cell 2) f) := by
  simp only [systemCall, h, hf, raise]

/-- What an answer without a fault is checked for, in the model's order (assumption log 19). -/
theorem systemCall_of_no_fault (hf : resp.fault = none) : systemCall s =
    if resp.writesData = false then .refused .hostWritesRegisters
    else if resp.readsCells = false then .refused .hostReadsNoCell
    else if s.params.maxSyscallCycles.toNat < resp.extra.toNat then .refused .hostExtraTooLarge
    else if resp.halt.getD 0 ≠ 0 then .fault (.haltWithNonZeroExitCode (resp.halt.getD 0))
    else .next (applyResponse (s.cell 2) resp rest s) := by
  simp only [systemCall, h, hf, Bool.not_eq_true', raise, refuse, gt_iff_lt]

/-- An answer that passes the checks either halts with a nonzero code or is applied. -/
theorem systemCall_of_admissible (hf : resp.fault = none) (hw : resp.writesData = true) (hr : resp.readsCells = true)
    (he : resp.extra.toNat ≤ s.params.maxSyscallCycles.toNat) : systemCall s =
    if resp.halt.getD 0 ≠ 0 then .fault (.haltWithNonZeroExitCode (resp.halt.getD 0))
    else .next (applyResponse (s.cell 2) resp rest s) := by
  rw [systemCall_of_no_fault h hf, if_neg (by simp [hw]), if_neg (by simp [hr]), if_neg he.not_gt]

end

/-- Settles O39: each stop is one branch of `systemCall`, the earlier ones excluded by the clause's hypotheses. -/
theorem syscallStops : Obligations.SyscallStops := by
  intro code s
  refine ⟨systemCall_of_no_answer, fun resp rest h => ?_⟩
  simp only [← Response.writesData_iff, ← Response.readsCells_iff, exec_syscall]
  refine ⟨fun f hf => ?_, fun hf hw => ?_, fun hf hw hr => ?_, fun hf hw hr he => ?_, fun k hf hw hr he hk hk0 => ?_⟩
  · rw [systemCall_of_fault h hf]; cases f <;> rfl
  · rw [systemCall_of_no_fault h hf, if_pos (by simpa using hw)]
  · rw [systemCall_of_no_fault h hf, if_neg (by simp [hw]), if_pos (by simpa using hr)]
  · rw [systemCall_of_no_fault h hf, if_neg (by simp [hw]), if_neg (by simp [hr]), if_pos he]
  · rw [systemCall_of_admissible h hf hw hr he, hk]
    exact if_pos hk0

/-! ### What a completed SYSCALL leaves -/

/-- Whatever part of the state no access of a handler changes is, after the handler, as the two reads before it left it. -/
theorem handlerCycle_keeps {α : Type} (f : State → α) (resp : Response) (s : State)
    (hf : ∀ (x : Cycle) e, f (x.hostAccess e).st = f x.st) :
    f (handlerCycle resp s).st = f ((s.begin.read .c 5).read .b 4).st := by
  unfold handlerCycle
  generalize (s.begin.read .c 5).read .b 4 = x
  induction resp.accesses generalizing x with
  | nil => rfl
  | cons e l ih => exact (ih (x.hostAccess e)).trans (hf x e)

section
variable (code : Word) {resp : Response} (rest : List (Word × Response)) (s : State)

/-- V0 holds the return value or the code (R380). -/
theorem applyResponse_v0 : (applyResponse code resp rest s).cell 2 = resp.ret.getD code :=
  State.cell_setCell_same (handlerCycle resp s).st 2 _

theorem applyResponse_mem (hw : resp.writesData = true) : (applyResponse code resp rest s).mem =
    resp.writes.foldl (fun m e => Memory.setWord m e.1.toNat e.2) s.mem :=
  hostAccesses_mem resp _ fun e he => (resp.writesData_iff.1 hw e he).1

theorem applyResponse_pc_npc : ((applyResponse code resp rest s).pc, (applyResponse code resp rest s).npc) =
    resp.jump.getD (s.npc, s.npc + 4) := by
  have hnpc : (handlerCycle resp s).st.npc = s.npc := handlerCycle_keeps State.npc resp s Cycle.hostAccess_npc
  unfold applyResponse
  cases hj : resp.jump with
  | none => exact congrArg (·, s.npc + 4) hnpc
  | some j => rfl

end

/-- Settles O38: the answer is applied, and the handler's accesses leave what the response does not set. -/
theorem syscallCompletes : Obligations.SyscallCompletes := by
  intro code s resp rest h hf hw hr he hhalt
  have hcode : resp.halt.getD 0 = 0 := by
    rcases hhalt with hhalt | hhalt <;> rw [hhalt] <;> rfl
  have keeps {α : Type} (f : State → α) := handlerCycle_keeps f resp s
  refine ⟨applyResponse (s.cell 2) resp rest s,
    (systemCall_of_admissible h hf hw hr he).trans (if_neg (not_not.2 hcode)),
    fun j hj => ?_, applyResponse_mem _ rest s hw, applyResponse_pc_npc _ rest s,
    congrArg (· + 5 + resp.extra) (keeps State.clk Cycle.hostAccess_clk),
    congrArg (· + 1) (keeps State.globalClk Cycle.hostAccess_globalClk), rfl,
    congrArg (· || resp.halt.isSome) (keeps State.exited Cycle.hostAccess_exited),
    congrArg resp.halt.getD (keeps State.exitCode Cycle.hostAccess_exitCode), rfl,
    keeps State.params Cycle.hostAccess_params, keeps State.program Cycle.hostAccess_program,
    keeps State.pcBase Cycle.hostAccess_pcBase, keeps State.mode Cycle.hostAccess_mode,
    keeps State.currentShard Cycle.hostAccess_currentShard, keeps State.shardOracle Cycle.hostAccess_shardOracle,
    keeps State.outgoing Cycle.hostAccess_outgoing⟩
  by_cases h2 : j = 2
  · rw [if_pos h2, h2, applyResponse_v0]
  · rw [if_neg h2, applyResponse_reg _ hw rest s hj h2]

/-! ### HALT -/

/-- HALT is answered whatever the port holds: with A0, and of the port's own answer, where there is one, the cost and the
fault (R382; assumption log 4). -/
theorem hostAnswer_of_haltCode {s : State} {code : Word} (h : haltCode s.params.syscallCodes = some code) (arg1 : Word) :
    ∃ rest, s.hostAnswer code arg1 =
      some (haltResponse arg1 (((takeAnswer s.hostAnswers code).map Prod.fst).getD .empty), rest) := by
  unfold State.hostAnswer
  rw [if_pos h]
  cases takeAnswer s.hostAnswers code with
  | none => exact ⟨_, rfl⟩
  | some p => exact ⟨p.2, rfl⟩

/-- Settles O40: HALT's answer makes no access, so it passes the checks of O38 and O39 that its cost and fault leave. -/
theorem haltEndsTheRun : Obligations.HaltEndsTheRun := by
  intro code s hcode
  obtain ⟨rest, h⟩ := hostAnswer_of_haltCode hcode (s.cell 4)
  refine ⟨_, rest, h, rfl, rfl, rfl, rfl, fun hnone => ?_, fun r rest' hsome => ?_, fun f hf => systemCall_of_fault h hf,
    fun hf he => ⟨fun h0 => ?_, fun h0 => ?_⟩⟩
  · rw [hnone]; exact ⟨rfl, rfl⟩
  · rw [hsome]; exact ⟨rfl, rfl⟩
  · obtain ⟨t, ht, hcell, hmem, hpc, hclk, -, -, hexited, hexitCode, -⟩ :=
      syscallCompletes code s _ rest h hf rfl rfl he (.inr (congrArg some h0))
    have hexited : t.exited = true := hexited.trans (Bool.or_true _)
    obtain ⟨hpc, hnpc⟩ := Prod.mk.inj hpc
    refine ⟨t, ht, hexited, hexitCode.trans h0, done_iff.2 (.inr (.inl hexited)), fun j hj => ?_,
      fun a => congrArg (Memory.byte · a) hmem, hpc, hnpc, hclk⟩
    rw [hcell j hj]
    split
    · next h2 => rw [h2]; rfl
    · rfl
  · exact (systemCall_of_admissible h hf rfl rfl he).trans (if_pos h0)

/-! ### BREAK and UNIMPL -/

/-- Settles O41: the arm of BREAK reads neither its code nor the state. -/
theorem breakRaisesBreakpoint : Obligations.BreakRaisesBreakpoint := fun code s => exec_brk s code

/-- A record of opcode UNIMPL that carries its raw word is well formed, whatever else it holds. -/
theorem execRecord_unimpl {r : Record} {raw : Word} (hop : r.opcode = .unimpl) (hraw : r.raw = some raw) (s : State) :
    execRecord r s = .fault (.unsupportedInstruction raw) := by
  have hwf : r.wf = true := by simp [Record.wf, Record.operandsInRange, Opcode.aInRange, hop, hraw]
  simp [execRecord, hwf, hop, hraw, execUnimpl, raise]

theorem execSlot_word_unimpl {w raw : Word} (h : decode w = .unimpl raw) (s : State) :
    execSlot (.word w) s = .fault (.unsupportedInstruction w) := by
  have hraw : raw = w := exact_of_decode h
  simp only [execSlot, h, hraw, execUnimpl, raise]

/-- Settles O42: a step is the execution of the fetched place, and a fault of it ends the cycle. -/
theorem unimplFaultsWhenExecuted : Obligations.UnimplFaultsWhenExecuted := by
  refine ⟨fun s w raw hfetch hdecode => ?_, fun s r raw hfetch hop hraw => ?_⟩
  · rw [step_of_slot hfetch, execSlot_word_unimpl hdecode, andThen_fault]
  · rw [step_of_slot hfetch]
    exact congrArg (andThen · closeCycle) (execRecord_unimpl hop hraw s)

end Sys2Proof.Machine
end

section
/-! SUPPORT. The launch (70_reset R440): what it answers by its premise, and what every cell of the launch state holds. -/

namespace Sys2Proof.Machine

/-! ### The image as memory -/

@[simp] theorem Memory.byte_nil (a : Nat) : Memory.byte [] a = 0 := rfl

/-- Four zero bytes, joined, are the zero word. -/
@[simp] theorem Memory.word_nil (k : Nat) : Memory.word [] k = 0 := by
  simp only [Memory.word, Memory.byte_nil]
  decide

/-- The image's memory holds at a data word what the image's first entry of its key gives, else 0 (20_memory R77). -/
theorem word_imageMemory (image : List (Nat × Word)) {k : Nat} (hk : dataKey k) :
    Memory.word (imageMemory image) k = (Assoc.get image k).getD 0 := by
  induction image with
  | nil => exact Memory.word_nil k
  | cons e rest ih =>
    simp only [imageMemory, Assoc.get]
    by_cases heq : k = e.1
    · rw [if_pos (heq ▸ hk), if_pos heq, heq, Memory.word_setWord_same, Option.getD_some]
    · rw [if_neg heq]
      split
      · next he => rw [Memory.word_setWord_other _ _ (by omega), ih]
      · exact ih

/-! ### The launch state -/

/-- Every cell of the store starts at its image value, register 0 at the 0 which the premise asks of key 0. -/
theorem Launch.state_cell {l : Launch} (hzero : l.imageWord 0 = 0) {k : Nat} (hk : validKey k) :
    l.state.cell k = l.imageWord k := by
  rcases hk with hreg | hdata
  · unfold State.cell
    rw [dif_pos hreg]
    split
    · next h0 => rw [h0, hzero]
    · exact Vector.getElem_ofFn hreg
  · rw [State.cell_of_le _ (by omega)]
    exact word_imageMemory l.image hdata

/-- Nothing is touched at the start, so a cell's record is its value at shard 0, timestamp 0 (20_memory R77). -/
theorem Launch.state_record (l : Launch) (k : Nat) :
    l.state.record k = { value := l.state.cell k, shard := 0, timestamp := 0 } := rfl

/-! ### Acceptance and refusal -/

theorem launch_of_premise {l : Launch} (h : l.premise = true) : launch l = .next l.state := if_pos h

theorem launch_of_not_premise {l : Launch} (h : l.premise = false) : launch l = .refused .launchPremise :=
  if_neg (Bool.not_eq_true _ ▸ h)

/-- Settles O54: the premise decides between the refusal and the launch state, whose cells are the image's. -/
theorem launchState : Obligations.LaunchState := by
  refine ⟨rfl, fun l => ⟨fun h => launch_of_not_premise (decide_eq_false h), fun h4 hne hfit hzero => ?_⟩⟩
  refine ⟨l.state, launch_of_premise (decide_eq_true ⟨h4, hne, hfit, hzero⟩), fun k hk => ?_,
    rfl, rfl, rfl, rfl, rfl, rfl, rfl, rfl, rfl, rfl, rfl, rfl, rfl⟩
  rw [Launch.state_record, Launch.state_cell hzero hk]

end Sys2Proof.Machine
end
